-- ==== Sys2Proof/Word.lean ====
section
/-! DEFINITION. The widths of R10 and the plainest arithmetic on them (00_scope.md R12 to R14). -/

namespace Sys2Proof

/-- A u8: a bus address, a register value, a bank, a count (R10, R70, R71). -/
abbrev Byte := BitVec 8

/-- A u16: a porch, sync, active or total count, a word count (R10). -/
abbrev U16 := BitVec 16

/-- A u32: a clock in kHz, a multiplier (R10, R39). -/
abbrev U32 := BitVec 32

end Sys2Proof
end

