-- ==== Sys2Proof/Machine/Types.lean ====
section
/-! DEFINITION. The named codes and records of the spec: failure codes (R300), stages (R32), operand
codes (R109), word formats (R108), symbolic chip registers (R75), record types (R35 to R42). -/

namespace Sys2Proof

/-- The failures of R300, in the order of their codes; `none` is code 0. -/
inductive ErrCode where
  | none
  | transportError
  | noVideo
  | noMatchingMode
  | pcrUnstable
  | pllUnlocked
  | vidChkUnstable
  | missingGpio
  | missingClock
  | dsiAttachDefer
deriving DecidableEq, Repr, Inhabited

/-- The five stages (R32), in their forward order. -/
inductive Stage where
  | prepare
  | rxTimingConfig
  | rxPllConfig
  | txVideoConfig
  | txVideoOut
deriving DecidableEq, Repr, Inhabited

/-- How a stage operation ends (44_sequencer.md, first paragraph): `next` after `continue_stage`,
`yield` after `return`. -/
inductive StageEnd where
  | next
  | yield
deriving DecidableEq, Repr, Inhabited

/-- The chip status bits a POLL can name (R109, R47). -/
inductive StatusId where
  | pcrStable
  | vidchkStable
  | txpllLock
deriving DecidableEq, Repr, Inhabited

/-- The gap class of a POLL (R109). -/
inductive Gap where
  | none
  | pcrGap
  | txlockGap
deriving DecidableEq, Repr, Inhabited

/-- The delay class of a SCHEDULE (R109). -/
inductive DelayClass where
  | now
  | short
  | defer
  | retry
deriving DecidableEq, Repr, Inhabited

/-- The word formats of R108. -/
inductive Format where
  | z | h8 | t1 | t2 | t3 | tn | ts | c32 | c32s | c32qs | ct | df | dwf | dwh | dwhr | sp | sd | sr
deriving DecidableEq, Repr, Inhabited

/-- The symbolic chip registers of R75. -/
inductive ChipReg where
  | bankSel | chipId | rxPhyPwr | txPhyPwr | sotCnt0 | sotCnt1 | sotCnt2 | sotCnt3 | rxHsSettle
  | rxBlock | rxFr | desscDiv | pcrCoef | pcrStatus | vidchkStatus | txSrcPwr | pclkRb | txpllRef
  | txpllDiv | txpllRst | txpllStatus | meas | txDig | txSwrst
deriving DecidableEq, Repr, Inhabited

/-- Whether the block reads or writes a chip register (R75, column "access"). -/
inductive Access where
  | r
  | w
deriving DecidableEq, Repr, Inhabited

/-- The write lists that are parameters (R11, R76): fixed ones, and those encoding a computed value. -/
inductive ListParam where
  | seqRxPhyOn | seqTxPhyOff | seqTxSrcOn | seqTxPllRef | seqTxPllRst | seqTxSwRst
  | encDessc | encPcr | encTxPll | txDig
deriving DecidableEq, Repr, Inhabited

/-- The length of a chip register (R75, column "length"): bytes in a run, or the write list that writes it. -/
inductive RegLength where
  | bytes (n : Nat)
  | list (l : ListParam)
deriving DecidableEq, Repr, Inhabited

/-- What the detector learns of the incoming stream (R35). -/
structure RxVideoDescriptor where
  wc : U16
  vact : U16
  hact : U16
  fmt : BitVec 4
  lanepack : Byte
  fr : Byte
deriving DecidableEq, Repr, Inhabited

/-- A video timing: horizontal and vertical porches, sync, active and total counts, the frame rate
in Hz and the pixel clock in kHz (R37). -/
structure VideoTiming where
  hfp : U16
  hs : U16
  hbp : U16
  hact : U16
  htotal : U16
  vfp : U16
  vs : U16
  vbp : U16
  vact : U16
  vtotal : U16
  fr : Byte
  pclk : U32
deriving DecidableEq, Repr, Inhabited

/-- A row of the timing table (R42). -/
structure TimingEntry where
  hfp : U16
  hs : U16
  hbp : U16
  hact : U16
  htotal : U16
  vfp : U16
  vs : U16
  vbp : U16
  vact : U16
  vtotal : U16
  fr : Byte
deriving DecidableEq, Repr, Inhabited

/-- The PCR multiplier setting `{M, K, M_hi, M_lo}` (R39). -/
structure PcrSetting where
  m : U32
  k : BitVec 24
  mHi : U32
  mLo : U32
deriving DecidableEq, Repr, Inhabited

/-- The dessc-PLL divider and the flag of its extra /2 prescaler (R40). -/
structure DesscSetting where
  div : BitVec 5
  pre2 : BitVec 1
deriving DecidableEq, Repr, Inhabited

/-- The TX PLL dividers and the divider register value (R41). -/
structure TxPllSetting where
  preDiv : Byte
  serialDiv : Byte
  pixDiv : Byte
  divreg : Byte
deriving DecidableEq, Repr, Inhabited

end Sys2Proof
end

