-- ==== Sys2Proof/Machine/Events.lean ====
section
/-! DEFINITION. The events of a run's history (00_scope.md R20; R140, R243, R250, R253, R256, R325). -/

namespace Sys2Proof.Machine

open Sys2Proof

/-- The two edges of the platform's reset line (R243, D49). -/
inductive ResetEdge where
  | assert
  | release
deriving DecidableEq, Repr, Inhabited

/-- What a `wait` event waits for (R9, R353). -/
inductive WaitLabel where
  | resetAssert
  | resetSettle
  | pollGap (g : Gap)
deriving DecidableEq, Repr, Inhabited

/-- The warnings of R325. -/
inductive Warning where
  | pllUnlocked
deriving DecidableEq, Repr, Inhabited

/-- The log entries of R325. -/
inductive LogEntry where
  | chipIdMismatch
  | noMatchingMode
  | vidChkTimeout
deriving DecidableEq, Repr, Inhabited

/-- An event of the history (R20). A bus write records address, value and whether it completed; a bus
read records address and the value read, `none` for `Err` (R140). -/
inductive Event where
  | busW (a v : Byte) (ok : Bool)
  | busR (a : Byte) (r : Option Byte)
  | reset (e : ResetEdge)
  | wait (l : WaitLabel) (ms : Nat)
  | sched (d : DelayClass) (ms : Nat)
  | warn (w : Warning)
  | log (l : LogEntry)
  | dsiAttach
  | dsiRelease
deriving DecidableEq, Repr, Inhabited

/-- An event is a bus transaction (R140). -/
def Event.isBus (e : Event) : Bool :=
  match e with
  | .busW _ _ _ => true
  | .busR _ _ => true
  | _ => false

end Sys2Proof.Machine
end

