-- ==== Sys2Proof/Syntax.lean ====
section
/-! DEFINITION. The operations of the block: one constructor for each row of spec/opcode_table.json (R110). -/

namespace Sys2Proof

/-- An operation with its operands (R108, R109, R110). -/
inductive Instr where
  /-- ATTACH: construction flags, bit 0 gpio, bit 1 clk, bit 2 dsi (R253). -/
  | attach (c : BitVec 3)
  /-- ENABLE (R254). -/
  | enable
  /-- DISABLE (R255). -/
  | disable
  /-- DETACH (R256). -/
  | detach
  /-- TICK (R252). -/
  | tick
  /-- BANKSEL: bank (R142). -/
  | banksel (b : Byte)
  /-- WR: bank, address, value (R143). -/
  | wr (b a v : Byte)
  /-- WRSEQ: bank and the pairs (address, value); the count n is the length of the list (R144). -/
  | wrseq (b : Byte) (ps : List (Byte × Byte))
  /-- RD: bank, address (R145). -/
  | rd (b a : Byte)
  /-- RDBULK: bank, start address, count (R146). -/
  | rdbulk (b a n : Byte)
  /-- PCR_BAND: pixel clock (R161). -/
  | pcrBand (p : U32)
  /-- COMPUTE_PCR: pixel clock (R162). -/
  | computePcr (p : U32)
  /-- TX_PREDIV: pixel clock (R167). -/
  | txPrediv (p : U32)
  /-- TX_PHYCLK: pixel clock (R168). -/
  | txPhyclk (p : U32)
  /-- TX_SERDIV: physical clock (R169). -/
  | txSerdiv (phy : U32)
  /-- TX_PIXMUX: pixel clock, serial divider (R170). -/
  | txPixmux (p : U32) (sd : Byte)
  /-- TX_DIVREG: pixel clock, pre-divider, serial divider (R171). -/
  | txDivreg (p : U32) (q sd : Byte)
  /-- COMPUTE_TX_PLL: pixel clock (R172). -/
  | computeTxPll (p : U32)
  /-- PCLK_OF_TIMING: htotal, vtotal, frame rate (R173). -/
  | pclkOfTiming (ht vt : U16) (fr : Byte)
  /-- BPP_LOOKUP: format code (R200). -/
  | bppLookup (f : BitVec 4)
  /-- ACTIVE_WIDTH: word count, format code (R201). -/
  | activeWidth (wc : U16) (f : BitVec 4)
  /-- VIDEO_CHECK: width, height (R202). -/
  | videoCheck (w h : U16)
  /-- DETECT (R204). -/
  | detect
  /-- MODE_LOOKUP: width, height, observed frame rate (R205). -/
  | modeLookup (w h : U16) (r : Byte)
  /-- STAGE_PREPARE (R243). -/
  | stagePrepare
  /-- STAGE_RXTIMING (R244). -/
  | stageRxtiming
  /-- STAGE_RXPLL (R246). -/
  | stageRxpll
  /-- STAGE_TXVIDCFG (R247). -/
  | stageTxvidcfg
  /-- STAGE_TXVIDOUT (R248). -/
  | stageTxvidout
  /-- POLL: status bit, count, gap class (R249). -/
  | poll (i : StatusId) (n : Byte) (g : Gap)
  /-- SCHEDULE: delay class (R250). -/
  | schedule (d : DelayClass)
  /-- RETRY_UPDATE: steady-format hint, error code (R245). -/
  | retryUpdate (k : Bool) (e : ErrCode)
  /-- INVOKE (R251). -/
  | invoke
deriving DecidableEq, Repr

end Sys2Proof
end

