-- ==== Sys2Proof/WellFormed.lean ====
section
/-! DEFINITION. Which operations have a word. The operand types already exclude every reserved operand
value of R112; what is left is that the count byte of WRSEQ can hold the number of its pairs (R113). -/

namespace Sys2Proof

/-- `i` has an operation word: the pairs of a WRSEQ are counted by one byte, 0 to 255 (R113, R144). -/
def Instr.wellFormed (i : Instr) : Bool :=
  match i with
  | .wrseq _ ps => decide (ps.length ≤ 255)
  | _ => true

end Sys2Proof
end

