-- ==== Sys2Proof/Decode.lean ====
section
/-! DEFINITION. Operation words (30_encoding.md, section 3): the decoder, total on every byte string and
rejecting by name (R111, R112), and after it the encoder and the word formats. -/

namespace Sys2Proof

/-- Why a byte string spells no operation: an unassigned opcode, too few bytes (R111), a reserved
operand value (R112). -/
inductive DecodeError where
  | illegal
  | truncated
  | reserved
deriving DecidableEq, Repr

/-- What the decoder answers: an operation and the bytes after its word, or why there is none. -/
inductive Decoded where
  | ok (i : Instr) (rest : List Byte)
  | bad (e : DecodeError)
deriving DecidableEq, Repr

/-! ## Operand fields (R107: multi-byte operands MSB-first) -/

/-- Two bytes as a u16, the first the more significant (R107). -/
def u16Be (b1 b0 : Byte) : U16 := b1 ++ b0

/-- Four bytes as a u32, the first the most significant (R107). -/
def u32Be (b3 b2 b1 b0 : Byte) : U32 := (b3 ++ b2) ++ (b1 ++ b0)

/-- The status id of a POLL word (R109); values above 2 are reserved (R112). -/
def statusOfByte (b : Byte) : Option StatusId :=
  if b = 0x00#8 then some .pcrStable
  else if b = 0x01#8 then some .vidchkStable
  else if b = 0x02#8 then some .txpllLock
  else none

/-- The gap class of a POLL word (R109); values above 2 are reserved (R112). -/
def gapOfByte (b : Byte) : Option Gap :=
  if b = 0x00#8 then some .none
  else if b = 0x01#8 then some .pcrGap
  else if b = 0x02#8 then some .txlockGap
  else none

/-- The delay class of a SCHEDULE word (R109); values above 3 are reserved (R112). -/
def delayOfByte (b : Byte) : Option DelayClass :=
  if b = 0x00#8 then some .now
  else if b = 0x01#8 then some .short
  else if b = 0x02#8 then some .defer
  else if b = 0x03#8 then some .retry
  else none

/-- The error code of a RETRY_UPDATE word (R300); values above 9 are reserved (R112). -/
def errOfByte (b : Byte) : Option ErrCode :=
  if b = 0x00#8 then some .none
  else if b = 0x01#8 then some .transportError
  else if b = 0x02#8 then some .noVideo
  else if b = 0x03#8 then some .noMatchingMode
  else if b = 0x04#8 then some .pcrUnstable
  else if b = 0x05#8 then some .pllUnlocked
  else if b = 0x06#8 then some .vidChkUnstable
  else if b = 0x07#8 then some .missingGpio
  else if b = 0x08#8 then some .missingClock
  else if b = 0x09#8 then some .dsiAttachDefer
  else none

/-- The hint of a RETRY_UPDATE word: bit 0, the other bits fixed to zero (R108, R112). -/
def hintOfByte (b : Byte) : Option Bool :=
  if b = 0x00#8 then some false
  else if b = 0x01#8 then some true
  else none

/-- The low nibble of a format byte whose high nibble is the fixed zero (R108, R112). -/
def nibbleOfByte (b : Byte) : Option (BitVec 4) :=
  if b.extractLsb' 4 4 = 0#4 then some (b.extractLsb' 0 4) else none

/-- The construction flags of an ATTACH word, bits 7 to 3 fixed to zero (R108, R112). -/
def flagsOfByte (b : Byte) : Option (BitVec 3) :=
  if b.extractLsb' 3 5 = 0#5 then some (b.extractLsb' 0 3) else none

/-- `some i` is the operation; `none` is a reserved operand value (R112). -/
def reservedOr (oi : Option Instr) (rest : List Byte) : Decoded :=
  match oi with
  | some i => .ok i rest
  | none => .bad .reserved

/-! ## Formats (R108): each takes the bytes after the opcode -/

/-- Format H8. -/
def decH8 (tl : List Byte) : Decoded :=
  match tl with
  | c :: rest => reservedOr ((flagsOfByte c).map .attach) rest
  | _ => .bad .truncated

/-- Format T1. -/
def decT1 (tl : List Byte) : Decoded :=
  match tl with
  | b :: rest => .ok (.banksel b) rest
  | _ => .bad .truncated

/-- Format T2. -/
def decT2 (tl : List Byte) : Decoded :=
  match tl with
  | b :: a :: rest => .ok (.rd b a) rest
  | _ => .bad .truncated

/-- Formats T3 and TN: three bytes. -/
def decT3 (mk : Byte → Byte → Byte → Instr) (tl : List Byte) : Decoded :=
  match tl with
  | b :: a :: v :: rest => .ok (mk b a v) rest
  | _ => .bad .truncated

/-- The next `n` pairs of bytes and the bytes after them. -/
def takePairs (n : Nat) (tl : List Byte) : Option (List (Byte × Byte) × List Byte) :=
  match n with
  | 0 => some ([], tl)
  | m + 1 =>
    match tl with
    | a :: v :: rest => (takePairs m rest).map fun r => ((a, v) :: r.1, r.2)
    | _ => none

/-- Format TS: the bank, the count n, then n pairs (R113). -/
def decTS (tl : List Byte) : Decoded :=
  match tl with
  | b :: n :: rest =>
    match takePairs n.toNat rest with
    | some (ps, rest') => .ok (.wrseq b ps) rest'
    | none => .bad .truncated
  | _ => .bad .truncated

/-- Format C32. -/
def decC32 (mk : U32 → Instr) (tl : List Byte) : Decoded :=
  match tl with
  | p3 :: p2 :: p1 :: p0 :: rest => .ok (mk (u32Be p3 p2 p1 p0)) rest
  | _ => .bad .truncated

/-- Format C32S. -/
def decC32S (tl : List Byte) : Decoded :=
  match tl with
  | p3 :: p2 :: p1 :: p0 :: s :: rest => .ok (.txPixmux (u32Be p3 p2 p1 p0) s) rest
  | _ => .bad .truncated

/-- Format C32QS. -/
def decC32QS (tl : List Byte) : Decoded :=
  match tl with
  | p3 :: p2 :: p1 :: p0 :: q :: s :: rest => .ok (.txDivreg (u32Be p3 p2 p1 p0) q s) rest
  | _ => .bad .truncated

/-- Format CT. -/
def decCT (tl : List Byte) : Decoded :=
  match tl with
  | h1 :: h0 :: t1 :: t0 :: r :: rest => .ok (.pclkOfTiming (u16Be h1 h0) (u16Be t1 t0) r) rest
  | _ => .bad .truncated

/-- Format DF. -/
def decDF (tl : List Byte) : Decoded :=
  match tl with
  | f :: rest => reservedOr ((nibbleOfByte f).map .bppLookup) rest
  | _ => .bad .truncated

/-- Format DWF. -/
def decDWF (tl : List Byte) : Decoded :=
  match tl with
  | w1 :: w0 :: f :: rest => reservedOr ((nibbleOfByte f).map (.activeWidth (u16Be w1 w0))) rest
  | _ => .bad .truncated

/-- Format DWH. -/
def decDWH (tl : List Byte) : Decoded :=
  match tl with
  | w1 :: w0 :: y1 :: y0 :: rest => .ok (.videoCheck (u16Be w1 w0) (u16Be y1 y0)) rest
  | _ => .bad .truncated

/-- Format DWHR. -/
def decDWHR (tl : List Byte) : Decoded :=
  match tl with
  | w1 :: w0 :: y1 :: y0 :: r :: rest => .ok (.modeLookup (u16Be w1 w0) (u16Be y1 y0) r) rest
  | _ => .bad .truncated

/-- Format SP. -/
def decSP (tl : List Byte) : Decoded :=
  match tl with
  | i :: n :: g :: rest =>
    reservedOr ((statusOfByte i).bind fun si => (gapOfByte g).map fun gi => .poll si n gi) rest
  | _ => .bad .truncated

/-- Format SD. -/
def decSD (tl : List Byte) : Decoded :=
  match tl with
  | d :: rest => reservedOr ((delayOfByte d).map .schedule) rest
  | _ => .bad .truncated

/-- Format SR. -/
def decSR (tl : List Byte) : Decoded :=
  match tl with
  | k :: e :: rest =>
    reservedOr ((hintOfByte k).bind fun ki => (errOfByte e).map fun ei => .retryUpdate ki ei) rest
  | _ => .bad .truncated

/-- The opcode map of R110: the operation an opcode byte and the bytes after it spell. Every opcode
not listed is illegal (R111). -/
def decodeOp (op : Byte) (tl : List Byte) : Decoded :=
  match op with
  | 0x01#8 => decH8 tl
  | 0x02#8 => .ok .enable tl
  | 0x03#8 => .ok .disable tl
  | 0x04#8 => .ok .detach tl
  | 0x05#8 => .ok .tick tl
  | 0x10#8 => decT1 tl
  | 0x11#8 => decT3 .wr tl
  | 0x12#8 => decTS tl
  | 0x13#8 => decT2 tl
  | 0x14#8 => decT3 .rdbulk tl
  | 0x20#8 => decC32 .pcrBand tl
  | 0x21#8 => decC32 .computePcr tl
  | 0x22#8 => decC32 .txPrediv tl
  | 0x23#8 => decC32 .txPhyclk tl
  | 0x24#8 => decC32 .txSerdiv tl
  | 0x25#8 => decC32S tl
  | 0x26#8 => decC32QS tl
  | 0x27#8 => decC32 .computeTxPll tl
  | 0x28#8 => decCT tl
  | 0x30#8 => decDF tl
  | 0x31#8 => decDWF tl
  | 0x32#8 => decDWH tl
  | 0x33#8 => .ok .detect tl
  | 0x34#8 => decDWHR tl
  | 0x40#8 => .ok .stagePrepare tl
  | 0x41#8 => .ok .stageRxtiming tl
  | 0x42#8 => .ok .stageRxpll tl
  | 0x43#8 => .ok .stageTxvidcfg tl
  | 0x44#8 => .ok .stageTxvidout tl
  | 0x45#8 => decSP tl
  | 0x46#8 => decSD tl
  | 0x47#8 => decSR tl
  | 0x48#8 => .ok .invoke tl
  | _ => .bad .illegal

/-- Decodes the operation word at the head of a byte string (R113). No byte at all is too few (R111). -/
def decode (bytes : List Byte) : Decoded :=
  match bytes with
  | [] => .bad .truncated
  | op :: tl => decodeOp op tl

/-! ## The encoder -/

/-- Byte `k` of a u16 or u32, byte 0 the least significant. -/
def byteOf {w : Nat} (x : BitVec w) (k : Nat) : Byte := x.extractLsb' (8 * k) 8

/-- A u16 as two bytes, MSB-first (R107). -/
def bytes16 (x : U16) : List Byte := [byteOf x 1, byteOf x 0]

/-- A u32 as four bytes, MSB-first (R107). -/
def bytes32 (x : U32) : List Byte := [byteOf x 3, byteOf x 2, byteOf x 1, byteOf x 0]

/-- The opcode byte of an operation (R110). -/
def Instr.opcode (i : Instr) : Byte :=
  match i with
  | .attach _ => 0x01 | .enable => 0x02 | .disable => 0x03 | .detach => 0x04 | .tick => 0x05
  | .banksel _ => 0x10 | .wr _ _ _ => 0x11 | .wrseq _ _ => 0x12 | .rd _ _ => 0x13
  | .rdbulk _ _ _ => 0x14
  | .pcrBand _ => 0x20 | .computePcr _ => 0x21 | .txPrediv _ => 0x22 | .txPhyclk _ => 0x23
  | .txSerdiv _ => 0x24 | .txPixmux _ _ => 0x25 | .txDivreg _ _ _ => 0x26
  | .computeTxPll _ => 0x27 | .pclkOfTiming _ _ _ => 0x28
  | .bppLookup _ => 0x30 | .activeWidth _ _ => 0x31 | .videoCheck _ _ => 0x32 | .detect => 0x33
  | .modeLookup _ _ _ => 0x34
  | .stagePrepare => 0x40 | .stageRxtiming => 0x41 | .stageRxpll => 0x42 | .stageTxvidcfg => 0x43
  | .stageTxvidout => 0x44 | .poll _ _ _ => 0x45 | .schedule _ => 0x46
  | .retryUpdate _ _ => 0x47 | .invoke => 0x48

/-- The word format of an operation (R110). -/
def Instr.format (i : Instr) : Format :=
  match i with
  | .attach _ => .h8 | .enable => .z | .disable => .z | .detach => .z | .tick => .z
  | .banksel _ => .t1 | .wr _ _ _ => .t3 | .wrseq _ _ => .ts | .rd _ _ => .t2
  | .rdbulk _ _ _ => .tn
  | .pcrBand _ => .c32 | .computePcr _ => .c32 | .txPrediv _ => .c32 | .txPhyclk _ => .c32
  | .txSerdiv _ => .c32 | .txPixmux _ _ => .c32s | .txDivreg _ _ _ => .c32qs
  | .computeTxPll _ => .c32 | .pclkOfTiming _ _ _ => .ct
  | .bppLookup _ => .df | .activeWidth _ _ => .dwf | .videoCheck _ _ => .dwh | .detect => .z
  | .modeLookup _ _ _ => .dwhr
  | .stagePrepare => .z | .stageRxtiming => .z | .stageRxpll => .z | .stageTxvidcfg => .z
  | .stageTxvidout => .z | .poll _ _ _ => .sp | .schedule _ => .sd
  | .retryUpdate _ _ => .sr | .invoke => .z

/-- The length in bytes of a word of a format, `n` the count byte of a TS word (R108). -/
def Format.length (f : Format) (n : Nat) : Nat :=
  match f with
  | .z => 1 | .h8 => 2 | .t1 => 2 | .t2 => 3 | .t3 => 4 | .tn => 4 | .ts => 3 + 2 * n
  | .c32 => 5 | .c32s => 6 | .c32qs => 7 | .ct => 6 | .df => 2 | .dwf => 4 | .dwh => 5
  | .dwhr => 6 | .sp => 4 | .sd => 2 | .sr => 3

/-- The number of pairs a WRSEQ carries; 0 for every other operation. -/
def Instr.pairCount (i : Instr) : Nat :=
  match i with
  | .wrseq _ ps => ps.length
  | _ => 0

/-- The code of a status id (R109). -/
def StatusId.code (i : StatusId) : Byte :=
  match i with
  | .pcrStable => 0x00 | .vidchkStable => 0x01 | .txpllLock => 0x02

/-- The code of a gap class (R109). -/
def Gap.code (g : Gap) : Byte :=
  match g with
  | .none => 0x00 | .pcrGap => 0x01 | .txlockGap => 0x02

/-- The code of a delay class (R109). -/
def DelayClass.code (d : DelayClass) : Byte :=
  match d with
  | .now => 0x00 | .short => 0x01 | .defer => 0x02 | .retry => 0x03

/-- The 8-bit code of a failure (R300). -/
def ErrCode.code (e : ErrCode) : Byte :=
  match e with
  | .none => 0x00 | .transportError => 0x01 | .noVideo => 0x02 | .noMatchingMode => 0x03
  | .pcrUnstable => 0x04 | .pllUnlocked => 0x05 | .vidChkUnstable => 0x06 | .missingGpio => 0x07
  | .missingClock => 0x08 | .dsiAttachDefer => 0x09

/-- The operand bytes of the pairs of a WRSEQ, in order (R108). -/
def pairBytes (ps : List (Byte × Byte)) : List Byte := ps.flatMap fun p => [p.1, p.2]

/-- The operand bytes of an operation (R108). -/
def Instr.operands (i : Instr) : List Byte :=
  match i with
  | .attach c => [c.setWidth 8]
  | .banksel b => [b]
  | .wr b a v => [b, a, v]
  | .wrseq b ps => b :: BitVec.ofNat 8 ps.length :: pairBytes ps
  | .rd b a => [b, a]
  | .rdbulk b a n => [b, a, n]
  | .pcrBand p => bytes32 p
  | .computePcr p => bytes32 p
  | .txPrediv p => bytes32 p
  | .txPhyclk p => bytes32 p
  | .txSerdiv phy => bytes32 phy
  | .txPixmux p sd => bytes32 p ++ [sd]
  | .txDivreg p q sd => bytes32 p ++ [q, sd]
  | .computeTxPll p => bytes32 p
  | .pclkOfTiming ht vt fr => bytes16 ht ++ bytes16 vt ++ [fr]
  | .bppLookup f => [f.setWidth 8]
  | .activeWidth wc f => bytes16 wc ++ [f.setWidth 8]
  | .videoCheck w h => bytes16 w ++ bytes16 h
  | .modeLookup w h r => bytes16 w ++ bytes16 h ++ [r]
  | .poll i n g => [i.code, n, g.code]
  | .schedule d => [d.code]
  | .retryUpdate k e => [if k then 0x01 else 0x00, e.code]
  | .enable | .disable | .detach | .tick | .detect | .stagePrepare | .stageRxtiming | .stageRxpll
  | .stageTxvidcfg | .stageTxvidout | .invoke => []

/-- The word of an operation: the opcode, then the operands (R107). -/
def encode (i : Instr) : List Byte := i.opcode :: i.operands

/-- The lifecycle operations, the only ones a host program contains (R116). -/
def Instr.isHost (i : Instr) : Bool :=
  match i with
  | .attach _ | .enable | .disable | .detach | .tick => true
  | _ => false

/-! ## Words as spec/opcode_table.json numbers their bits -/

/-- The length of the longest word: a WRSEQ of 255 pairs (R108). -/
def maxWordLength : Nat := 513

/-- The bytes of a word whose bits are numbered from the least significant bit of byte 0, followed by
zero bytes up to the longest word. -/
def tableWordBytes (nbits w : Nat) : List Byte :=
  (List.range ((nbits + 7) / 8)).map (fun k => BitVec.ofNat 8 (w >>> (8 * k)))
    ++ List.replicate maxWordLength 0x00#8

/-- The operation the decoder reads from a word numbered as the opcode table numbers it, every bit
above `nbits` zero; none where the decoder refuses. -/
def decodeTableWord (nbits w : Nat) : Option Instr :=
  match decode (tableWordBytes nbits w) with
  | .ok i _ => some i
  | .bad _ => none

end Sys2Proof
end

