-- ==== Sys2Proof/Machine/Params.lean ====
section
/-! DEFINITION. The parameters of the block (00_scope.md R11): a record that every operation takes as an
argument. They are not state (R52). With it, the conditions under which a parameter set is well-formed
(R167, R169, R200, R205; an ill-formed set is refused, R310 `BadParameter`). -/

namespace Sys2Proof

/-- A logical location of the chip's register space (R70, R71). -/
structure Reg where
  bank : Byte
  addr : Byte
deriving DecidableEq, Repr, Inhabited

/-- A run of `len` consecutive registers of one bank (R79). -/
structure Span where
  bank : Byte
  addr : Byte
  len : Byte
deriving DecidableEq, Repr, Inhabited

/-- One group of a write list: a bank and its entries (address, value), in order (R76). -/
structure WriteGroup where
  bank : Byte
  entries : List (Byte × Byte)
deriving DecidableEq, Repr, Inhabited

/-- A write list: groups in order (R76). -/
abbrev WriteList := List WriteGroup

/-- The byte order of a multi-byte chip field (R77, D6). -/
inductive FieldOrder where
  | msbFirst
  | lsbFirst
deriving DecidableEq, Repr, Inhabited

/-- Where a status bit is and which level means "set" (R103). -/
structure StatusBit where
  reg : Reg
  bit : Fin 8
  level : Bool
deriving DecidableEq, Repr, Inhabited

/-- The register and the fixed value of the high-speed-settle write (R204, D20). -/
structure SettleWrite where
  reg : Reg
  value : Byte
deriving DecidableEq, Repr, Inhabited

/-- The chip-identity registers and the bytes expected there (R243, D39). -/
structure ChipIdParam where
  span : Span
  expected : List Byte
deriving DecidableEq, Repr, Inhabited

/-- The offsets in the 5-byte RX block of the first byte of the word count, of the first byte of the
active-line count, and of the shared byte (R101). -/
structure RxBlockLayout where
  oWc : Fin 4
  oVact : Fin 4
  oFmt : Fin 5
deriving DecidableEq, Repr, Inhabited

/-- The middle bands of the TX pre-divider (R167). -/
structure TxPredivParam where
  t2 : Nat
  t3 : Nat
  v2 : Byte
  v3 : Byte
  v4 : Byte
deriving DecidableEq, Repr, Inhabited

/-- The bands of the serial-clock divider (R169). -/
structure TxSerdivParam where
  s1 : Nat
  s2 : Nat
  s3 : Nat
  s4 : Nat
  w1 : Byte
  w2 : Byte
  w3 : Byte
  w4 : Byte
  w5 : Byte
deriving DecidableEq, Repr, Inhabited

/-- The divider used in M for the lowest PCR band: the band's 16, or 32 with the prescaler (R165). -/
inductive LowMDiv where
  | div16
  | div32
deriving DecidableEq, Repr, Inhabited

/-- What RxPllConfig does when the video check never reads stable (R246, D27). -/
inductive VidchkExhaust where
  | advance
  | fail
deriving DecidableEq, Repr, Inhabited

/-- The pixel-clock readback: its registers, and the clock in kHz that the number they hold stands for (D29).
The number is assembled from their bytes in `P_FIELD_ORDER` (R77, log 30). -/
structure PclkRbParam where
  span : Span
  toKhz : Nat → U32
deriving Inhabited

/-- Where a multi-byte field is in the bytes of a bulk read (R77). -/
structure FieldAt where
  offset : Nat
  len : Nat
deriving DecidableEq, Repr, Inhabited

/-- The measurement registers: where their fields are, and the timing the numbers in these fields make (D41). The
numbers are assembled from the fields' bytes in `P_FIELD_ORDER` (R77, log 30). -/
structure MeasParam where
  span : Span
  fields : List FieldAt
  toTiming : List Nat → VideoTiming
deriving Inhabited

/-- The parameters of R11. -/
structure Params where
  /-- `P_BANK_SEL_ADDR` (R72). -/
  bankSelAddr : Byte
  /-- `P_REGMAP` (R75): the place of each symbolic register; its length is `Params.regLength`. -/
  regMap : ChipReg → Reg
  /-- `P_FIELD_ORDER` (R77). -/
  fieldOrder : FieldOrder
  /-- `P_RX_BLOCK_LAYOUT` (R101). -/
  rxBlockLayout : RxBlockLayout
  /-- `P_SOT_REGS` (R204, D20). -/
  sotRegs : Fin 4 → Reg
  /-- `P_HS_SETTLE` (R204, D20). -/
  hsSettle : SettleWrite
  /-- `P_RX_FR_REG` (R204, D19). -/
  rxFrReg : Reg
  /-- `P_LANES` (R243, D46): a name for the wired lane configuration. -/
  lanes : Nat
  /-- `P_CHIP_ID` (R243, D39). -/
  chipId : ChipIdParam
  /-- `P_BPP` (R200): one entry for each format code; `none` is an unknown code. -/
  bpp : List (Option (Nat × Nat))
  /-- `P_FMT_RAW10` (R200). -/
  fmtRaw10 : BitVec 4
  /-- `P_FMT_YUV422_10` (R200). -/
  fmtYuv422 : BitVec 4
  /-- `P_TIMING_TABLE` (R42, R205). -/
  timingTable : List TimingEntry
  /-- `P_PCR_LOW_M_DIV` (R165). -/
  pcrLowMDiv : LowMDiv
  /-- `P_TX_PREDIV` (R167). -/
  txPrediv : TxPredivParam
  /-- `P_TX_SERDIV` (R169). -/
  txSerdiv : TxSerdivParam
  /-- `P_STATUS_BITS` (R103). -/
  statusBits : StatusId → StatusBit
  /-- `P_ENC_DESSC` (R105, D47). -/
  encDessc : DesscSetting → WriteList
  /-- `P_ENC_PCR` (R104, D47). -/
  encPcr : PcrSetting → WriteList
  /-- `P_ENC_TXPLL` (R105, D47). -/
  encTxPll : TxPllSetting → WriteList
  /-- `P_SEQ_RXPHY_ON`, a function of `P_LANES` (R75, D46). -/
  seqRxPhyOn : Nat → WriteList
  /-- `P_SEQ_TXPHY_OFF` (D46). -/
  seqTxPhyOff : WriteList
  /-- `P_SEQ_TXSRC_ON` (D46). -/
  seqTxSrcOn : WriteList
  /-- `P_SEQ_TXPLL_REF` (D46). -/
  seqTxPllRef : WriteList
  /-- `P_SEQ_TXPLL_RST` (D46). -/
  seqTxPllRst : WriteList
  /-- `P_SEQ_TXSWRST` (D46). -/
  seqTxSwRst : WriteList
  /-- `P_PCLK_RB` (D29). -/
  pclkRb : PclkRbParam
  /-- `P_MEAS` (D41). -/
  meas : MeasParam
  /-- `P_TXDIG` (D42). -/
  txDig : VideoTiming → WriteList
  /-- `P_LANEPACK` (D40): not read, or one register. -/
  lanepack : Option Reg
  /-- `P_RETRY_CLEAR_ON_FALLBACK` (R245, D23). -/
  retryClearOnFallback : Bool
  /-- `P_VIDCHK_EXHAUST` (R246, D27). -/
  vidchkExhaust : VidchkExhaust
  /-- `P_DELAY_SHORT`, a label (D37). -/
  delayShort : Nat
  /-- `P_DELAY_DEFER`, a label (D37). -/
  delayDefer : Nat
  /-- `P_DELAY_RETRY`, a label (D37). -/
  delayRetry : Nat
deriving Inhabited

/-- How the block uses each symbolic chip register (R75, column "access"). -/
def ChipReg.access (r : ChipReg) : Access :=
  match r with
  | .chipId | .sotCnt0 | .sotCnt1 | .sotCnt2 | .sotCnt3 | .rxBlock | .rxFr | .pcrStatus
  | .vidchkStatus | .pclkRb | .txpllStatus | .meas => .r
  | .bankSel | .rxPhyPwr | .txPhyPwr | .rxHsSettle | .desscDiv | .pcrCoef | .txSrcPwr | .txpllRef
  | .txpllDiv | .txpllRst | .txDig | .txSwrst => .w

/-- How long each symbolic chip register is (R75, column "length"). -/
def Params.regLength (P : Params) (r : ChipReg) : RegLength :=
  match r with
  | .bankSel | .rxHsSettle | .rxFr | .pcrStatus | .vidchkStatus | .txpllStatus => .bytes 1
  | .sotCnt0 | .sotCnt1 | .sotCnt2 | .sotCnt3 => .bytes 2
  | .rxBlock => .bytes 5
  | .chipId => .bytes P.chipId.span.len.toNat
  | .pclkRb => .bytes P.pclkRb.span.len.toNat
  | .meas => .bytes P.meas.span.len.toNat
  | .rxPhyPwr => .list .seqRxPhyOn
  | .txPhyPwr => .list .seqTxPhyOff
  | .desscDiv => .list .encDessc
  | .pcrCoef => .list .encPcr
  | .txSrcPwr => .list .seqTxSrcOn
  | .txpllRef => .list .seqTxPllRef
  | .txpllDiv => .list .encTxPll
  | .txpllRst => .list .seqTxPllRst
  | .txDig => .list .txDig
  | .txSwrst => .list .seqTxSwRst

/-- The contents of a write list that is fixed by the parameters; none for one that encodes a computed value
(R11, R75, D46). -/
def Params.fixedList (P : Params) (l : ListParam) : Option WriteList :=
  match l with
  | .seqRxPhyOn => some (P.seqRxPhyOn P.lanes)
  | .seqTxPhyOff => some P.seqTxPhyOff
  | .seqTxSrcOn => some P.seqTxSrcOn
  | .seqTxPllRef => some P.seqTxPllRef
  | .seqTxPllRst => some P.seqTxPllRst
  | .seqTxSwRst => some P.seqTxSwRst
  | .encDessc | .encPcr | .encTxPll | .txDig => none

/-- `TABLE_LEN` (R9). -/
def tableLen : Nat := 21

/-- `BPP_KNOWN` (R9). -/
def bppKnown : Nat := 13

/-- `BPP_DEFAULT` (R9): the bits per pixel an unknown format is taken to have. -/
def bppDefault : Nat := 24

/-- `STEADY_FMT` (R9). -/
def steadyFmt : BitVec 4 := 0x0a#4

/-- The condition of R167 on `P_TX_PREDIV`. -/
def TxPredivParam.wellFormed (t : TxPredivParam) : Bool :=
  decide (20000 ≤ t.t2 ∧ t.t2 ≤ t.t3 ∧ t.t3 ≤ 320000) && (t.v2 != 0#8 && t.v3 != 0#8 && t.v4 != 0#8)

/-- The condition of R169 on `P_TX_SERDIV`. -/
def TxSerdivParam.wellFormed (t : TxSerdivParam) : Bool :=
  decide (t.s1 ≤ t.s2 ∧ t.s2 ≤ t.s3 ∧ t.s3 ≤ t.s4)
    && (t.w1 != 0#8 && t.w2 != 0#8 && t.w3 != 0#8 && t.w4 != 0#8 && t.w5 != 0#8)

/-- The entry of `P_BPP` for a format code: `none` for an unknown one (R200). -/
def Params.bppEntry (P : Params) (f : BitVec 4) : Option (Nat × Nat) := (P.bpp[f.toNat]?).join

/-- The condition of R200 on `P_BPP`, `P_FMT_RAW10` and `P_FMT_YUV422_10`: 16 entries, 13 of them known,
no zero divisor, three different codes with the three given pairs. -/
def Params.bppWellFormed (P : Params) : Bool :=
  decide (P.bpp.length = 16) && decide ((P.bpp.filter Option.isSome).length = bppKnown)
    && P.bpp.all (fun e => match e with | some r => decide (1 ≤ r.2) | none => true)
    && (P.fmtRaw10 != P.fmtYuv422 && P.fmtRaw10 != steadyFmt && P.fmtYuv422 != steadyFmt)
    && (P.bppEntry steadyFmt == some (1, 3) && P.bppEntry P.fmtRaw10 == some (5, 4)
      && P.bppEntry P.fmtYuv422 == some (5, 2))

/-- A parameter set is well-formed (R167, R169, R200, R205); any other makes every run refused (R310). -/
def Params.wellFormed (P : Params) : Bool :=
  P.txPrediv.wellFormed && P.txSerdiv.wellFormed && P.bppWellFormed
    && decide (P.timingTable.length = tableLen)

end Sys2Proof
end

