-- ==== Sys2Proof/Machine/Operands.lean ====
section
/-! DEFINITION. Forms of data the operations work on: exact arithmetic (R14, R15), byte order of chip fields
(R77), the RX block (R101, R203), write lists (R76), delay and gap labels (R109, R250), stage codes (R32). -/

namespace Sys2Proof.Machine

open Sys2Proof

/-- `|a - b|` on naturals, without wrap (R15). -/
def absDiff (a b : Nat) : Nat := if b ≤ a then a - b else b - a

/-- The number in the bytes of consecutive chip registers, the first at the lowest address (R77). -/
def fieldValue (o : FieldOrder) (bs : List Byte) : Nat :=
  match o with
  | .msbFirst => bs.foldl (fun n b => 256 * n + b.toNat) 0
  | .lsbFirst => bs.foldr (fun b n => b.toNat + 256 * n) 0

/-- Two bytes of consecutive chip registers as a u16, `b0` at the lower address (R77). -/
def u16Of (o : FieldOrder) (b0 b1 : Byte) : U16 := BitVec.ofNat 16 (fieldValue o [b0, b1])

/-- `P_PCLK_RB.assemble`: the pixel clock read back, from its bytes in `P_FIELD_ORDER` (R77, R247, D29). -/
def pclkOf (P : Params) (bs : List Byte) : U32 := P.pclkRb.toKhz (fieldValue P.fieldOrder bs)

/-- `P_MEAS.assemble`: the measured timing, from the bytes of its fields in `P_FIELD_ORDER` (R77, R248, D41). -/
def timingOfMeas (P : Params) (bs : List Byte) : VideoTiming :=
  P.meas.toTiming (P.meas.fields.map fun f =>
    fieldValue P.fieldOrder ((bs.drop f.offset).take f.len))

/-- The RX block: word count, active-line count and format code of 5 bytes (R203, R101, R102). -/
def parseRxBlock (P : Params) (blk : List Byte) : U16 × U16 × BitVec 4 :=
  let l := P.rxBlockLayout
  (u16Of P.fieldOrder (blk.getD l.oWc.val 0) (blk.getD (l.oWc.val + 1) 0),
   u16Of P.fieldOrder (blk.getD l.oVact.val 0) (blk.getD (l.oVact.val + 1) 0),
   (blk.getD l.oFmt.val 0).extractLsb' 0 4)

/-- `a + n - 1 > 0xFF` for a read of `n ≥ 1` registers from `a`: past the last address of the bank
(R79, R146). -/
def bulkWraps (a n : Byte) : Bool := decide (1 ≤ n.toNat ∧ 0xFF < a.toNat + n.toNat - 1)

/-- The length in milliseconds of a delay class, a label only (R250, D37). -/
def delayMs (P : Params) (d : DelayClass) : Nat :=
  match d with
  | .now => 0
  | .short => P.delayShort
  | .defer => P.delayDefer
  | .retry => P.delayRetry

/-- The length of a poll gap: `PCR_POLL_GAP`, `TXLOCK_POLL_GAP`, `VIDCHK_POLL_GAP` (R9, R109, R249,
R348). DESIGN CHOICE (log 34): the "tunable" 500 ms is the constant of R9, not a parameter. -/
def gapMs (g : Gap) : Nat :=
  match g with
  | .none => 0
  | .pcrGap => 500
  | .txlockGap => 20

/-- `RESET_ASSERT` (R9). -/
def resetAssertMs : Nat := 60

/-- `RESET_SETTLE` (R9). -/
def resetSettleMs : Nat := 60

/-- `PCR_POLLS` (R9). -/
def pcrPolls : Byte := 50

/-- `VIDCHK_POLLS` (R9). -/
def vidchkPolls : Byte := 50

/-- `TXLOCK_POLLS` (R9). -/
def txlockPolls : Byte := 4

/-- `RETRY_LIMIT` (R9): the fallback when the counter exceeds it. -/
def retryLimit : Nat := 30

/-- `MIN_ACTIVE` (R9). -/
def minActive : Nat := 400

/-- `FR_TOL` in Hz, inclusive (R9). -/
def frTol : Nat := 3

/-- `REF_DIV` (R9). -/
def refDiv : Nat := 25

/-- `K_SHIFT` (R9). -/
def kShift : Nat := 14

/-- `TX_PIXMUX_FIXED_BELOW` (R9). -/
def txPixmuxFixedBelow : Nat := 150000

/-- The 3-bit code of a stage (R32). -/
def stageCode (st : Stage) : BitVec 3 :=
  match st with
  | .prepare => 0
  | .rxTimingConfig => 1
  | .rxPllConfig => 2
  | .txVideoConfig => 3
  | .txVideoOut => 4

/-- The stage a code names; codes 5, 6 and 7 name none (R32). -/
def stageOfCode (c : BitVec 3) : Option Stage :=
  if c = 0#3 then some .prepare
  else if c = 1#3 then some .rxTimingConfig
  else if c = 2#3 then some .rxPllConfig
  else if c = 3#3 then some .txVideoConfig
  else if c = 4#3 then some .txVideoOut
  else none

/-- The divider `P_PCR_LOW_M_DIV` stands for (R165). -/
def lowMDivValue (d : LowMDiv) : Nat :=
  match d with
  | .div16 => 16
  | .div32 => 32

end Sys2Proof.Machine
end

