-- ==== Sys2Proof/Config.lean ====
section
/-! DEFINITION. What is fixed for one machine and left open by the spec: the chip's answers (R78), the drawn
value of R166, the parameter set (R11). The opaque constants have no body: nothing can be proved of their
values. The fixture is the hypothetical parameter set of 95_test_vectors.md, section 2. -/

namespace Sys2Proof.Config

open Sys2Proof Sys2Proof.Machine

/-! ## The oracle (R78, R140) and the draw (R21, R166) -/

/-- Whether the write of a value to an address completes, given the chip and the run's history: a free
value (R78, log 5). -/
opaque oracleWrite : Nat → List Event → Byte → Byte → Bool

/-- The value a read of an address returns, `none` for `Err`, given the chip and the run's history: a
free value (R78, log 5). -/
opaque oracleRead : Nat → List Event → Byte → Option Byte

/-- A draw: any u32 (R21, R166), a free value of the chip and the draw's number (log 6). -/
opaque drawU32 : Nat → Nat → U32

/-! ## The fixture: HP and HT of 95_test_vectors.md (not a claim about the chip) -/

/-- The filler row `i` of HT (95_test_vectors.md, section 2.2). -/
def htFiller (i : Nat) : TimingEntry :=
  { hfp := 24, hs := 136, hbp := 160, hact := 1024, htotal := 1344, vfp := 3, vs := 6, vbp := 29,
    vact := 768, vtotal := 806, fr := BitVec.ofNat 8 i }

/-- The fixture's timing table HT (95_test_vectors.md, section 2.2). -/
def ht : List TimingEntry :=
  [{ hfp := 88, hs := 44, hbp := 148, hact := 1920, htotal := 2200, vfp := 4, vs := 5, vbp := 36,
     vact := 1080, vtotal := 1125, fr := 60 },
   { hfp := 88, hs := 44, hbp := 148, hact := 1920, htotal := 2200, vfp := 4, vs := 5, vbp := 36,
     vact := 1080, vtotal := 1125, fr := 90 },
   { hfp := 110, hs := 40, hbp := 220, hact := 1280, htotal := 1650, vfp := 5, vs := 5, vbp := 20,
     vact := 720, vtotal := 750, fr := 60 },
   { hfp := 176, hs := 88, hbp := 296, hact := 3840, htotal := 4400, vfp := 8, vs := 10, vbp := 72,
     vact := 2160, vtotal := 2250, fr := 60 }]
  ++ [4, 5, 6, 7, 8, 9, 10, 11, 12, 13, 14, 15, 16, 17, 18, 19, 20].map htFiller

/-- The fixture's register map: only `RX_BLOCK` and the registers other parameters place are given
(95_test_vectors.md, section 2.1). -/
def hpRegMap (r : ChipReg) : Reg :=
  match r with
  | .bankSel => ⟨0x00, 0xFE⟩
  | .chipId => ⟨0x81, 0x00⟩
  | .rxPhyPwr => ⟨0x82, 0x01⟩
  | .txPhyPwr => ⟨0x82, 0x36⟩
  | .sotCnt0 => ⟨0x85, 0x10⟩
  | .sotCnt1 => ⟨0x85, 0x12⟩
  | .sotCnt2 => ⟨0x85, 0x14⟩
  | .sotCnt3 => ⟨0x85, 0x16⟩
  | .rxHsSettle => ⟨0x85, 0x20⟩
  | .rxBlock => ⟨0x85, 0x30⟩
  | .rxFr => ⟨0x85, 0x40⟩
  | .desscDiv => ⟨0xD0, 0x10⟩
  | .pcrCoef => ⟨0xD0, 0x11⟩
  | .pcrStatus => ⟨0xD0, 0x87⟩
  | .vidchkStatus => ⟨0xD0, 0x88⟩
  | .txSrcPwr => ⟨0x82, 0x37⟩
  | .pclkRb => ⟨0x86, 0x08⟩
  | .txpllRef => ⟨0x82, 0x30⟩
  | .txpllDiv => ⟨0x82, 0x31⟩
  | .txpllRst => ⟨0x82, 0x35⟩
  | .txpllStatus => ⟨0x87, 0x39⟩
  | .meas => ⟨0x86, 0x40⟩
  | .txDig => ⟨0x86, 0x50⟩
  | .txSwrst => ⟨0x81, 0x0D⟩

/-- The fixture's four SOT registers. -/
def hpSotRegs (i : Fin 4) : Reg :=
  match i with
  | 0 => ⟨0x85, 0x10⟩
  | 1 => ⟨0x85, 0x12⟩
  | 2 => ⟨0x85, 0x14⟩
  | 3 => ⟨0x85, 0x16⟩

/-- The fixture's status bits. -/
def hpStatusBits (i : StatusId) : StatusBit :=
  match i with
  | .pcrStable => ⟨⟨0xD0, 0x87⟩, 3, true⟩
  | .vidchkStable => ⟨⟨0xD0, 0x88⟩, 0, true⟩
  | .txpllLock => ⟨⟨0x87, 0x39⟩, 7, true⟩

/-- The fixture's encoding of the dessc setting. -/
def hpEncDessc (d : DesscSetting) : WriteList :=
  [⟨0xD0, [(0x10, BitVec.ofNat 8 (d.div.toNat + 128 * d.pre2.toNat))]⟩]

/-- The fixture's encoding of the PCR setting. -/
def hpEncPcr (c : PcrSetting) : WriteList :=
  [⟨0xD0, [(0x11, byteOf c.m 0), (0x12, byteOf c.k 2), (0x13, byteOf c.k 1), (0x14, byteOf c.k 0),
    (0x15, byteOf c.mHi 0), (0x16, byteOf c.mLo 0)]⟩]

/-- The fixture's encoding of the TX PLL setting. -/
def hpEncTxPll (t : TxPllSetting) : WriteList :=
  [⟨0x82, [(0x31, t.preDiv), (0x32, t.serialDiv), (0x33, t.pixDiv), (0x34, t.divreg)]⟩]

/-- The fixture's measured timing: its four fields are u16, the other fields of the timing 0. -/
def hpMeas (ns : List Nat) : VideoTiming :=
  { hfp := 0, hs := 0, hbp := 0, hact := BitVec.ofNat 16 (ns.getD 0 0),
    htotal := BitVec.ofNat 16 (ns.getD 1 0), vfp := 0, vs := 0, vbp := 0,
    vact := BitVec.ofNat 16 (ns.getD 2 0), vtotal := BitVec.ofNat 16 (ns.getD 3 0), fr := 0, pclk := 0 }

/-- The fixture's bpp table: 0x00 to 0x0a 24 bpp, 0x0b RAW10, 0x0c YUV422-10, the rest unknown. -/
def hpBpp : List (Option (Nat × Nat)) :=
  List.replicate 11 (some (1, 3)) ++ [some (5, 4), some (5, 2), none, none, none]

/-- The hypothetical parameter set HP with the table HT (95_test_vectors.md, section 2). -/
def hp : Params :=
  { bankSelAddr := 0xFE, regMap := hpRegMap, fieldOrder := .msbFirst,
    rxBlockLayout := ⟨0, 2, 4⟩, sotRegs := hpSotRegs, hsSettle := ⟨⟨0x85, 0x20⟩, 0x05⟩,
    rxFrReg := ⟨0x85, 0x40⟩, lanes := 0,
    chipId := ⟨⟨0x81, 0x00, 3⟩, [0x12, 0x34, 0x56]⟩,
    bpp := hpBpp, fmtRaw10 := 0x0b, fmtYuv422 := 0x0c, timingTable := ht, pcrLowMDiv := .div16,
    txPrediv := ⟨80000, 160000, 2, 4, 8⟩,
    txSerdiv := ⟨100000, 200000, 400000, 800000, 16, 8, 4, 2, 1⟩,
    statusBits := hpStatusBits, encDessc := hpEncDessc, encPcr := hpEncPcr, encTxPll := hpEncTxPll,
    seqRxPhyOn := fun _ => [⟨0x82, [(0x01, 0x11)]⟩], seqTxPhyOff := [⟨0x82, [(0x36, 0x00)]⟩],
    seqTxSrcOn := [⟨0x82, [(0x37, 0x01)]⟩], seqTxPllRef := [⟨0x82, [(0x30, 0x00)]⟩],
    seqTxPllRst := [⟨0x82, [(0x35, 0x00), (0x35, 0x01)]⟩],
    seqTxSwRst := [⟨0x81, [(0x0d, 0xfb), (0x0d, 0xff)]⟩],
    pclkRb := ⟨⟨0x86, 0x08, 3⟩, BitVec.ofNat 32⟩,
    meas := ⟨⟨0x86, 0x40, 8⟩, [⟨0, 2⟩, ⟨2, 2⟩, ⟨4, 2⟩, ⟨6, 2⟩], hpMeas⟩,
    txDig := fun _ => [⟨0x86, [(0x50, 0x01)]⟩], lanepack := none, retryClearOnFallback := true,
    vidchkExhaust := .advance, delayShort := 0, delayDefer := 0, delayRetry := 0 }

/-! ## The machine's own parameter set -/

/-- What the model assumes of the machine's own parameters beyond well-formedness (log 8): the register
runs its stages read stay inside a bank, and the source's own example, 1920x1080 at 60 Hz with a pixel
clock of 148500 kHz (95_test_vectors.md S1, S2, S5), can be reported by the chip and is in the table. -/
structure Usable (P : Params) : Prop where
  chipIdFits : bulkWraps P.chipId.span.addr P.chipId.span.len = false
  sotFits : ∀ i, bulkWraps (P.sotRegs i).addr 2 = false
  rxBlockFits : bulkWraps (P.regMap .rxBlock).addr 5 = false
  pclkRbFits : bulkWraps P.pclkRb.span.addr P.pclkRb.span.len = false
  measFits : bulkWraps P.meas.span.addr P.meas.span.len = false
  blockReports : ∃ blk : List Byte, blk.length = 5 ∧ parseRxBlock P blk = (5760#16, 1080#16, steadyFmt)
  readbackReports : ∃ bs : List Byte,
    bs.length = P.pclkRb.span.len.toNat ∧ pclkOf P bs = 148500#32
  tableHas : ∃ e : TimingEntry, e.htotal.toNat * e.vtotal.toNat * e.fr.toNat < 4294967296 ∧
    P.timingTable.find? (fun t => decide (t.hact = 1920#16 ∧ t.vact = 1080#16
      ∧ absDiff t.fr.toNat 60 ≤ frTol)) = some e

/-- A well-formed, usable parameter set. -/
structure Checked where
  params : Params
  wellFormed : params.wellFormed = true
  usable : Usable params

/-- The fixture is well-formed. -/
theorem hp_wellFormed : hp.wellFormed = true := by decide

/-- The fixture is usable. -/
theorem hp_usable : Usable hp where
  chipIdFits := by decide
  sotFits := by decide
  rxBlockFits := by decide
  pclkRbFits := by decide
  measFits := by decide
  blockReports := ⟨[0x16, 0x80, 0x04, 0x38, 0x0a], by decide⟩
  readbackReports := ⟨[0x02, 0x44, 0x14], by decide⟩
  tableHas := ⟨ht.headD default, by decide⟩

/-- The parameter set supplied for this machine, if one is: an OPEN parameter of R11 has no value in the
spec, so nothing is known of it (log 7). -/
opaque supplied : Option Checked

/-- The machine's parameters: the supplied set, or the fixture when none is supplied. Nothing can tell
which, so a claim about them holds for every well-formed, usable set (log 7). -/
def checked : Checked := supplied.getD ⟨hp, hp_wellFormed, hp_usable⟩

/-- The parameters of the machine `exec` and `step` describe. -/
def P : Params := checked.params

/-- The machine's parameters are well-formed: `BadParameter` (R310) is settled before the run starts. -/
theorem P_wellFormed : P.wellFormed = true := checked.wellFormed

/-- The machine's parameters are usable. -/
theorem P_usable : Usable P := checked.usable

end Sys2Proof.Config
end

