-- ==== Sys2Proof/Machine/State.lean ====
section
/-! DEFINITION. The state of one block instance (10_state.md), the faults (R309), the refusals (R310), and the
state after reset (R340). -/

namespace Sys2Proof.Machine

open Sys2Proof

/-- The faults of R309: they end the run and no state after them exists. Each is safe: a claim about a next
state says nothing of a run that stops here. -/
inductive Fault where
  /-- Raised by TX_DIVREG and COMPUTE_TX_PLL, and by TxVideoConfig on a readback of 0 (R171, R309). Safe. -/
  | divZero
  /-- Raised by INVOKE on a stage code 5, 6 or 7 (R251, R309). Safe. -/
  | badStage
  /-- Raised by RxPllConfig with no selected timing (R246, R309). Safe. -/
  | noTiming
deriving DecidableEq, Repr

/-- The refusals of R310, and the rejection by name of an operation without a meaning. Each is safe. -/
inductive Refusal where
  /-- Raised by `exec` for an operation that has no meaning yet. Safe. -/
  | notModelled (mnemonic : String)
  /-- Raised where a product is at or above 2^32 (R160, R310). Safe. -/
  | overflow
  /-- Raised by ACTIVE_WIDTH for a width at or above 2^16 (R201, R310). Safe. -/
  | widthOverflow
  /-- Raised by a bulk read past address 0xFF (R146, R310). Safe. -/
  | bulkWrap
  /-- Raised by an operation on a detached context (R116, R140, R310). Safe. -/
  | detachedContext
  /-- Raised by an operation that needs a context before there is one (R252 to R256, R310, R31). Safe. -/
  | notConstructed
  /-- Raised by ATTACH while a live context exists (R253, R310). Safe. -/
  | alreadyConstructed
  /-- Raised by the step on an unassigned opcode (R111, R310). Safe. -/
  | illegal
  /-- Raised by the step on a word with too few bytes (R111, R310). Safe. -/
  | truncated
  /-- Raised by the step on a reserved operand value (R112, R310). Safe. -/
  | reserved
  /-- Raised by `stepWith` for a parameter set that is not well-formed (R310). Safe. -/
  | badParameter
deriving DecidableEq, Repr

/-- An answer of a scripted oracle (R78): the transaction completes, a read with the value `v`, or it
returns `Err`. A write has no use for `v`. -/
inductive Answer where
  | ok (v : Byte)
  | err
deriving DecidableEq, Repr, Inhabited

/-- The value an operation returns (the Result of each operation rule). -/
inductive Value where
  | unit
  | bool (b : Bool)
  | u8 (v : Byte)
  | u16 (v : U16)
  | u32 (v : U32)
  | bytes (l : List Byte)
  | ratio (mul div : Nat)
  | dessc (d : DesscSetting)
  | pcr (d : DesscSetting) (c : PcrSetting)
  | txpll (t : TxPllSetting)
  | desc (d : RxVideoDescriptor)
  | mode (index : Nat) (entry : TimingEntry)
  | stageEnd (e : StageEnd)
deriving DecidableEq, Repr, Inhabited

/-- The result of a command (R19, R259, R260): a value or a failure. -/
inductive Result where
  | ok (v : Value)
  | fail (e : ErrCode)
deriving DecidableEq, Repr, Inhabited

/-- The context record of R30. -/
structure Ctx where
  stage : BitVec 3
  retry : U32
  desc : RxVideoDescriptor
  sel : VideoTiming
  selValid : Bool
  dsc : DesscSetting
  pcr : PcrSetting
  pclkRb : U32
  txpll : TxPllSetting
  live : VideoTiming
  pending : Bool
  detached : Bool
  steady : Bool
  err : Byte
  accessCount : Nat
deriving DecidableEq, Repr, Inhabited

/-- One block instance: its context (R30, R31), the run's history (R20) and results (R260), and the model's
own inputs: the words still to run (log 1), the scripted answers (log 5), the draw counter (log 6), the
chip the instance drives (log 19). -/
structure State where
  chip : Nat
  constructed : Bool
  ctx : Ctx
  history : List Event
  results : List Result
  program : List Byte
  script : List Answer
  draws : Nat
deriving DecidableEq, Repr, Inhabited

/-- The all-zero descriptor (R36, R340). -/
def RxVideoDescriptor.zero : RxVideoDescriptor :=
  { wc := 0, vact := 0, hact := 0, fmt := 0, lanepack := 0, fr := 0 }

/-- The all-zero timing (R340). -/
def VideoTiming.zero : VideoTiming :=
  { hfp := 0, hs := 0, hbp := 0, hact := 0, htotal := 0, vfp := 0, vs := 0, vbp := 0, vact := 0,
    vtotal := 0, fr := 0, pclk := 0 }

/-- The reset record of R340: what ATTACH constructs. -/
def Ctx.reset : Ctx :=
  { stage := 0, retry := 0, desc := RxVideoDescriptor.zero, sel := VideoTiming.zero,
    selValid := false, dsc := { div := 0, pre2 := 0 }, pcr := { m := 0, k := 0, mHi := 0, mLo := 0 },
    pclkRb := 0, txpll := { preDiv := 0, serialDiv := 0, pixDiv := 0, divreg := 0 },
    live := VideoTiming.zero, pending := false, detached := false, steady := false, err := 0,
    accessCount := 0 }

/-- Before construction: no context exists (R31). A host program that begins with ATTACH starts here
(95_test_vectors.md, section 4). -/
def State.unconstructed : State :=
  { chip := 0, constructed := false, ctx := Ctx.reset, history := [], results := [], program := [],
    script := [], draws := 0 }

/-- The state after reset. The block's reset is construction (R340): the state ATTACH leaves when its three
conditions hold, with the reset record, the event it emits and its result (log 2). -/
def State.reset : State :=
  { State.unconstructed with constructed := true, history := [.dsiAttach], results := [.ok .unit] }

end Sys2Proof.Machine
end

