-- ==== Sys2Proof/Machine/Ops.lean ====
section
/-! DEFINITION. The shared operations: outcomes (R19), updates of the state, bus transactions (R140), how an
operation ends a step (R258, R260), and taking a failure (R245, R250, R257). -/

namespace Sys2Proof.Machine

open Sys2Proof

/-! ## Updates of the state -/

/-- `emit(ev)`: appends an event to the history (R20). -/
def State.emit (e : Event) (s : State) : State := { s with history := s.history ++ [e] }

/-- Appends the result of a command (R260). -/
def State.record (r : Result) (s : State) : State := { s with results := s.results ++ [r] }

/-- Changes fields of the context. -/
def State.modCtx (f : Ctx → Ctx) (s : State) : State := { s with ctx := f s.ctx }

/-- Moves past an operation word: the words after it are left to run (log 1). -/
def State.advance (rest : List Byte) (s : State) : State := { s with program := rest }

/-- A live context: constructed and not detached (R259). -/
def State.live (s : State) : Bool := s.constructed && !s.ctx.detached

/-! ## Outcomes of an operation (R19) -/

/-- The four outcomes of R19. -/
inductive Out (α : Type) where
  | ok (v : α)
  | fail (e : ErrCode)
  | fault (f : Fault)
  | refuse (q : Refusal)
deriving DecidableEq, Repr

/-- The first outcome that is not `ok` is the outcome of the whole (R313). -/
def Out.bind {α β : Type} (o : Out α) (f : α → Out β) : Out β :=
  match o with
  | .ok v => f v
  | .fail e => .fail e
  | .fault x => .fault x
  | .refuse q => .refuse q

/-- An operation: an outcome and the state as its last completed step left it (R258, R318). -/
def Op (α : Type) : Type := State → Out α × State

/-- The operation that does nothing and returns `v`. -/
def Op.pure {α : Type} (v : α) : Op α := fun s => (.ok v, s)

/-- The outcome `o`, with no effect on the state. -/
def Op.lift {α : Type} (o : Out α) : Op α := fun s => (o, s)

/-- `x`, then `f` of its value. Any other outcome of `x` is the outcome of the whole (R311, R313). -/
def Op.bind {α β : Type} (x : Op α) (f : α → Op β) : Op β := fun s =>
  match x s with
  | (.ok v, s') => f v s'
  | (.fail e, s') => (.fail e, s')
  | (.fault t, s') => (.fault t, s')
  | (.refuse q, s') => (.refuse q, s')

/-- `x`, then `y`. -/
def Op.andThen {α β : Type} (x : Op α) (y : Op β) : Op β := Op.bind x fun _ => y

/-- A change of the state that cannot fail. -/
def Op.update (f : State → State) : Op Unit := fun s => (.ok (), f s)

/-- A change of context fields. -/
def Op.modCtx (f : Ctx → Ctx) : Op Unit := Op.update (State.modCtx f)

/-- The context as it is now. -/
def Op.getCtx : Op Ctx := fun s => (.ok s.ctx, s)

/-- Emits an event (R20). -/
def Op.emit (e : Event) : Op Unit := Op.update (State.emit e)

/-- `draw_u32()` (R21, R166): a free value, a fresh one for each draw (log 6). -/
def Op.drawU32 : Op U32 := fun s =>
  (.ok (Config.drawU32 s.chip s.draws), { s with draws := s.draws + 1 })

/-! ## Bus transactions (R140) and operations made of them -/

/-- A transport operation: its only failure is `TransportError`, written `none` (R141). -/
def BusOp (α : Type) : Type := State → Option α × State

/-- The transport operation that issues no transaction. -/
def BusOp.pure {α : Type} (v : α) : BusOp α := fun s => (some v, s)

/-- `x`, then `f` of its value; after an `Err` no further transaction is issued (R141). -/
def BusOp.bind {α β : Type} (x : BusOp α) (f : α → BusOp β) : BusOp β := fun s =>
  match x s with
  | (some v, s') => f v s'
  | (none, s') => (none, s')

/-- `x`, then `y`. -/
def BusOp.andThen {α β : Type} (x : BusOp α) (y : BusOp β) : BusOp β := BusOp.bind x fun _ => y

/-- Emits an event between transactions (the waits of a poll, R249). -/
def BusOp.emit (e : Event) : BusOp Unit := fun s => (some (), s.emit e)

/-- The oracle's answer to a write: the next answer of the script, and once the script is used up the
chip's own (R78, log 5). -/
def oracleWrite (s : State) (a v : Byte) : Bool :=
  match s.script with
  | .ok _ :: _ => true
  | .err :: _ => false
  | [] => Config.oracleWrite s.chip s.history a v

/-- The oracle's answer to a read, as for a write (R78, log 5). -/
def oracleRead (s : State) (a : Byte) : Option Byte :=
  match s.script with
  | .ok v :: _ => some v
  | .err :: _ => none
  | [] => Config.oracleRead s.chip s.history a

/-- A bus transaction is counted, recorded in the history and uses up one answer; it has no other effect,
and one that returns `Err` is counted and recorded as well (R140). -/
def State.transact (e : Event) (s : State) : State :=
  { s with ctx := { s.ctx with accessCount := s.ctx.accessCount + 1 },
           history := s.history ++ [e], script := s.script.tail }

/-- `BusWrite(a, v)` (R140). That the context is not detached is checked where the operation begins, since
no step of an operation detaches it (log 12, log 33). -/
def busWrite (a v : Byte) : BusOp Unit := fun s =>
  let ok := oracleWrite s a v
  (if ok then some () else none, s.transact (.busW a v ok))

/-- `BusRead(a)` (R140, log 12). -/
def busRead (a : Byte) : BusOp Byte := fun s =>
  let r := oracleRead s a
  (r, s.transact (.busR a r))

/-- A transport operation inside another operation: `Err` raises `TransportError` (R141). -/
def Op.ofBus {α : Type} (x : BusOp α) : Op α := fun s =>
  match x s with
  | (some v, s') => (.ok v, s')
  | (none, s') => (.fail .transportError, s')

/-! ## How an operation ends a step -/

/-- The end of a transport operation run by itself: its value or `fail(TransportError)` is the command's
result, and the run goes on (R141, R260). -/
def finishBus {α : Type} (val : α → Value) (r : Option α × State) : State :=
  r.2.record (match r.1 with
    | some v => .ok (val v)
    | none => .fail .transportError)

/-- The end of an operation: a value or a failure is the command's result and the run goes on; a fault or a
refusal ends it (R19, R258, R260). -/
def finish {α : Type} (val : α → Value) (r : Out α × State) : Host.Outcome State Fault Refusal :=
  match r.1 with
  | .ok v => .next (r.2.record (.ok (val v)))
  | .fail e => .next (r.2.record (.fail e))
  | .fault f => .fault f
  | .refuse q => .refused q

/-- The end of an operation that only computes (R174): the state is as before. -/
def finishPure {α : Type} (val : α → Value) (o : Out α) (s : State) :
    Host.Outcome State Fault Refusal :=
  finish val (o, s)

/-! ## Which contexts an operation has a meaning on -/

/-- Operations that work on the context: refused before there is one (R31, log 4) and after it is detached
(R116, R310). DESIGN CHOICE (log 33): this comes before every check of the operation's own pseudocode, where R313
read with that pseudocode could name another stop. -/
def onContext (s : State) (k : Host.Outcome State Fault Refusal) : Host.Outcome State Fault Refusal :=
  if s.constructed = false then .refused .notConstructed
  else if s.ctx.detached = true then .refused .detachedContext
  else k

/-- Operations that read no context field: refused on a detached context only (R116, R174, log 4), before
any stop of their own (log 33). -/
def unlessDetached (s : State) (k : Host.Outcome State Fault Refusal) :
    Host.Outcome State Fault Refusal :=
  if s.constructed = true ∧ s.ctx.detached = true then .refused .detachedContext else k

/-! ## Taking a failure -/

/-- `SCHEDULE d`: makes one deferred invocation pending; nothing when one is already (R250, R43). -/
def schedule (P : Params) (d : DelayClass) (s : State) : State :=
  if s.ctx.pending then s
  else (s.modCtx fun c => { c with pending := true }).emit (.sched d (delayMs P d))

/-- Records a failure code in `ctx.err` (R300, R312). -/
def setErr (e : ErrCode) (s : State) : State := s.modCtx fun c => { c with err := e.code }

/-- Moves the control point to a stage (R33, R240). -/
def setStage (st : Stage) (s : State) : State := s.modCtx fun c => { c with stage := stageCode st }

/-- `RETRY_UPDATE k, e`: the retry-counter step of an RxTimingConfig failure: increment, apply the hint,
compare, record the code, schedule `short` (R245). -/
def retryUpdate (P : Params) (k : Bool) (e : ErrCode) (s : State) : State :=
  let counted : U32 := if k then 0 else s.ctx.retry + 1
  let fallback : Bool := decide (retryLimit < counted.toNat)
  let retry' : U32 := if fallback && P.retryClearOnFallback then 0 else counted
  let s1 := s.modCtx fun c => { c with retry := retry' }
  let s2 := if fallback then setStage .prepare s1 else s1
  schedule P .short (setErr e s2)

/-- Taking a transport error at the controller boundary: record it and schedule `defer`; the stage, the retry
counter and every other field stay as the stage left them (R257). -/
def deferTransportError (P : Params) (s : State) : State :=
  schedule P .defer (setErr .transportError s)

end Sys2Proof.Machine
end

