-- ==== Sys2Proof/Machine/Calculator.lean ====
section
/-! DEFINITION. The clock and PLL calculator (42_calculator.md): pure functions of the operands and the
parameters (R174). -/

namespace Sys2Proof.Machine

open Sys2Proof

/-- A product, refused when it is at or above 2^32 (R160). -/
def mul32 (a b : Nat) : Out Nat := if 4294967296 ≤ a * b then .refuse .overflow else .ok (a * b)

/-- `PCR_BAND p`: the dessc divider and the prescaler flag (R161). -/
def pcrBand (p : U32) : DesscSetting :=
  if 352000 ≤ p.toNat then { div := 2, pre2 := 0 }
  else if 176000 ≤ p.toNat then { div := 2, pre2 := 0 }
  else if 88000 ≤ p.toNat then { div := 4, pre2 := 0 }
  else if 44000 ≤ p.toNat then { div := 8, pre2 := 0 }
  else if 22000 ≤ p.toNat then { div := 16, pre2 := 0 }
  else { div := 16, pre2 := 1 }

/-- The divider of M: the band's, or `P_PCR_LOW_M_DIV` where the prescaler is on (R162, R165). -/
def pcrMDiv (P : Params) (d : DesscSetting) : Nat :=
  if d.pre2 = 1#1 then lowMDivValue P.pcrLowMDiv else d.div.toNat

/-- `M_lo`: `M - 1`, and a draw when M is 0 (R166). -/
def pcrMLo (m : Nat) : Op U32 :=
  if 1 ≤ m then Op.pure (BitVec.ofNat 32 (m - 1)) else Op.drawU32

/-- `COMPUTE_PCR p` (R162). -/
def computePcr (P : Params) (p : U32) : Op (DesscSetting × PcrSetting) :=
  let d := pcrBand p
  (Op.lift (mul32 p.toNat (pcrMDiv P d))).bind fun t =>
    let mFull := t / refDiv
    let k : BitVec 24 := BitVec.ofNat 24 ((mFull % 1000) * 2 ^ kShift)
    let m := mFull / 1000
    (pcrMLo m).bind fun lo =>
      Op.pure (d, { m := BitVec.ofNat 32 m, k := k, mHi := BitVec.ofNat 32 (m + 1), mLo := lo })

/-- `TX_PREDIV p` (R167). -/
def txPrediv (P : Params) (p : U32) : Byte :=
  if p.toNat < 20000 then 1
  else if p.toNat < P.txPrediv.t2 then P.txPrediv.v2
  else if p.toNat < P.txPrediv.t3 then P.txPrediv.v3
  else if p.toNat < 320000 then P.txPrediv.v4
  else 16

/-- `TX_PHYCLK p` (R168). -/
def txPhyclk (p : U32) : Out U32 :=
  (mul32 p.toNat 7).bind fun t => .ok (BitVec.ofNat 32 (t / 2))

/-- `TX_SERDIV phy` (R169). -/
def txSerdiv (P : Params) (phy : U32) : Byte :=
  if phy.toNat < P.txSerdiv.s1 then P.txSerdiv.w1
  else if phy.toNat < P.txSerdiv.s2 then P.txSerdiv.w2
  else if phy.toNat < P.txSerdiv.s3 then P.txSerdiv.w3
  else if phy.toNat < P.txSerdiv.s4 then P.txSerdiv.w4
  else P.txSerdiv.w5

/-- The bucket of a clock ratio (R170). -/
def pixBucket (r : Nat) : Byte :=
  if r ≤ 2 then 7 else if r ≤ 4 then 14 else if r ≤ 8 then 28 else 56

/-- `TX_PIXMUX p, sd` (R170). -/
def txPixmux (p : U32) (sd : Byte) : Out Byte :=
  if p.toNat < txPixmuxFixedBelow then .ok 7
  else (txPhyclk p).bind fun phy =>
    (mul32 phy.toNat sd.toNat).bind fun t1 =>
      (mul32 t1 2).bind fun t2 => .ok (pixBucket (t2 / (p.toNat * 7)))

/-- `TX_DIVREG p, q, sd` (R171). -/
def txDivreg (p : U32) (q sd : Byte) : Out Byte :=
  (txPhyclk p).bind fun phy =>
    if q = 0#8 then .fault .divZero
    else if p.toNat / q.toNat = 0 then .fault .divZero
    else (mul32 phy.toNat sd.toNat).bind fun t =>
      .ok (BitVec.ofNat 8 (t / (p.toNat / q.toNat)))

/-- `COMPUTE_TX_PLL p` (R172). -/
def computeTxPll (P : Params) (p : U32) : Out TxPllSetting :=
  let q := txPrediv P p
  (txPhyclk p).bind fun phy =>
    let sd := txSerdiv P phy
    (txPixmux p sd).bind fun x =>
      (txDivreg p q sd).bind fun dr =>
        .ok { preDiv := q, serialDiv := sd, pixDiv := x, divreg := dr }

/-- `PCLK_OF_TIMING ht, vt, fr` (R173). -/
def pclkOfTiming (ht vt : U16) (fr : Byte) : Out U32 :=
  (mul32 ht.toNat vt.toNat).bind fun t1 =>
    (mul32 t1 fr.toNat).bind fun t2 => .ok (BitVec.ofNat 32 (t2 / 1000))

/-! ## The operations run by themselves -/

/-- PCR_BAND (R161). -/
def execPcrBand (p : U32) (s : State) : Host.Outcome State Fault Refusal :=
  unlessDetached s (finishPure .dessc (.ok (pcrBand p)) s)

/-- COMPUTE_PCR with the parameters `P` (R162). -/
def runComputePcr (P : Params) (p : U32) (s : State) : Host.Outcome State Fault Refusal :=
  unlessDetached s (finish (fun r => .pcr r.1 r.2) (computePcr P p s))

/-- COMPUTE_PCR (R162). -/
def execComputePcr (p : U32) (s : State) : Host.Outcome State Fault Refusal :=
  runComputePcr Config.P p s

/-- TX_PREDIV with the parameters `P` (R167). -/
def runTxPrediv (P : Params) (p : U32) (s : State) : Host.Outcome State Fault Refusal :=
  unlessDetached s (finishPure .u8 (.ok (txPrediv P p)) s)

/-- TX_PREDIV (R167). -/
def execTxPrediv (p : U32) (s : State) : Host.Outcome State Fault Refusal :=
  runTxPrediv Config.P p s

/-- TX_PHYCLK (R168). -/
def execTxPhyclk (p : U32) (s : State) : Host.Outcome State Fault Refusal :=
  unlessDetached s (finishPure .u32 (txPhyclk p) s)

/-- TX_SERDIV with the parameters `P` (R169). -/
def runTxSerdiv (P : Params) (phy : U32) (s : State) : Host.Outcome State Fault Refusal :=
  unlessDetached s (finishPure .u8 (.ok (txSerdiv P phy)) s)

/-- TX_SERDIV (R169). -/
def execTxSerdiv (phy : U32) (s : State) : Host.Outcome State Fault Refusal :=
  runTxSerdiv Config.P phy s

/-- TX_PIXMUX (R170). -/
def execTxPixmux (p : U32) (sd : Byte) (s : State) : Host.Outcome State Fault Refusal :=
  unlessDetached s (finishPure .u8 (txPixmux p sd) s)

/-- TX_DIVREG (R171). -/
def execTxDivreg (p : U32) (q sd : Byte) (s : State) : Host.Outcome State Fault Refusal :=
  unlessDetached s (finishPure .u8 (txDivreg p q sd) s)

/-- COMPUTE_TX_PLL with the parameters `P` (R172). -/
def runComputeTxPll (P : Params) (p : U32) (s : State) : Host.Outcome State Fault Refusal :=
  unlessDetached s (finishPure .txpll (computeTxPll P p) s)

/-- COMPUTE_TX_PLL (R172). -/
def execComputeTxPll (p : U32) (s : State) : Host.Outcome State Fault Refusal :=
  runComputeTxPll Config.P p s

/-- PCLK_OF_TIMING (R173). -/
def execPclkOfTiming (ht vt : U16) (fr : Byte) (s : State) :
    Host.Outcome State Fault Refusal :=
  unlessDetached s (finishPure .u32 (pclkOfTiming ht vt fr) s)

end Sys2Proof.Machine
end

