-- ==== Sys2Proof/Machine/Flags.lean ====
section
/-! DEFINITION. The block has no condition codes or arithmetic flags (R47). Its tests of status are here: the
chip's status bits (R103), the steady-format hint (R48), and what the history tells of the state the platform
and the chip hold (R50, R51, R73, R90). -/

namespace Sys2Proof.Machine

open Sys2Proof

/-- The status bit is read set: bit `bit` of the byte equals `level` (R103). -/
def statusSet (sb : StatusBit) (v : Byte) : Bool := v.getLsbD sb.bit.val == sb.level

/-- The steady-format hint: the format code of the failed attempt is `STEADY_FMT` (R48, R244). -/
def steadyFormat (d : RxVideoDescriptor) : Bool := d.fmt == steadyFmt

/-- The chip's selected bank after one more event: a write to the bank-select register selects, a reset
edge leaves the bank undefined (R72, R73, R90). -/
def bankAfter (P : Params) (bank : Option Byte) (e : Event) : Option Byte :=
  match e with
  | .busW a v _ => if a = P.bankSelAddr then some v else bank
  | .reset _ => none
  | _ => bank

/-- The chip's selected bank: the value of the most recent bank-select write after the most recent chip
reset (R73, R50 (c), log 21). -/
def Hist.bank (P : Params) (h : List Event) : Option Byte := h.foldl (bankAfter P) none

/-- The logical location of a transaction on address `a` after the history `h` (R73); none where R73 gives
none, and for the bank-select register, which is reached whatever bank is selected (R72). -/
def Hist.location (P : Params) (h : List Event) (a : Byte) : Option Reg :=
  if a = P.bankSelAddr then none else (Hist.bank P h).map fun b => ⟨b, a⟩

/-- One event has a logical location when the bank is `bank`: it is no transaction, or it is on the
bank-select register, or some bank is selected (R73). -/
def eventLocated (P : Params) (bank : Option Byte) (e : Event) : Bool :=
  match e with
  | .busW a _ _ => a == P.bankSelAddr || bank.isSome
  | .busR a _ => a == P.bankSelAddr || bank.isSome
  | _ => true

/-- Every transaction of the events `h` that follow a state with bank `bank` has a logical location. -/
def locatedFrom (P : Params) (bank : Option Byte) (h : List Event) : Bool :=
  match h with
  | [] => true
  | e :: es => eventLocated P bank e && locatedFrom P (bankAfter P bank e) es

/-- Every transaction of the history has a logical location (R73, R84, R345). -/
def Hist.located (P : Params) (h : List Event) : Bool := locatedFrom P none h

/-- The level of the platform's reset line: its last edge, none before the first (R51, log 25). -/
def Hist.resetLine (h : List Event) : Option ResetEdge :=
  h.foldl (fun l e => match e with | .reset x => some x | _ => l) none

/-- The upstream DSI host is attached: the last of its events is an attachment (R51, R321). -/
def Hist.dsiAttached (h : List Event) : Bool :=
  h.foldl (fun b e => match e with | .dsiAttach => true | .dsiRelease => false | _ => b) false

/-- The transactions of the present context: those after the latest construction (R45, R140). -/
def Hist.accesses (h : List Event) : Nat :=
  h.foldl (fun n e => match e with | .dsiAttach => 0 | _ => if e.isBus then n + 1 else n) 0

end Sys2Proof.Machine
end

