-- ==== Sys2Proof/Machine/Transport.lean ====
section
/-! DEFINITION. The register transport (41_transport.md): BANKSEL, WR, WRSEQ, RD, RDBULK, and the forms other
operations use them in. -/

namespace Sys2Proof.Machine

open Sys2Proof

/-- `BANKSEL b` (R142): the write is issued whatever bank is selected. -/
def bankSel (P : Params) (b : Byte) : BusOp Unit := busWrite P.bankSelAddr b

/-- `WR b, a, v` (R143). -/
def wr (P : Params) (b a v : Byte) : BusOp Unit := (bankSel P b).andThen (busWrite a v)

/-- The writes of a list, in order, none coalesced, up to the first `Err` (R144, R83). -/
def writeAll (ps : List (Byte × Byte)) : BusOp Unit :=
  match ps with
  | [] => BusOp.pure ()
  | p :: rest => (busWrite p.1 p.2).andThen (writeAll rest)

/-- `WRSEQ b, ps` (R144). -/
def wrSeq (P : Params) (b : Byte) (ps : List (Byte × Byte)) : BusOp Unit :=
  (bankSel P b).andThen (writeAll ps)

/-- `RD b, a` (R145). -/
def rd (P : Params) (b a : Byte) : BusOp Byte := (bankSel P b).andThen (busRead a)

/-- Reads of `n` consecutive addresses from `a`, one transaction for each (R79, R146). -/
def readAll (a : Byte) (n : Nat) : BusOp (List Byte) :=
  match n with
  | 0 => BusOp.pure []
  | m + 1 => (busRead a).bind fun v => (readAll (a + 1) m).bind fun vs => BusOp.pure (v :: vs)

/-- The transactions of `RDBULK b, a, n` (R146), once the range is known not to wrap. -/
def rdBulk (P : Params) (b a n : Byte) : BusOp (List Byte) :=
  (bankSel P b).andThen (readAll a n.toNat)

/-- `RDBULK b, a, n` inside another operation: refused before any transaction when it would pass 0xFF
(R146). -/
def rdBulkOp (P : Params) (b a n : Byte) : Op (List Byte) :=
  if bulkWraps a n then Op.lift (.refuse .bulkWrap) else Op.ofBus (rdBulk P b a n)

/-- `WRLIST L`: one WRSEQ for each group, in list order (R76, R115, R351). -/
def wrList (P : Params) (l : WriteList) : BusOp Unit :=
  match l with
  | [] => BusOp.pure ()
  | g :: rest => (wrSeq P g.bank g.entries).andThen (wrList P rest)

/-! ## The operations run by themselves -/

/-- BANKSEL with the parameters `P` (R142). -/
def runBanksel (P : Params) (b : Byte) (s : State) : Host.Outcome State Fault Refusal :=
  onContext s (.next (finishBus (fun _ => .unit) (bankSel P b s)))

/-- BANKSEL (R142). -/
def execBanksel (b : Byte) (s : State) : Host.Outcome State Fault Refusal :=
  runBanksel Config.P b s

/-- WR with the parameters `P` (R143). -/
def runWr (P : Params) (b a v : Byte) (s : State) : Host.Outcome State Fault Refusal :=
  onContext s (.next (finishBus (fun _ => .unit) (wr P b a v s)))

/-- WR (R143). -/
def execWr (b a v : Byte) (s : State) : Host.Outcome State Fault Refusal :=
  runWr Config.P b a v s

/-- WRSEQ with the parameters `P` (R144). -/
def runWrseq (P : Params) (b : Byte) (ps : List (Byte × Byte)) (s : State) :
    Host.Outcome State Fault Refusal :=
  onContext s (.next (finishBus (fun _ => .unit) (wrSeq P b ps s)))

/-- WRSEQ (R144). -/
def execWrseq (b : Byte) (ps : List (Byte × Byte)) (s : State) :
    Host.Outcome State Fault Refusal :=
  runWrseq Config.P b ps s

/-- RD with the parameters `P` (R145). -/
def runRd (P : Params) (b a : Byte) (s : State) : Host.Outcome State Fault Refusal :=
  onContext s (.next (finishBus .u8 (rd P b a s)))

/-- RD (R145). -/
def execRd (b a : Byte) (s : State) : Host.Outcome State Fault Refusal :=
  runRd Config.P b a s

/-- RDBULK with the parameters `P` (R146): a run past 0xFF is refused before any transaction. DESIGN CHOICE
(log 33): on a detached context (R116) such a run is refused as `detachedContext`, not as `bulkWrap`. -/
def runRdbulk (P : Params) (b a n : Byte) (s : State) : Host.Outcome State Fault Refusal :=
  onContext s
    (if bulkWraps a n then .refused .bulkWrap else .next (finishBus .bytes (rdBulk P b a n s)))

/-- RDBULK (R146). -/
def execRdbulk (b a n : Byte) (s : State) : Host.Outcome State Fault Refusal :=
  runRdbulk Config.P b a n s

end Sys2Proof.Machine
end

