-- ==== Sys2Proof/Machine/Detector.lean ====
section
/-! DEFINITION. The RX timing detector and the timing-table lookup (43_detector.md). -/

namespace Sys2Proof.Machine

open Sys2Proof

/-- `BPP_LOOKUP f`: the ratio (mul, div) of a format code, `(1, 3)` for an unknown one (R200). -/
def bppLookup (P : Params) (f : BitVec 4) : Nat × Nat := (P.bppEntry f).getD (1, 3)

/-- `ACTIVE_WIDTH wc, f`: multiply, then divide (R201, R206). -/
def activeWidth (P : Params) (wc : U16) (f : BitVec 4) : Out U16 :=
  (mul32 wc.toNat (bppLookup P f).1).bind fun t =>
    let w := t / (bppLookup P f).2
    if 65536 ≤ w then .refuse .widthOverflow else .ok (BitVec.ofNat 16 w)

/-- `VIDEO_CHECK w, h` (R202). -/
def videoCheck (w h : U16) : Out Unit :=
  if w.toNat < minActive ∨ h.toNat < minActive then .fail .noVideo else .ok ()

/-- A table entry matches the observed size and rate (R205). -/
def modeMatches (w h : U16) (r : Byte) (e : TimingEntry) : Bool :=
  decide (e.hact = w ∧ e.vact = h ∧ absDiff e.fr.toNat r.toNat ≤ frTol)

/-- The first entry of a list that matches, with its index counted from `i` (R205). -/
def findMode (w h : U16) (r : Byte) (i : Nat) (l : List TimingEntry) : Option (Nat × TimingEntry) :=
  match l with
  | [] => none
  | e :: rest => if modeMatches w h r e then some (i, e) else findMode w h r (i + 1) rest

/-- `MODE_LOOKUP w, h, r` (R205). -/
def modeLookup (P : Params) (w h : U16) (r : Byte) : Out (Nat × TimingEntry) :=
  match findMode w h r 0 P.timingTable with
  | some x => .ok x
  | none => .fail .noMatchingMode

/-- `timing_of(e)` (R207): the entry's fields and the pixel clock of R173, whose refusal is passed on
(log 26). -/
def timingOf (e : TimingEntry) : Out VideoTiming :=
  (pclkOfTiming e.htotal e.vtotal e.fr).bind fun pclk =>
    .ok { hfp := e.hfp, hs := e.hs, hbp := e.hbp, hact := e.hact, htotal := e.htotal, vfp := e.vfp,
          vs := e.vs, vbp := e.vbp, vact := e.vact, vtotal := e.vtotal, fr := e.fr, pclk := pclk }

/-- Changes the descriptor (R35). -/
def Op.modDesc (f : RxVideoDescriptor → RxVideoDescriptor) : Op Unit :=
  Op.modCtx fun c => { c with desc := f c.desc }

/-- The lane start-of-transmission counters: each pair is read, in order, and discarded (R204 step 1,
R80). -/
def readSot (P : Params) (is : List (Fin 4)) : Op Unit :=
  match is with
  | [] => Op.pure ()
  | i :: rest => (rdBulkOp P (P.sotRegs i).bank (P.sotRegs i).addr 2).andThen (readSot P rest)

/-- The lane-packing read, when there is a register for it (R204, D40). -/
def readLanepack (P : Params) : Op Unit :=
  match P.lanepack with
  | none => Op.pure ()
  | some r => (Op.ofBus (rd P r.bank r.addr)).bind fun v => Op.modDesc fun d => { d with lanepack := v }

/-- `DETECT` (R204). -/
def detect (P : Params) : Op RxVideoDescriptor :=
  (Op.modDesc fun _ => RxVideoDescriptor.zero).andThen <|
  (readSot P [0, 1, 2, 3]).andThen <|
  (Op.ofBus (wr P P.hsSettle.reg.bank P.hsSettle.reg.addr P.hsSettle.value)).andThen <|
  (rdBulkOp P (P.regMap .rxBlock).bank (P.regMap .rxBlock).addr 5).bind fun blk =>
  let x := parseRxBlock P blk
  (Op.modDesc fun d => { d with wc := x.1, vact := x.2.1, fmt := x.2.2 }).andThen <|
  (Op.ofBus (rd P P.rxFrReg.bank P.rxFrReg.addr)).bind fun fr =>
  (Op.modDesc fun d => { d with fr := fr }).andThen <|
  (readLanepack P).andThen <|
  (Op.lift (activeWidth P x.1 x.2.2)).bind fun w =>
  (Op.modDesc fun d => { d with hact := w }).andThen <|
  (Op.lift (videoCheck w x.2.1)).andThen <|
  Op.getCtx.bind fun c => Op.pure c.desc

/-! ## The operations run by themselves -/

/-- BPP_LOOKUP with the parameters `P` (R200). -/
def runBppLookup (P : Params) (f : BitVec 4) (s : State) : Host.Outcome State Fault Refusal :=
  unlessDetached s (finishPure (fun r => .ratio r.1 r.2) (.ok (bppLookup P f)) s)

/-- BPP_LOOKUP (R200). -/
def execBppLookup (f : BitVec 4) (s : State) : Host.Outcome State Fault Refusal :=
  runBppLookup Config.P f s

/-- ACTIVE_WIDTH with the parameters `P` (R201). -/
def runActiveWidth (P : Params) (wc : U16) (f : BitVec 4) (s : State) :
    Host.Outcome State Fault Refusal :=
  unlessDetached s (finishPure .u16 (activeWidth P wc f) s)

/-- ACTIVE_WIDTH (R201). -/
def execActiveWidth (wc : U16) (f : BitVec 4) (s : State) : Host.Outcome State Fault Refusal :=
  runActiveWidth Config.P wc f s

/-- VIDEO_CHECK (R202). -/
def execVideoCheck (w h : U16) (s : State) : Host.Outcome State Fault Refusal :=
  unlessDetached s (finishPure (fun _ => .unit) (videoCheck w h) s)

/-- DETECT with the parameters `P` (R204). -/
def runDetect (P : Params) (s : State) : Host.Outcome State Fault Refusal :=
  onContext s (finish .desc (detect P s))

/-- DETECT (R204). -/
def execDetect (s : State) : Host.Outcome State Fault Refusal := runDetect Config.P s

/-- MODE_LOOKUP with the parameters `P` (R205). -/
def runModeLookup (P : Params) (w h : U16) (r : Byte) (s : State) :
    Host.Outcome State Fault Refusal :=
  unlessDetached s (finishPure (fun x => .mode x.1 x.2) (modeLookup P w h r) s)

/-- MODE_LOOKUP (R205). -/
def execModeLookup (w h : U16) (r : Byte) (s : State) : Host.Outcome State Fault Refusal :=
  runModeLookup Config.P w h r s

end Sys2Proof.Machine
end

