-- ==== Sys2Proof/Machine/Sequencer.lean ====
section
/-! DEFINITION. The stage sequencer (44_sequencer.md, sections 1 to 3 and 5): the five stages, POLL, SCHEDULE,
RETRY_UPDATE, INVOKE. -/

namespace Sys2Proof.Machine

open Sys2Proof

/-! ## Polling (R249) -/

/-- The `wait` after an unset read; none for the gap `none` (R249, R348). -/
def waitGap (g : Gap) : BusOp Unit :=
  match g with
  | .none => BusOp.pure ()
  | .pcrGap => BusOp.emit (.wait (.pollGap .pcrGap) (gapMs .pcrGap))
  | .txlockGap => BusOp.emit (.wait (.pollGap .txlockGap) (gapMs .txlockGap))

/-- At most `n` reads of a status bit; the first set read ends the poll (R249). -/
def pollLoop (P : Params) (sb : StatusBit) (g : Gap) (n : Nat) : BusOp Bool :=
  match n with
  | 0 => BusOp.pure false
  | m + 1 => (rd P sb.reg.bank sb.reg.addr).bind fun v =>
    if statusSet sb v then BusOp.pure true else (waitGap g).andThen (pollLoop P sb g m)

/-- `POLL i, n, g` (R249). -/
def poll (P : Params) (i : StatusId) (n : Byte) (g : Gap) : BusOp Bool :=
  pollLoop P (P.statusBits i) g n.toNat

/-! ## Steps shared by the stages -/

/-- `ctx.stage <- st; continue_stage` (R22, R241). -/
def continueTo (st : Stage) : Op StageEnd := (Op.update (setStage st)).andThen (Op.pure .next)

/-- The reset pulse: assert, 60 ms, release, 60 ms (R243, R347). -/
def resetPulse : Op Unit :=
  (Op.emit (.reset .assert)).andThen <|
  (Op.emit (.wait .resetAssert resetAssertMs)).andThen <|
  (Op.emit (.reset .release)).andThen <|
  Op.emit (.wait .resetSettle resetSettleMs)

/-- A stage failure that goes back to RxTimingConfig: record the code, move, schedule `retry` (R246,
R304, R308). -/
def backToRxTiming (P : Params) (e : ErrCode) : Op StageEnd :=
  (Op.update (setErr e)).andThen <|
  (Op.update (setStage .rxTimingConfig)).andThen <|
  (Op.update (schedule P .retry)).andThen <|
  Op.pure .yield

/-! ## The stages -/

/-- `STAGE_PREPARE` (R243). -/
def stagePrepare (P : Params) : Op StageEnd :=
  resetPulse.andThen <|
  (rdBulkOp P P.chipId.span.bank P.chipId.span.addr P.chipId.span.len).bind fun id =>
  (if id = P.chipId.expected then Op.pure () else Op.emit (.log .chipIdMismatch)).andThen <|
  (Op.ofBus (wrList P (P.seqRxPhyOn P.lanes))).andThen <|
  (Op.ofBus (wrList P P.seqTxPhyOff)).andThen <|
  continueTo .rxTimingConfig

/-- The failure path of RxTimingConfig: RETRY_UPDATE with the hint of the failed attempt (R244, R245). -/
def rxTimingFailed (P : Params) (e : ErrCode) : Op StageEnd := fun s =>
  (.ok .yield, retryUpdate P (steadyFormat s.ctx.desc) e s)

/-- The mode lookup and the selection of RxTimingConfig, after a DETECT that succeeded (R244). -/
def rxTimingSelect (P : Params) (d : RxVideoDescriptor) : Op StageEnd :=
  match modeLookup P d.hact d.vact d.fr with
  | .ok x =>
    (Op.lift (timingOf x.2)).bind fun t =>
    (Op.modCtx fun c => { c with sel := t, selValid := true }).andThen <|
    continueTo .rxPllConfig
  | .fail _ =>
    (Op.emit (.log .noMatchingMode)).andThen (rxTimingFailed P .noMatchingMode)
  | .fault f => Op.lift (.fault f)
  | .refuse q => Op.lift (.refuse q)

/-- `STAGE_RXTIMING` (R244): a NoVideo is handled here, a TransportError goes on to INVOKE (R257). -/
def stageRxTiming (P : Params) : Op StageEnd := fun s =>
  match detect P s with
  | (.ok d, s1) => rxTimingSelect P d s1
  | (.fail .noVideo, s1) => rxTimingFailed P .noVideo s1
  | (.fail e, s1) => (.fail e, s1)
  | (.fault f, s1) => (.fault f, s1)
  | (.refuse q, s1) => (.refuse q, s1)

/-- The end of RxPllConfig once the video-check phase is done (R246). -/
def rxPllDone (P : Params) : Op StageEnd :=
  (Op.ofBus (wrList P P.seqTxSrcOn)).andThen (continueTo .txVideoConfig)

/-- The video-check phase of RxPllConfig, with its answer (R246, R308, D27). -/
def rxPllVideoCheck (P : Params) (stable : Bool) : Op StageEnd :=
  if stable then rxPllDone P
  else match P.vidchkExhaust with
    | .fail => backToRxTiming P .vidChkUnstable
    | .advance => (Op.emit (.log .vidChkTimeout)).andThen (rxPllDone P)

/-- `STAGE_RXPLL` (R246). -/
def stageRxPll (P : Params) : Op StageEnd :=
  Op.getCtx.bind fun c =>
  if c.selValid then
    (computePcr P c.sel.pclk).bind fun r =>
    (Op.modCtx fun c => { c with dsc := r.1, pcr := r.2 }).andThen <|
    (Op.ofBus (wrList P (P.encDessc r.1))).andThen <|
    (Op.ofBus (wrList P (P.encPcr r.2))).andThen <|
    (Op.ofBus (poll P .pcrStable pcrPolls .pcrGap)).bind fun ok1 =>
    if ok1 then
      (Op.ofBus (poll P .vidchkStable vidchkPolls .none)).bind fun ok2 => rxPllVideoCheck P ok2
    else backToRxTiming P .pcrUnstable
  else Op.lift (.fault .noTiming)

/-- The failure path of TxVideoConfig: warn, record, schedule `retry`, stay (R247, R305). -/
def txUnlocked (P : Params) : Op StageEnd :=
  (Op.emit (.warn .pllUnlocked)).andThen <|
  (Op.update (setErr .pllUnlocked)).andThen <|
  (Op.update (schedule P .retry)).andThen <|
  Op.pure .yield

/-- `STAGE_TXVIDCFG` (R247). -/
def stageTxVidCfg (P : Params) : Op StageEnd :=
  (rdBulkOp P P.pclkRb.span.bank P.pclkRb.span.addr P.pclkRb.span.len).bind fun bytes =>
  let p := pclkOf P bytes
  (Op.modCtx fun c => { c with pclkRb := p }).andThen <|
  (Op.lift (computeTxPll P p)).bind fun t =>
  (Op.modCtx fun c => { c with txpll := t }).andThen <|
  (Op.ofBus (wrList P P.seqTxPllRef)).andThen <|
  (Op.ofBus (wrList P (P.encTxPll t))).andThen <|
  (Op.ofBus (wrList P P.seqTxPllRst)).andThen <|
  (Op.ofBus (poll P .txpllLock txlockPolls .txlockGap)).bind fun ok =>
  if ok then continueTo .txVideoOut else txUnlocked P

/-- `STAGE_TXVIDOUT` (R248). -/
def stageTxVidOut (P : Params) : Op StageEnd :=
  (rdBulkOp P P.meas.span.bank P.meas.span.addr P.meas.span.len).bind fun bytes =>
  let t := timingOfMeas P bytes
  (Op.modCtx fun c => { c with live := t }).andThen <|
  (Op.ofBus (wrList P (P.txDig t))).andThen <|
  (Op.ofBus (wrList P P.seqTxSwRst)).andThen <|
  (Op.modCtx fun c => { c with steady := true, err := 0 }).andThen <|
  Op.pure .yield

/-! ## INVOKE (R251) -/

/-- The stage operation the control point names; codes 5, 6 and 7 fault (R251, R32). -/
def runStage (P : Params) : Op StageEnd := fun s =>
  match stageOfCode s.ctx.stage with
  | some .prepare => stagePrepare P s
  | some .rxTimingConfig => stageRxTiming P s
  | some .rxPllConfig => stageRxPll P s
  | some .txVideoConfig => stageTxVidCfg P s
  | some .txVideoOut => stageTxVidOut P s
  | none => (.fault .badStage, s)

/-- The loop of INVOKE, for at most `n` stage operations: `next` goes on, `yield` ends, a transport error is
taken at this boundary, a fault or a refusal is passed on (R251, R257, R258). -/
def invokeLoop (P : Params) (n : Nat) : Op Unit :=
  match n with
  | 0 => Op.pure ()
  | m + 1 => fun s =>
    match runStage P s with
    | (.ok .next, s1) => invokeLoop P m s1
    | (.ok .yield, s1) => (.ok (), s1)
    | (.fail .transportError, s1) => (.ok (), deferTransportError P s1)
    | (.fail e, s1) => (.fail e, s1)
    | (.fault f, s1) => (.fault f, s1)
    | (.refuse q, s1) => (.refuse q, s1)

/-- One invocation: it runs at most five stage operations, so the loop never runs out (R251, log 13). -/
def invoke (P : Params) : Op Unit := invokeLoop P 5

/-! ## The operations run by themselves -/

/-- STAGE_PREPARE with the parameters `P` (R243). -/
def runStagePrepare (P : Params) (s : State) : Host.Outcome State Fault Refusal :=
  onContext s (finish .stageEnd (stagePrepare P s))

/-- STAGE_PREPARE (R243). -/
def execStagePrepare (s : State) : Host.Outcome State Fault Refusal := runStagePrepare Config.P s

/-- STAGE_RXTIMING with the parameters `P` (R244). -/
def runStageRxtiming (P : Params) (s : State) : Host.Outcome State Fault Refusal :=
  onContext s (finish .stageEnd (stageRxTiming P s))

/-- STAGE_RXTIMING (R244). -/
def execStageRxtiming (s : State) : Host.Outcome State Fault Refusal := runStageRxtiming Config.P s

/-- STAGE_RXPLL with the parameters `P` (R246). -/
def runStageRxpll (P : Params) (s : State) : Host.Outcome State Fault Refusal :=
  onContext s (finish .stageEnd (stageRxPll P s))

/-- STAGE_RXPLL (R246). -/
def execStageRxpll (s : State) : Host.Outcome State Fault Refusal := runStageRxpll Config.P s

/-- STAGE_TXVIDCFG with the parameters `P` (R247). -/
def runStageTxvidcfg (P : Params) (s : State) : Host.Outcome State Fault Refusal :=
  onContext s (finish .stageEnd (stageTxVidCfg P s))

/-- STAGE_TXVIDCFG (R247). -/
def execStageTxvidcfg (s : State) : Host.Outcome State Fault Refusal := runStageTxvidcfg Config.P s

/-- STAGE_TXVIDOUT with the parameters `P` (R248). -/
def runStageTxvidout (P : Params) (s : State) : Host.Outcome State Fault Refusal :=
  onContext s (finish .stageEnd (stageTxVidOut P s))

/-- STAGE_TXVIDOUT (R248). -/
def execStageTxvidout (s : State) : Host.Outcome State Fault Refusal := runStageTxvidout Config.P s

/-- POLL with the parameters `P` (R249). -/
def runPoll (P : Params) (i : StatusId) (n : Byte) (g : Gap) (s : State) :
    Host.Outcome State Fault Refusal :=
  onContext s (.next (finishBus .bool (poll P i n g s)))

/-- POLL (R249). -/
def execPoll (i : StatusId) (n : Byte) (g : Gap) (s : State) : Host.Outcome State Fault Refusal :=
  runPoll Config.P i n g s

/-- SCHEDULE with the parameters `P` (R250). -/
def runSchedule (P : Params) (d : DelayClass) (s : State) : Host.Outcome State Fault Refusal :=
  onContext s (.next ((schedule P d s).record (.ok .unit)))

/-- SCHEDULE (R250). -/
def execSchedule (d : DelayClass) (s : State) : Host.Outcome State Fault Refusal :=
  runSchedule Config.P d s

/-- RETRY_UPDATE with the parameters `P` (R245). -/
def runRetryUpdate (P : Params) (k : Bool) (e : ErrCode) (s : State) :
    Host.Outcome State Fault Refusal :=
  onContext s (.next ((retryUpdate P k e s).record (.ok .unit)))

/-- RETRY_UPDATE (R245). -/
def execRetryUpdate (k : Bool) (e : ErrCode) (s : State) : Host.Outcome State Fault Refusal :=
  runRetryUpdate Config.P k e s

/-- INVOKE with the parameters `P` (R251). -/
def runInvoke (P : Params) (s : State) : Host.Outcome State Fault Refusal :=
  onContext s (finish (fun _ => .unit) (invoke P s))

/-- INVOKE (R251). -/
def execInvoke (s : State) : Host.Outcome State Fault Refusal := runInvoke Config.P s

end Sys2Proof.Machine
end

