-- ==== Sys2Proof/Machine/Lifecycle.lean ====
section
/-! DEFINITION. The host lifecycle commands (44_sequencer.md, section 4): ATTACH, ENABLE, DISABLE, DETACH, TICK.
Each is one atomic step (D31, log 16). -/

namespace Sys2Proof.Machine

open Sys2Proof

/-- Construction: the reset record of R340 and the attachment of the DSI host (R253). -/
def construct (s : State) : State :=
  { s with constructed := true, ctx := Ctx.reset }.emit .dsiAttach

/-- ATTACH (R253): the conditions are checked in the order gpio, clock, DSI host; the first that fails is
returned and no context is created (D43). -/
def execAttach (c : BitVec 3) (s : State) : Host.Outcome State Fault Refusal :=
  if s.live then .refused .alreadyConstructed
  else if c.getLsbD 0 = false then .next (s.record (.fail .missingGpio))
  else if c.getLsbD 1 = false then .next (s.record (.fail .missingClock))
  else if c.getLsbD 2 = false then .next (s.record (.fail .dsiAttachDefer))
  else .next ((construct s).record (.ok .unit))

/-- The effect of ENABLE: stage Prepare, not steady, an invocation scheduled `now` (R254). -/
def enableEffect (P : Params) (s : State) : State :=
  schedule P .now (s.modCtx fun c => { c with stage := stageCode .prepare, steady := false })

/-- ENABLE with the parameters `P` (R254). -/
def runEnable (P : Params) (s : State) : Host.Outcome State Fault Refusal :=
  onContext s (.next ((enableEffect P s).record (.ok .unit)))

/-- ENABLE (R254). -/
def execEnable (s : State) : Host.Outcome State Fault Refusal := runEnable Config.P s

/-- DISABLE: a no-op; the chip is left running (R255, R324). -/
def execDisable (s : State) : Host.Outcome State Fault Refusal :=
  onContext s (.next (s.record (.ok .unit)))

/-- The effect of DETACH: cancel the pending invocation, mark the context detached, then release the DSI
host (R256, R350). -/
def detachEffect (s : State) : State :=
  ((s.modCtx fun c => { c with pending := false }).modCtx fun c => { c with detached := true }).emit
    .dsiRelease

/-- DETACH (R256). -/
def execDetach (s : State) : Host.Outcome State Fault Refusal :=
  onContext s (.next ((detachEffect s).record (.ok .unit)))

/-- TICK with the parameters `P` (R252): nothing on a detached context or with nothing pending; otherwise
the pending flag is cleared and one invocation runs. -/
def runTick (P : Params) (s : State) : Host.Outcome State Fault Refusal :=
  if s.constructed = false then .refused .notConstructed
  else if s.ctx.detached = true then .next (s.record (.ok .unit))
  else if s.ctx.pending = false then .next (s.record (.ok .unit))
  else finish (fun _ => .unit) (invoke P (s.modCtx fun c => { c with pending := false }))

/-- TICK (R252). -/
def execTick (s : State) : Host.Outcome State Fault Refusal := runTick Config.P s

end Sys2Proof.Machine
end

