-- ==== Sys2Proof/Machine/Dispatch.lean ====
section
/-! DEFINITION. `exec`: the meaning of each operation, one arm for each row of the opcode table (R110). -/

namespace Sys2Proof.Machine

open Sys2Proof

def exec (i : Instr) (s : State) : Host.Outcome State Fault Refusal :=
  match i with
  | .attach c => Sys2Proof.Machine.execAttach c s
  | .enable => Sys2Proof.Machine.execEnable s
  | .disable => Sys2Proof.Machine.execDisable s
  | .detach => Sys2Proof.Machine.execDetach s
  | .tick => Sys2Proof.Machine.execTick s
  | .banksel b => Sys2Proof.Machine.execBanksel b s
  | .wr b a v => Sys2Proof.Machine.execWr b a v s
  | .wrseq b ps => Sys2Proof.Machine.execWrseq b ps s
  | .rd b a => Sys2Proof.Machine.execRd b a s
  | .rdbulk b a n => Sys2Proof.Machine.execRdbulk b a n s
  | .pcrBand p => Sys2Proof.Machine.execPcrBand p s
  | .computePcr p => Sys2Proof.Machine.execComputePcr p s
  | .txPrediv p => Sys2Proof.Machine.execTxPrediv p s
  | .txPhyclk p => Sys2Proof.Machine.execTxPhyclk p s
  | .txSerdiv phy => Sys2Proof.Machine.execTxSerdiv phy s
  | .txPixmux p sd => Sys2Proof.Machine.execTxPixmux p sd s
  | .txDivreg p q sd => Sys2Proof.Machine.execTxDivreg p q sd s
  | .computeTxPll p => Sys2Proof.Machine.execComputeTxPll p s
  | .pclkOfTiming ht vt fr => Sys2Proof.Machine.execPclkOfTiming ht vt fr s
  | .bppLookup f => Sys2Proof.Machine.execBppLookup f s
  | .activeWidth wc f => Sys2Proof.Machine.execActiveWidth wc f s
  | .videoCheck w h => Sys2Proof.Machine.execVideoCheck w h s
  | .detect => Sys2Proof.Machine.execDetect s
  | .modeLookup w h r => Sys2Proof.Machine.execModeLookup w h r s
  | .stagePrepare => Sys2Proof.Machine.execStagePrepare s
  | .stageRxtiming => Sys2Proof.Machine.execStageRxtiming s
  | .stageRxpll => Sys2Proof.Machine.execStageRxpll s
  | .stageTxvidcfg => Sys2Proof.Machine.execStageTxvidcfg s
  | .stageTxvidout => Sys2Proof.Machine.execStageTxvidout s
  | .poll n0 n1 n2 => Sys2Proof.Machine.execPoll n0 n1 n2 s
  | .schedule d => Sys2Proof.Machine.execSchedule d s
  | .retryUpdate k e => Sys2Proof.Machine.execRetryUpdate k e s
  | .invoke => Sys2Proof.Machine.execInvoke s

end Sys2Proof.Machine
end

