-- ==== Sys2Proof/Machine/Step.lean ====
section
/-! DEFINITION. One step of the machine: the next operation word of the program is decoded and run (R107, R116,
log 1). -/

namespace Sys2Proof.Machine

open Sys2Proof

/-- The refusal of a byte string that spells no operation (R111, R112, R310). -/
def decodeRefusal (e : DecodeError) : Refusal :=
  match e with
  | .illegal => .illegal
  | .truncated => .truncated
  | .reserved => .reserved

/-- One step. With no byte left the platform has issued its last command and the block does nothing (R260,
log 1); otherwise the operation at the head of the program runs, the bytes after its word being left. -/
def step (s : State) : Host.Outcome State Fault Refusal :=
  match s.program with
  | [] => .next s
  | op :: tl =>
    match decode (op :: tl) with
    | .ok i rest => exec i (s.advance rest)
    | .bad e => .refused (decodeRefusal e)

/-- `s` with a word, numbered as spec/opcode_table.json numbers its bits, as the program (log 1). -/
def State.withFetchWord (s : State) (nbits w : Nat) : State :=
  { s with program := tableWordBytes nbits w }

end Sys2Proof.Machine
end

