-- ==== Sys2Proof/Machine/Asm.lean ====
section
/-! DEFINITION. Pseudo-operations and their expansions (R115) and the assembly syntax (R114). -/

namespace Sys2Proof.Machine

open Sys2Proof

/-- The pseudo-operations of R115. -/
inductive Pseudo where
  | wrlist (l : WriteList)
  | rd16 (b a : Byte)
  | pulseTxpllRst
  | bringup (c : BitVec 3)
deriving DecidableEq, Repr

/-- WRLIST: one WRSEQ for each group, in list order (R76, R115). -/
def expandList (l : WriteList) : List Instr := l.map fun g => .wrseq g.bank g.entries

/-- The expansion of a pseudo-operation (R115). -/
def Pseudo.expand (P : Params) (x : Pseudo) : List Instr :=
  match x with
  | .wrlist l => expandList l
  | .rd16 b a => [.rdbulk b a 2]
  | .pulseTxpllRst => expandList P.seqTxPllRst
  | .bringup c => [.attach c, .enable, .tick]

/-- The value RD16 assembles from the two bytes its bulk read returns (R115, R77). -/
def rd16Value (P : Params) (bs : List Byte) : U16 := u16Of P.fieldOrder (bs.getD 0 0) (bs.getD 1 0)

/-! ## Assembly syntax (R114) -/

/-- A word of a line: a number, or a name. -/
inductive Tok where
  | num (n : Nat)
  | name (s : String)
deriving DecidableEq, Repr

/-- The characters that separate words: operands, pairs and lists are read by position (R114, log 23). -/
def isSeparator (c : Char) : Bool :=
  c == ' ' || c == '\t' || c == ',' || c == '=' || c == '(' || c == ')' || c == '[' || c == ']'

/-- Puts a finished word before the words that follow it. -/
def consWord (acc : List Char) (ws : List (List Char)) : List (List Char) :=
  if acc.isEmpty then ws else acc :: ws

/-- The words of a line, up to a `;` that starts a comment (R114). -/
def lineWords (acc : List Char) (cs : List Char) : List (List Char) :=
  match cs with
  | [] => consWord acc []
  | c :: rest =>
    if c == ';' then consWord acc []
    else if isSeparator c then consWord acc (lineWords [] rest)
    else lineWords (acc ++ [c]) rest

/-- The value of a digit in base 16. -/
def digitValue (c : Char) : Option Nat :=
  if '0' ≤ c ∧ c ≤ '9' then some (c.toNat - 48)
  else if 'a' ≤ c ∧ c ≤ 'f' then some (c.toNat - 87)
  else if 'A' ≤ c ∧ c ≤ 'F' then some (c.toNat - 55)
  else none

/-- The number some digits spell in a base, after `n`. -/
def digitsValue (base n : Nat) (cs : List Char) : Option Nat :=
  match cs with
  | [] => some n
  | c :: rest =>
    match digitValue c with
    | some d => if d < base then digitsValue base (n * base + d) rest else none
    | none => none

/-- A number, decimal or `0x` hexadecimal (R114). -/
def numberOf (w : List Char) : Option Nat :=
  match w with
  | '0' :: 'x' :: c :: rest => digitsValue 16 0 (c :: rest)
  | c :: rest => digitsValue 10 0 (c :: rest)
  | [] => none

/-- A word as a token. -/
def tokOf (w : List Char) : Tok :=
  match numberOf w with
  | some n => .num n
  | none => .name (String.ofList w)

/-- The symbolic register a name stands for (R75, R114). -/
def regOfName (s : String) : Option ChipReg :=
  match s with
  | "BANK_SEL" => some .bankSel
  | "CHIP_ID" => some .chipId
  | "RX_PHY_PWR" => some .rxPhyPwr
  | "TX_PHY_PWR" => some .txPhyPwr
  | "SOT_CNT0" => some .sotCnt0
  | "SOT_CNT1" => some .sotCnt1
  | "SOT_CNT2" => some .sotCnt2
  | "SOT_CNT3" => some .sotCnt3
  | "RX_HS_SETTLE" => some .rxHsSettle
  | "RX_BLOCK" => some .rxBlock
  | "RX_FR" => some .rxFr
  | "DESSC_DIV" => some .desscDiv
  | "PCR_COEF" => some .pcrCoef
  | "PCR_STATUS" => some .pcrStatus
  | "VIDCHK_STATUS" => some .vidchkStatus
  | "TX_SRC_PWR" => some .txSrcPwr
  | "PCLK_RB" => some .pclkRb
  | "TXPLL_REF" => some .txpllRef
  | "TXPLL_DIV" => some .txpllDiv
  | "TXPLL_RST" => some .txpllRst
  | "TXPLL_STATUS" => some .txpllStatus
  | "MEAS" => some .meas
  | "TX_DIG" => some .txDig
  | "TX_SWRST" => some .txSwrst
  | _ => none

/-- Operands with each symbolic register name replaced by its bank and address (R114). -/
def expandRegs (P : Params) (ts : List Tok) : List Tok :=
  ts.flatMap fun t =>
    match t with
    | .num n => [.num n]
    | .name s =>
      match regOfName s with
      | some r => [.num (P.regMap r).bank.toNat, .num (P.regMap r).addr.toNat]
      | none => [.name s]

/-- The write list a name stands for. DESIGN CHOICE (log 31): R114 and R115 do not say how the operand L of WRLIST
is written, so a line writes the bare name of the parameter. -/
def listParamOfName (s : String) : Option ListParam :=
  match s with
  | "P_SEQ_RXPHY_ON" => some .seqRxPhyOn
  | "P_SEQ_TXPHY_OFF" => some .seqTxPhyOff
  | "P_SEQ_TXSRC_ON" => some .seqTxSrcOn
  | "P_SEQ_TXPLL_REF" => some .seqTxPllRef
  | "P_SEQ_TXPLL_RST" => some .seqTxPllRst
  | "P_SEQ_TXSWRST" => some .seqTxSwRst
  | "P_ENC_DESSC" => some .encDessc
  | "P_ENC_PCR" => some .encPcr
  | "P_ENC_TXPLL" => some .encTxPll
  | "P_TXDIG" => some .txDig
  | _ => none

/-- The contents of the write list a WRLIST line names (R115, D46). DESIGN CHOICE (log 31): `P_SEQ_RXPHY_ON` is
written without its argument and means `P_SEQ_RXPHY_ON(P_LANES)`, and a list that encodes a computed value
(`P_ENC_DESSC`, `P_ENC_PCR`, `P_ENC_TXPLL`, `P_TXDIG`) makes the line no operation, since a line of assembly has no
computed value to encode. -/
def listOfName (P : Params) (s : String) : Option WriteList :=
  (listParamOfName s).bind P.fixedList

/-- The status names of POLL (R114). -/
def statusOfName (s : String) : Option StatusId :=
  match s with
  | "PCR_STABLE" => some .pcrStable
  | "VIDCHK_STABLE" => some .vidchkStable
  | "TXPLL_LOCK" => some .txpllLock
  | _ => none

/-- The gap names of POLL (R114). -/
def gapOfName (s : String) : Option Gap :=
  match s with
  | "none" => some .none
  | "pcr_gap" => some .pcrGap
  | "txlock_gap" => some .txlockGap
  | _ => none

/-- The delay names of SCHEDULE (R114). -/
def delayOfName (s : String) : Option DelayClass :=
  match s with
  | "now" => some .now
  | "short" => some .short
  | "defer" => some .defer
  | "retry" => some .retry
  | _ => none

/-- The error names of RETRY_UPDATE (R114, R300). -/
def errOfName (s : String) : Option ErrCode :=
  match s with
  | "none" => some .none
  | "TransportError" => some .transportError
  | "NoVideo" => some .noVideo
  | "NoMatchingMode" => some .noMatchingMode
  | "PcrUnstable" => some .pcrUnstable
  | "PllUnlocked" => some .pllUnlocked
  | "VidChkUnstable" => some .vidChkUnstable
  | "MissingGpio" => some .missingGpio
  | "MissingClock" => some .missingClock
  | "DsiAttachDefer" => some .dsiAttachDefer
  | _ => none

/-- A number as an operand of `w` bits, when it fits (R107). -/
def fit (w n : Nat) : Option (BitVec w) := if n < 2 ^ w then some (BitVec.ofNat w n) else none

/-- The pairs of a WRSEQ, from numbers in order (R114). -/
def pairsOf (ts : List Tok) : Option (List (Byte × Byte)) :=
  match ts with
  | [] => some []
  | .num a :: .num v :: rest =>
    (fit 8 a).bind fun a' => (fit 8 v).bind fun v' => (pairsOf rest).map fun ps => (a', v') :: ps
  | _ => none

/-- The construction flags `gpio=g, clk=c, dsi=d`, each 0 or 1 (R109, R114). -/
def flagsOf (g c d : Nat) : Option (BitVec 3) :=
  if g < 2 ∧ c < 2 ∧ d < 2 then some (BitVec.ofNat 3 (g + 2 * c + 4 * d)) else none

/-- The operations whose operands are numbers (R108, R114). -/
def numericOp (m : String) (ns : List Tok) : Option Instr :=
  match m, ns with
  | "ENABLE", [] => some .enable
  | "DISABLE", [] => some .disable
  | "DETACH", [] => some .detach
  | "TICK", [] => some .tick
  | "DETECT", [] => some .detect
  | "STAGE_PREPARE", [] => some .stagePrepare
  | "STAGE_RXTIMING", [] => some .stageRxtiming
  | "STAGE_RXPLL", [] => some .stageRxpll
  | "STAGE_TXVIDCFG", [] => some .stageTxvidcfg
  | "STAGE_TXVIDOUT", [] => some .stageTxvidout
  | "INVOKE", [] => some .invoke
  | "BANKSEL", [.num b] => (fit 8 b).map .banksel
  | "WR", [.num b, .num a, .num v] =>
    (fit 8 b).bind fun b' => (fit 8 a).bind fun a' => (fit 8 v).map fun v' => .wr b' a' v'
  | "WRSEQ", .num b :: rest =>
    (fit 8 b).bind fun b' => (pairsOf rest).map fun ps => .wrseq b' ps
  | "RD", [.num b, .num a] => (fit 8 b).bind fun b' => (fit 8 a).map fun a' => .rd b' a'
  | "RDBULK", [.num b, .num a, .num n] =>
    (fit 8 b).bind fun b' => (fit 8 a).bind fun a' => (fit 8 n).map fun n' => .rdbulk b' a' n'
  | "PCR_BAND", [.num p] => (fit 32 p).map .pcrBand
  | "COMPUTE_PCR", [.num p] => (fit 32 p).map .computePcr
  | "TX_PREDIV", [.num p] => (fit 32 p).map .txPrediv
  | "TX_PHYCLK", [.num p] => (fit 32 p).map .txPhyclk
  | "TX_SERDIV", [.num p] => (fit 32 p).map .txSerdiv
  | "TX_PIXMUX", [.num p, .num s] =>
    (fit 32 p).bind fun p' => (fit 8 s).map fun s' => .txPixmux p' s'
  | "TX_DIVREG", [.num p, .num q, .num s] =>
    (fit 32 p).bind fun p' => (fit 8 q).bind fun q' => (fit 8 s).map fun s' => .txDivreg p' q' s'
  | "COMPUTE_TX_PLL", [.num p] => (fit 32 p).map .computeTxPll
  | "PCLK_OF_TIMING", [.num h, .num t, .num r] =>
    (fit 16 h).bind fun h' => (fit 16 t).bind fun t' => (fit 8 r).map fun r' => .pclkOfTiming h' t' r'
  | "BPP_LOOKUP", [.num f] => (fit 4 f).map .bppLookup
  | "ACTIVE_WIDTH", [.num w, .num f] =>
    (fit 16 w).bind fun w' => (fit 4 f).map fun f' => .activeWidth w' f'
  | "VIDEO_CHECK", [.num w, .num h] =>
    (fit 16 w).bind fun w' => (fit 16 h).map fun h' => .videoCheck w' h'
  | "MODE_LOOKUP", [.num w, .num h, .num r] =>
    (fit 16 w).bind fun w' => (fit 16 h).bind fun h' => (fit 8 r).map fun r' => .modeLookup w' h' r'
  | _, _ => none

/-- The operations and pseudo-operations with named operands (R114, R115). -/
def namedOp (P : Params) (m : String) (ts : List Tok) : Option (List Instr) :=
  match m, ts with
  | "ATTACH", [.name "gpio", .num g, .name "clk", .num c, .name "dsi", .num d] =>
    (flagsOf g c d).map fun x => [.attach x]
  | "BRINGUP", [.name "gpio", .num g, .name "clk", .num c, .name "dsi", .num d] =>
    (flagsOf g c d).map fun x => (Pseudo.bringup x).expand P
  | "POLL", [.name i, .num n, .name g] =>
    (statusOfName i).bind fun i' => (fit 8 n).bind fun n' => (gapOfName g).map fun g' =>
      [.poll i' n' g']
  | "SCHEDULE", [.name d] => (delayOfName d).map fun d' => [.schedule d']
  | "RETRY_UPDATE", [.name "hint", .num k, .name "err", .name e] =>
    if k < 2 then (errOfName e).map fun e' => [.retryUpdate (k == 1) e'] else none
  | "WRLIST", [.name l] => (listOfName P l).map fun x => (Pseudo.wrlist x).expand P
  | "PULSE", [.name "TXPLL_RST"] => some (Pseudo.pulseTxpllRst.expand P)
  | _, _ => none

/-- The operations a line of assembly stands for; an empty line or a comment stands for none (R114). -/
def assembleLine (P : Params) (line : String) : Option (List Instr) :=
  match (lineWords [] line.toList).map tokOf with
  | [] => some []
  | .num _ :: _ => none
  | .name m :: ts =>
    match namedOp P m ts with
    | some is => some is
    | none =>
      match m, expandRegs P ts with
      | "RD16", [.num b, .num a] =>
        (fit 8 b).bind fun b' => (fit 8 a).map fun a' => (Pseudo.rd16 b' a').expand P
      | _, ns => (numericOp m ns).map fun i => [i]

end Sys2Proof.Machine
end

