-- ==== Sys2Proof/Machine/Fleet.lean ====
section
/-! DEFINITION. Several block instances (R31, R322): a list of states, one for each chip, that share nothing. -/

namespace Sys2Proof.Machine

open Sys2Proof

/-- The instances of a platform, one for each physical chip (R31). -/
abbrev Fleet := List State

/-- Each instance drives a chip of its own (R31, R322). -/
def Fleet.wf (f : Fleet) : Bool := decide ((f.map State.chip).Nodup)

/-- Instance `k` takes a step and the others wait (R322); an index no instance has does nothing. -/
def fleetStep (k : Nat) (f : Fleet) : Host.Outcome Fleet Fault Refusal :=
  match f[k]? with
  | none => .next f
  | some s =>
    match step s with
    | .next s' => .next (f.set k s')
    | .fault x => .fault x
    | .refused q => .refused q

end Sys2Proof.Machine
end

