-- ==== Sys2Proof/Machine/Parametric.lean ====
section
/-! DEFINITION. The machine for any parameter set: every `P_*` of R11 as an argument. `exec` and `step` are this
machine at `Config.P`. A parameter set that is not well-formed makes every run refused (R310). -/

namespace Sys2Proof.Machine

open Sys2Proof

/-- The meaning of an operation under the parameters `P`. -/
def execWith (P : Params) (i : Instr) (s : State) : Host.Outcome State Fault Refusal :=
  match i with
  | .attach c => execAttach c s
  | .enable => runEnable P s
  | .disable => execDisable s
  | .detach => execDetach s
  | .tick => runTick P s
  | .banksel b => runBanksel P b s
  | .wr b a v => runWr P b a v s
  | .wrseq b ps => runWrseq P b ps s
  | .rd b a => runRd P b a s
  | .rdbulk b a n => runRdbulk P b a n s
  | .pcrBand p => execPcrBand p s
  | .computePcr p => runComputePcr P p s
  | .txPrediv p => runTxPrediv P p s
  | .txPhyclk p => execTxPhyclk p s
  | .txSerdiv phy => runTxSerdiv P phy s
  | .txPixmux p sd => execTxPixmux p sd s
  | .txDivreg p q sd => execTxDivreg p q sd s
  | .computeTxPll p => runComputeTxPll P p s
  | .pclkOfTiming ht vt fr => execPclkOfTiming ht vt fr s
  | .bppLookup f => runBppLookup P f s
  | .activeWidth wc f => runActiveWidth P wc f s
  | .videoCheck w h => execVideoCheck w h s
  | .detect => runDetect P s
  | .modeLookup w h r => runModeLookup P w h r s
  | .stagePrepare => runStagePrepare P s
  | .stageRxtiming => runStageRxtiming P s
  | .stageRxpll => runStageRxpll P s
  | .stageTxvidcfg => runStageTxvidcfg P s
  | .stageTxvidout => runStageTxvidout P s
  | .poll j n g => runPoll P j n g s
  | .schedule d => runSchedule P d s
  | .retryUpdate k e => runRetryUpdate P k e s
  | .invoke => runInvoke P s

/-- One step under the parameters `P`; with a parameter set that is not well-formed the run is refused
before it starts (R310, `BadParameter`). -/
def stepWith (P : Params) (s : State) : Host.Outcome State Fault Refusal :=
  if P.wellFormed = false then .refused .badParameter
  else
    match s.program with
    | [] => .next s
    | op :: tl =>
      match decode (op :: tl) with
      | .ok i rest => execWith P i (s.advance rest)
      | .bad e => .refused (decodeRefusal e)

end Sys2Proof.Machine
end

