-- ==== Sys2Proof/Safety.lean ====
section
/-! DEFINITION. What claims are stated with: the chip's answers as a trace of events, the traces the operations
should issue, written from the rules without the operations' own definitions, and the invariants. -/

namespace Sys2Proof.Safety

open Sys2Proof Sys2Proof.Machine

/-! ## Traces and the oracle (R78, R82, R140) -/

/-- The oracle answers a transaction, asked in the state `s`, as the event records it. Events that are no
transaction ask nothing. -/
def answersAs (s : State) (e : Event) : Bool :=
  match e with
  | .busW a v ok => oracleWrite s a v == ok
  | .busR a r => oracleRead s a == r
  | _ => true

/-- The state after the events `T`: they are in the history, their transactions are counted and have used up
their answers (R20, R140). -/
def play (T : List Event) (s : State) : State :=
  { s with ctx := { s.ctx with accessCount := s.ctx.accessCount + T.countP Event.isBus },
           history := s.history ++ T, script := s.script.drop (T.countP Event.isBus) }

/-- The oracle, asked for the transactions of `T` one after the other from the state `s`, answers each as `T`
records it. Any oracle answers some trace, so a claim for every `T` is a claim for every oracle (R78). -/
def gives (s : State) (T : List Event) : Bool :=
  match T with
  | [] => true
  | e :: T' => answersAs s e && gives (play [e] s) T'

/-- The script that answers the transactions of a trace. -/
def answersOf (T : List Event) : List Answer :=
  T.flatMap fun e =>
    match e with
    | .busW _ _ ok => if ok then [.ok 0] else [.err]
    | .busR _ (some v) => [.ok v]
    | .busR _ none => [.err]
    | _ => []

/-- A transaction as it is when the oracle returns `Err` for it. -/
def erred (e : Event) : Event :=
  match e with
  | .busW a v _ => .busW a v false
  | .busR a _ => .busR a none
  | e => e

/-- The trace `T` cut at its event `k`, for which the oracle returns `Err` (R141). -/
def cutAt (T : List Event) (k : Nat) : List Event := T.take k ++ (T[k]?.map erred).toList

/-! ## Register runs that stay inside a bank (R79, R146) -/

/-- The run of `n` registers from address `a` does not pass 0xFF (R79, R146). -/
def runFits (a n : Byte) : Bool := decide (a.toNat + n.toNat ≤ 256)

/-- The run of a parameter does not pass 0xFF. -/
def spanFits (r : Span) : Bool := runFits r.addr r.len

/-- The five runs DETECT reads, the SOT pairs and the RX block, do not pass 0xFF (R204). -/
def detectFits (P : Params) : Prop :=
  (∀ i : Fin 4, runFits (P.sotRegs i).addr 2 = true) ∧ runFits (P.regMap .rxBlock).addr 5 = true

/-- No run the stages read passes 0xFF (R204, R243, R247, R248). -/
def stagesFit (P : Params) : Prop :=
  detectFits P ∧ spanFits P.chipId.span = true ∧ spanFits P.pclkRb.span = true ∧ spanFits P.meas.span = true

/-! ## The traces of the operations, every transaction completing -/

/-- BANKSEL (R142). -/
def bankEv (P : Params) (b : Byte) : Event := .busW P.bankSelAddr b true

/-- WR (R143). -/
def wrEv (P : Params) (b a v : Byte) : List Event := [bankEv P b, .busW a v true]

/-- The writes of a WRSEQ after its bank select (R144). -/
def pairsEv (ps : List (Byte × Byte)) : List Event := ps.map fun p => .busW p.1 p.2 true

/-- WRSEQ (R144). -/
def wrSeqEv (P : Params) (b : Byte) (ps : List (Byte × Byte)) : List Event := bankEv P b :: pairsEv ps

/-- WRLIST (R76, R115). -/
def listEv (P : Params) (l : WriteList) : List Event := l.flatMap fun g => wrSeqEv P g.bank g.entries

/-- RD, reading `v` (R145). -/
def rdEv (P : Params) (r : Reg) (v : Byte) : List Event := [bankEv P r.bank, .busR r.addr (some v)]

/-- The reads of an RDBULK from address `a`, reading `bs` (R146). -/
def readsEv (a : Byte) (bs : List Byte) : List Event :=
  match bs with
  | [] => []
  | v :: vs => .busR a (some v) :: readsEv (a + 1) vs

/-- RDBULK, reading `bs` (R146). -/
def bulkEv (P : Params) (b a : Byte) (bs : List Byte) : List Event := bankEv P b :: readsEv a bs

/-- The wait after an unset read of a POLL (R249, R348; 500 is a constant: log 34). -/
def gapEv (g : Gap) : List Event :=
  match g with
  | .none => []
  | .pcrGap => [.wait (.pollGap .pcrGap) 500]
  | .txlockGap => [.wait (.pollGap .txlockGap) 20]

/-- Unset reads of a POLL, reading `vs` (R249). -/
def unsetEv (P : Params) (sb : StatusBit) (g : Gap) (vs : List Byte) : List Event :=
  vs.flatMap fun v => rdEv P sb.reg v ++ gapEv g

/-- Every byte of `vs` has the status bit unset (R103). -/
def allUnset (sb : StatusBit) (vs : List Byte) : Bool := vs.all fun v => v.getLsbD sb.bit.val != sb.level

/-- The event of a SCHEDULE in a state: none when an invocation is pending already (R250). -/
def schedEv (P : Params) (s : State) (d : DelayClass) : List Event :=
  if s.ctx.pending then [] else [.sched d (delayMs P d)]

/-- The four SOT counter pairs, reading `sot` (R204, R346). -/
def sotEv (P : Params) (sot : Fin 4 → Byte × Byte) : List Event :=
  [(0 : Fin 4), 1, 2, 3].flatMap fun i =>
    bulkEv P (P.sotRegs i).bank (P.sotRegs i).addr [(sot i).1, (sot i).2]

/-- The lane-packing read, reading `lp`, where there is one (R204, D40). -/
def lanepackEv (P : Params) (lp : Byte) : List Event :=
  match P.lanepack with
  | none => []
  | some r => rdEv P r lp

/-- The value of the lane-packing field after DETECT (R204, D40). -/
def lanepackOf (P : Params) (lp : Byte) : Byte := if P.lanepack.isSome then lp else 0

/-- DETECT, reading the SOT pairs, the RX block, the frame rate and the lane packing (R204). -/
def detectEv (P : Params) (sot : Fin 4 → Byte × Byte) (blk : List Byte) (fr lp : Byte) : List Event :=
  sotEv P sot ++ wrEv P P.hsSettle.reg.bank P.hsSettle.reg.addr P.hsSettle.value
    ++ bulkEv P (P.regMap .rxBlock).bank (P.regMap .rxBlock).addr blk
    ++ rdEv P P.rxFrReg fr ++ lanepackEv P lp

/-- From the state `s` the chip answers DETECT, the SOT pairs as `sot`, until it comes to the first of its runs that
passes 0xFF: SOT pair `k`, three transactions a pair, or the RX block (R79, R146, R204). -/
def reachesWrap (P : Params) (sot : Fin 4 → Byte × Byte) (s : State) : Prop :=
  (∃ k : Fin 4, (∀ j < k, runFits (P.sotRegs j).addr 2 = true) ∧ runFits (P.sotRegs k).addr 2 = false
    ∧ gives s ((sotEv P sot).take (3 * k.val)) = true)
  ∨ ((∀ j : Fin 4, runFits (P.sotRegs j).addr 2 = true) ∧ runFits (P.regMap .rxBlock).addr 5 = false
    ∧ gives s (sotEv P sot ++ wrEv P P.hsSettle.reg.bank P.hsSettle.reg.addr P.hsSettle.value) = true)

/-- The quotient `wc * mul / div` of ACTIVE_WIDTH (R200, R201). -/
def widthOf (P : Params) (wc : U16) (f : BitVec 4) : Nat :=
  wc.toNat * ((P.bppEntry f).getD (1, 3)).1 / ((P.bppEntry f).getD (1, 3)).2

/-- ACTIVE_WIDTH has a result: no product at or above 2^32, no width at or above 2^16 (R201). -/
def widthFits (P : Params) (wc : U16) (f : BitVec 4) : Bool :=
  decide (wc.toNat * ((P.bppEntry f).getD (1, 3)).1 < 4294967296 ∧ widthOf P wc f < 65536)

/-- The descriptor DETECT leaves (R204). -/
def descOf (P : Params) (blk : List Byte) (fr lp : Byte) : RxVideoDescriptor :=
  let x := parseRxBlock P blk
  { wc := x.1, vact := x.2.1, hact := BitVec.ofNat 16 (widthOf P x.1 x.2.2), fmt := x.2.2,
    lanepack := lanepackOf P lp, fr := fr }

/-- The reset pulse of Prepare (R243, R347). -/
def resetEv : List Event :=
  [.reset .assert, .wait .resetAssert 60, .reset .release, .wait .resetSettle 60]

/-- STAGE_PREPARE, reading the chip identity `id` (R243). -/
def prepareEv (P : Params) (id : List Byte) : List Event :=
  resetEv ++ bulkEv P P.chipId.span.bank P.chipId.span.addr id
    ++ (if id = P.chipId.expected then [] else [.log .chipIdMismatch])
    ++ listEv P (P.seqRxPhyOn P.lanes) ++ listEv P P.seqTxPhyOff

/-- The divider of M for a pixel clock (R161, R162, R165). -/
def mDivOf (P : Params) (p : Nat) : Nat :=
  if 176000 ≤ p then 2 else if 88000 ≤ p then 4 else if 44000 ≤ p then 8 else if 22000 ≤ p then 16
  else match P.pcrLowMDiv with
    | .div16 => 16
    | .div32 => 32

/-- `M_full` (R162). -/
def mFullOf (P : Params) (p : Nat) : Nat := p * mDivOf P p / 25

/-- The dessc setting of a pixel clock (R161). -/
def desscOf (p : Nat) : DesscSetting :=
  if 176000 ≤ p then { div := 2, pre2 := 0 } else if 88000 ≤ p then { div := 4, pre2 := 0 }
  else if 44000 ≤ p then { div := 8, pre2 := 0 } else if 22000 ≤ p then { div := 16, pre2 := 0 }
  else { div := 16, pre2 := 1 }

/-- The PCR setting of a pixel clock, with the draw `lo` for `M_lo` when M is 0 (R162, R166). -/
def pcrOf (P : Params) (p : Nat) (lo : U32) : PcrSetting :=
  { m := BitVec.ofNat 32 (mFullOf P p / 1000),
    k := BitVec.ofNat 24 (mFullOf P p % 1000 * 16384),
    mHi := BitVec.ofNat 32 (mFullOf P p / 1000 + 1),
    mLo := if mFullOf P p / 1000 = 0 then lo else BitVec.ofNat 32 (mFullOf P p / 1000 - 1) }

/-- The number of draws COMPUTE_PCR makes: one when M is 0 (R166). -/
def pcrDraws (P : Params) (p : Nat) : Nat := if mFullOf P p / 1000 = 0 then 1 else 0

/-- The PCR setting COMPUTE_PCR gives in a state: the draw is the free value of that state's counter. -/
def pcrIn (P : Params) (s : State) (p : Nat) : PcrSetting := pcrOf P p (Config.drawU32 s.chip s.draws)

/-- The programming part of STAGE_RXPLL, before its polls (R246, R349). -/
def pllWritesEv (P : Params) (s : State) : List Event :=
  listEv P (P.encDessc (desscOf s.ctx.sel.pclk.toNat))
    ++ listEv P (P.encPcr (pcrIn P s s.ctx.sel.pclk.toNat))

/-- A POLL that reads the bytes `vs` unset and then `v` set (R249). -/
def pollSetEv (P : Params) (i : StatusId) (g : Gap) (vs : List Byte) (v : Byte) : List Event :=
  unsetEv P (P.statusBits i) g vs ++ rdEv P (P.statusBits i).reg v

/-- The bytes `vs` and `v` make a POLL of at most `n` reads end with a set read (R249). -/
def pollSets (P : Params) (i : StatusId) (n : Nat) (vs : List Byte) (v : Byte) : Bool :=
  decide (vs.length < n) && allUnset (P.statusBits i) vs
    && (v.getLsbD (P.statusBits i).bit.val == (P.statusBits i).level)

/-- STAGE_RXPLL with both polls ending set (R246). -/
def rxPllEv (P : Params) (s : State) (vs : List Byte) (v : Byte) (us : List Byte) (u : Byte) :
    List Event :=
  pllWritesEv P s ++ pollSetEv P .pcrStable .pcrGap vs v ++ pollSetEv P .vidchkStable .none us u
    ++ listEv P P.seqTxSrcOn

/-- The context after RxPllConfig has computed its settings (R246). -/
def withPll (P : Params) (s : State) (c : Ctx) : Ctx :=
  { c with dsc := desscOf s.ctx.sel.pclk.toNat, pcr := pcrIn P s s.ctx.sel.pclk.toNat }

/-- COMPUTE_PCR has a result: its product is below 2^32 (R162). -/
def pcrFits (P : Params) (p : Nat) : Bool := decide (p * mDivOf P p < 4294967296)

/-- STAGE_TXVIDCFG before its poll, with the readback `bytes` and the setting `t` (R247, R349). -/
def txCfgWritesEv (P : Params) (bytes : List Byte) (t : TxPllSetting) : List Event :=
  bulkEv P P.pclkRb.span.bank P.pclkRb.span.addr bytes ++ listEv P P.seqTxPllRef
    ++ listEv P (P.encTxPll t) ++ listEv P P.seqTxPllRst

/-- STAGE_TXVIDOUT, with the measured bytes (R248). -/
def txOutEv (P : Params) (bytes : List Byte) : List Event :=
  bulkEv P P.meas.span.bank P.meas.span.addr bytes ++ listEv P (P.txDig (timingOfMeas P bytes))
    ++ listEv P P.seqTxSwRst

/-- A table entry matches a size and a rate (R205). -/
def entryMatches (w h : U16) (r : Byte) (e : TimingEntry) : Bool :=
  decide (e.hact = w ∧ e.vact = h ∧ e.fr.toNat ≤ r.toNat + 3 ∧ r.toNat ≤ e.fr.toNat + 3)

/-- The timing of a table entry (R207, R173). -/
def timingFrom (e : TimingEntry) : VideoTiming :=
  { hfp := e.hfp, hs := e.hs, hbp := e.hbp, hact := e.hact, htotal := e.htotal, vfp := e.vfp,
    vs := e.vs, vbp := e.vbp, vact := e.vact, vtotal := e.vtotal, fr := e.fr,
    pclk := BitVec.ofNat 32 (e.htotal.toNat * e.vtotal.toNat * e.fr.toNat / 1000) }

/-- The pixel clock of a table entry is admitted (R173). -/
def pclkFits (e : TimingEntry) : Bool :=
  decide (e.htotal.toNat * e.vtotal.toNat * e.fr.toNat < 4294967296)

/-- The TX PLL setting of a pixel clock, written from R167 to R172 in exact arithmetic. -/
def txPllOf (P : Params) (p : Nat) : TxPllSetting :=
  let q : Byte := if p < 20000 then 1 else if p < P.txPrediv.t2 then P.txPrediv.v2
    else if p < P.txPrediv.t3 then P.txPrediv.v3 else if p < 320000 then P.txPrediv.v4 else 16
  let phy := p * 7 / 2
  let sd : Byte := if phy < P.txSerdiv.s1 then P.txSerdiv.w1
    else if phy < P.txSerdiv.s2 then P.txSerdiv.w2 else if phy < P.txSerdiv.s3 then P.txSerdiv.w3
    else if phy < P.txSerdiv.s4 then P.txSerdiv.w4 else P.txSerdiv.w5
  let r := phy * sd.toNat * 2 / (p * 7)
  { preDiv := q, serialDiv := sd,
    pixDiv := if p < 150000 ∨ r ≤ 2 then 7 else if r ≤ 4 then 14 else if r ≤ 8 then 28 else 56,
    divreg := BitVec.ofNat 8 (phy * sd.toNat / (p / q.toNat)) }

/-! ## One invocation that brings the output up -/

/-- What the chip reports in one full bring-up. -/
structure BringUp where
  /-- The chip identity Prepare reads. -/
  id : List Byte
  /-- The SOT counter pairs, the RX block, the frame rate and the lane packing DETECT reads. -/
  sot : Fin 4 → Byte × Byte
  blk : List Byte
  fr : Byte
  lp : Byte
  /-- The table entry that matches. -/
  entry : TimingEntry
  /-- The set reads of the three status bits. -/
  pcrByte : Byte
  vidByte : Byte
  lockByte : Byte
  /-- The pixel-clock readback and the measured timing. -/
  readback : List Byte
  measured : List Byte

/-- The pixel clock read back. -/
def BringUp.clock (P : Params) (b : BringUp) : Nat := (pclkOf P b.readback).toNat

/-- The state in which RxPllConfig computes its settings: the selected timing is the entry's. -/
def BringUp.selected (b : BringUp) (s : State) : State :=
  s.modCtx fun c => { c with sel := timingFrom b.entry, selValid := true }

/-- What one full bring-up issues: the five stages in order, each status bit set at its first read (R240 to
R248, R251). -/
def BringUp.trace (P : Params) (b : BringUp) (s : State) : List Event :=
  prepareEv P b.id ++ detectEv P b.sot b.blk b.fr b.lp
    ++ rxPllEv P (b.selected s) [] b.pcrByte [] b.vidByte
    ++ txCfgWritesEv P b.readback (txPllOf P (b.clock P))
    ++ pollSetEv P .txpllLock .txlockGap [] b.lockByte ++ txOutEv P b.measured

/-- The runs stay inside their banks and the reports let every stage succeed: the block gives a size of at least
400 by 400 that the table has at the reported rate, the status bits are set, and the clocks are admitted by the
calculator. -/
def BringUp.Succeeds (P : Params) (b : BringUp) : Prop :=
  let x := parseRxBlock P b.blk
  let d := descOf P b.blk b.fr b.lp
  stagesFit P ∧ b.id.length = P.chipId.span.len.toNat ∧ b.blk.length = 5 ∧ widthFits P x.1 x.2.2 = true
    ∧ 400 ≤ d.hact.toNat ∧ 400 ≤ d.vact.toNat
    ∧ P.timingTable.find? (entryMatches d.hact d.vact d.fr) = some b.entry
    ∧ pclkFits b.entry = true
    ∧ pcrFits P (b.entry.htotal.toNat * b.entry.vtotal.toNat * b.entry.fr.toNat / 1000) = true
    ∧ pollSets P .pcrStable 50 [] b.pcrByte = true ∧ pollSets P .vidchkStable 50 [] b.vidByte = true
    ∧ pollSets P .txpllLock 4 [] b.lockByte = true
    ∧ b.readback.length = P.pclkRb.span.len.toNat ∧ b.measured.length = P.meas.span.len.toNat
    ∧ 1 ≤ b.clock P ∧ b.clock P < 2400000

/-- The context after a full bring-up, from the context before it (R243 to R248, R251). -/
def BringUp.ctxAfter (P : Params) (b : BringUp) (s : State) : Ctx :=
  { s.ctx with
    stage := 4, desc := descOf P b.blk b.fr b.lp, sel := timingFrom b.entry, selValid := true,
    dsc := desscOf (timingFrom b.entry).pclk.toNat,
    pcr := pcrIn P s (timingFrom b.entry).pclk.toNat,
    pclkRb := pclkOf P b.readback, txpll := txPllOf P (b.clock P),
    live := timingOfMeas P b.measured, steady := true, err := 0,
    accessCount := s.ctx.accessCount + (b.trace P s).countP Event.isBus }

/-! ## Word tables, written from R110 and R108 -/

/-- The lifecycle rows of R110: opcode byte and format. -/
def lifecycleFormats : List (Byte × Format) :=
  [(0x01#8, Format.h8), (0x02#8, Format.z), (0x03#8, Format.z), (0x04#8, Format.z),
   (0x05#8, Format.z)]

/-- The transport rows of R110: opcode byte and format. -/
def transportFormats : List (Byte × Format) :=
  [(0x10#8, Format.t1), (0x11#8, Format.t3), (0x12#8, Format.ts), (0x13#8, Format.t2),
   (0x14#8, Format.tn)]

/-- The calculator rows of R110: opcode byte and format. -/
def calculatorFormats : List (Byte × Format) :=
  [(0x20#8, Format.c32), (0x21#8, Format.c32), (0x22#8, Format.c32), (0x23#8, Format.c32),
   (0x24#8, Format.c32), (0x25#8, Format.c32s), (0x26#8, Format.c32qs), (0x27#8, Format.c32),
   (0x28#8, Format.ct)]

/-- The detector rows of R110: opcode byte and format. -/
def detectorFormats : List (Byte × Format) :=
  [(0x30#8, Format.df), (0x31#8, Format.dwf), (0x32#8, Format.dwh), (0x33#8, Format.z),
   (0x34#8, Format.dwhr)]

/-- The sequencer rows of R110: opcode byte and format. -/
def sequencerFormats : List (Byte × Format) :=
  [(0x40#8, Format.z), (0x41#8, Format.z), (0x42#8, Format.z), (0x43#8, Format.z),
   (0x44#8, Format.z), (0x45#8, Format.sp), (0x46#8, Format.sd), (0x47#8, Format.sr),
   (0x48#8, Format.z)]

/-- The opcode bytes of R110, each with its format. -/
def opcodeFormats : List (Byte × Format) :=
  lifecycleFormats ++ transportFormats ++ calculatorFormats ++ detectorFormats ++ sequencerFormats

/-- An opcode byte of R110. -/
def isOpcode (op : Byte) : Bool := opcodeFormats.any fun r => r.1 == op

/-- The count byte of a TS word, 0 where it is missing (R113). -/
def countByte (tl : List Byte) : Nat :=
  match tl with
  | _ :: n :: _ => n.toNat
  | _ => 0

/-! ## Where operations run, and how they stop -/

/-- A state in which an operation that only computes runs: any but one with a detached context (R116, log 4). -/
def computes (s : State) : Bool := !(s.constructed && s.ctx.detached)

/-- `i` is refused on a detached context (R116, R140, R310). Where a stop of the operation's own could come first,
that it does not is the model's choice (log 33). -/
def refusedDetached (i : Instr) : Prop :=
  ∀ s : State, s.constructed = true → s.ctx.detached = true → exec i s = .refused .detachedContext

/-- Event `k` of a trace is a bus transaction. -/
def busAt (T : List Event) (k : Nat) : Bool := (T[k]?.map Event.isBus).getD false

/-- Where the oracle returns `Err` for the transaction `k` of the trace `T`, `i` issues nothing more and its
result is a TransportError (R141, R318). `f k` is what `i` did to the context until then. -/
def failsAtCut (i : Instr) (s s0 : State) (T : List Event) (f : Nat → Ctx → Ctx) : Prop :=
  ∀ k : Nat, busAt T k = true → gives s (cutAt T k) = true →
    exec i s = .next (((play (cutAt T k) s0).modCtx (f k)).record (.fail .transportError))

/-! ## Taking a failure, written from R245, R250 and R257 -/

/-- After `SCHEDULE d`: an invocation is pending (R250). -/
def scheduled (P : Params) (d : DelayClass) (s : State) : State :=
  { s with ctx := { s.ctx with pending := true }, history := s.history ++ schedEv P s d }

/-- The counter after one more failure, before the comparison (R245). -/
def retryCounted (k : Bool) (s : State) : Nat :=
  if k then 0 else (s.ctx.retry.toNat + 1) % 4294967296

/-- RETRY_UPDATE falls back to Prepare (R245). -/
def retryFalls (k : Bool) (s : State) : Bool := decide (30 < retryCounted k s)

/-- After `RETRY_UPDATE k, e` (R245). -/
def retried (P : Params) (k : Bool) (e : ErrCode) (s : State) : State :=
  scheduled P .short (s.modCtx fun c =>
    { c with
      retry := if retryFalls k s && P.retryClearOnFallback then 0 else BitVec.ofNat 32 (retryCounted k s),
      stage := if retryFalls k s then 0 else c.stage,
      err := e.code })

/-- After INVOKE has taken a transport error (R257). -/
def deferred (P : Params) (s : State) : State :=
  scheduled P .defer (s.modCtx fun c => { c with err := 1 })

/-- The fields DETECT has written when the transaction of event `k` of its trace fails: the size and format
come after the settle write and the RX block (20 transactions), the rate after 2 more (R204). -/
def descCut (P : Params) (blk : List Byte) (fr : Byte) (k : Nat) : RxVideoDescriptor :=
  let x := parseRxBlock P blk
  if k < 20 then { wc := 0, vact := 0, hact := 0, fmt := 0, lanepack := 0, fr := 0 }
  else { wc := x.1, vact := x.2.1, hact := 0, fmt := x.2.2, lanepack := 0, fr := if k < 22 then 0 else fr }

/-- COMPUTE_TX_PLL has a result: every product is below 2^32 (R168, R170, R171, R172). -/
def txPllFits (P : Params) (p : Nat) : Bool :=
  decide (p * 7 < 4294967296 ∧ p * 7 / 2 * (txPllOf P p).serialDiv.toNat < 4294967296
    ∧ (150000 ≤ p → p * 7 / 2 * (txPllOf P p).serialDiv.toNat * 2 < 4294967296))

/-- STAGE_RXPLL whose video check runs out: both polls, the bytes `us` all unset (R246, D27). -/
def rxPllTimeoutEv (P : Params) (s : State) (vs : List Byte) (v : Byte) (us : List Byte) : List Event :=
  pllWritesEv P s ++ pollSetEv P .pcrStable .pcrGap vs v
    ++ unsetEv P (P.statusBits .vidchkStable) .none us ++ [.log .vidChkTimeout] ++ listEv P P.seqTxSrcOn

/-- The stage operation of a control point (R251). -/
def stageInstr (c : BitVec 3) : Option Instr :=
  if c = 0 then some .stagePrepare else if c = 1 then some .stageRxtiming
  else if c = 2 then some .stageRxpll else if c = 3 then some .stageTxvidcfg
  else if c = 4 then some .stageTxvidout else none

/-- An invocation that starts at the control point `a` can leave the control point `b`: forward along the
graph, back to RxTimingConfig, and from RxTimingConfig to Prepare (R240). -/
def edgeReach (a b : BitVec 3) : Bool :=
  match a.toNat with
  | 0 => decide (b.toNat ≤ 4)
  | 1 => decide (b.toNat ≤ 4)
  | 2 => decide (1 ≤ b.toNat ∧ b.toNat ≤ 4)
  | 3 => decide (3 ≤ b.toNat ∧ b.toNat ≤ 4)
  | n => decide (b.toNat = n)

/-! ## Decoding and parameters, written from R112, R167, R169, R200 and R205 -/

/-- The word at the head of a byte string is long enough and has a reserved operand value (R112). -/
def reservedHead (bytes : List Byte) : Bool :=
  match bytes with
  | 0x01#8 :: c :: _ => decide (8 ≤ c.toNat)
  | 0x30#8 :: f :: _ => decide (16 ≤ f.toNat)
  | 0x31#8 :: _ :: _ :: f :: _ => decide (16 ≤ f.toNat)
  | 0x45#8 :: i :: _ :: g :: _ => decide (2 < i.toNat ∨ 2 < g.toNat)
  | 0x46#8 :: d :: _ => decide (3 < d.toNat)
  | 0x47#8 :: k :: e :: _ => decide (1 < k.toNat ∨ 9 < e.toNat)
  | _ => false

/-- The conditions of R167, R169, R200 and R205 on the parameters. -/
def ParamsLegal (P : Params) : Prop :=
  (20000 ≤ P.txPrediv.t2 ∧ P.txPrediv.t2 ≤ P.txPrediv.t3 ∧ P.txPrediv.t3 ≤ 320000)
  ∧ (P.txPrediv.v2 ≠ 0 ∧ P.txPrediv.v3 ≠ 0 ∧ P.txPrediv.v4 ≠ 0)
  ∧ (P.txSerdiv.s1 ≤ P.txSerdiv.s2 ∧ P.txSerdiv.s2 ≤ P.txSerdiv.s3 ∧ P.txSerdiv.s3 ≤ P.txSerdiv.s4)
  ∧ (P.txSerdiv.w1 ≠ 0 ∧ P.txSerdiv.w2 ≠ 0 ∧ P.txSerdiv.w3 ≠ 0 ∧ P.txSerdiv.w4 ≠ 0
    ∧ P.txSerdiv.w5 ≠ 0)
  ∧ P.bpp.length = 16 ∧ P.bpp.countP Option.isSome = 13
  ∧ (∀ m d : Nat, some (m, d) ∈ P.bpp → 1 ≤ d)
  ∧ (P.fmtRaw10 ≠ P.fmtYuv422 ∧ P.fmtRaw10 ≠ 0x0a ∧ P.fmtYuv422 ≠ 0x0a)
  ∧ P.bppEntry 0x0a = some (1, 3) ∧ P.bppEntry P.fmtRaw10 = some (5, 4)
  ∧ P.bppEntry P.fmtYuv422 = some (5, 2)
  ∧ P.timingTable.length = 21

/-- The five transport operations (41_transport.md). -/
def isTransport (i : Instr) : Bool :=
  match i with
  | .banksel _ | .wr _ _ _ | .wrseq _ _ | .rd _ _ | .rdbulk _ _ _ => true
  | _ => false

/-- The five stage operations (44_sequencer.md, section 2). -/
def isStage (i : Instr) : Bool :=
  match i with
  | .stagePrepare | .stageRxtiming | .stageRxpll | .stageTxvidcfg | .stageTxvidout => true
  | _ => false

/-- The number the bytes `bs` of consecutive registers spell, by the weight of each place (R77): with the most
significant byte first the last byte weighs 1, with the least significant first the first does. -/
def assembled (o : FieldOrder) (bs : List Byte) : Nat :=
  ((List.range bs.length).map fun i =>
    (bs.getD i 0).toNat * 256 ^ (match o with | .msbFirst => bs.length - 1 - i | .lsbFirst => i)).sum

/-- A transaction for which the oracle returned `Err` (R140). -/
def isErr (e : Event) : Bool :=
  match e with
  | .busW _ _ ok => !ok
  | .busR _ r => r.isNone
  | _ => false

/-- Two results of one operation with the same operands: equal, but for `M_lo` where M is 0 (R166, R174). -/
def sameResult (r r' : Result) : Prop :=
  match r, r' with
  | .ok (.pcr d c), .ok (.pcr d' c') =>
    d = d' ∧ { c with mLo := 0 } = { c' with mLo := 0 } ∧ (c.m ≠ 0 → c = c')
  | _, _ => r = r'

/-! ## Invariants -/

/-- The codes the context holds are codes: the stage one of the five, the error one of R300 (R32, R261 (f),
R300). -/
def codesLegal (s : State) : Prop := s.ctx.stage.toNat ≤ 4 ∧ s.ctx.err.toNat ≤ 9

/-- The access counter of a context counts its transactions (R45, R140). -/
def countAgrees (s : State) : Prop :=
  s.constructed = true → s.ctx.accessCount = Hist.accesses s.history

/-- Every transaction so far has a logical location (R73). -/
def located (P : Params) (s : State) : Prop := Hist.located P s.history = true

/-- A live context is one whose DSI host is attached (R31, R253, R256). -/
def attachedAgrees (s : State) : Prop := s.live = Hist.dsiAttached s.history

/-- RxPllConfig is the control point only with a selected timing (R261 (d)). -/
def timingReady (s : State) : Prop := s.ctx.stage = 2#3 → s.ctx.selValid = true

/-- The selected timing, once there is one, is that of a table entry, with the pixel clock of R173 (R207). -/
def selectedFromTable (P : Params) (s : State) : Prop :=
  s.ctx.selValid = true →
    ∃ e : TimingEntry, e ∈ P.timingTable ∧ pclkFits e = true ∧ s.ctx.sel = timingFrom e

/-- The retry counter does not exceed its limit (R245, D25). -/
def retryBounded (s : State) : Prop := s.ctx.retry.toNat ≤ 30

/-- A run is quiescent (R260): no invocation is pending, or the context is detached. -/
def quiescent (s : State) : Prop := s.ctx.pending = false ∨ s.ctx.detached = true

/-- Operations that only compute (R174; 43_detector.md, first paragraph). -/
def isPure (i : Instr) : Bool :=
  match i with
  | .pcrBand _ | .computePcr _ | .txPrediv _ | .txPhyclk _ | .txSerdiv _ | .txPixmux _ _
  | .txDivreg _ _ _ | .computeTxPll _ | .pclkOfTiming _ _ _ | .bppLookup _ | .activeWidth _ _
  | .videoCheck _ _ | .modeLookup _ _ _ => true
  | _ => false

end Sys2Proof.Safety
end

