-- ==== Sys2Proof/Certificates/Slice0/Obligations.lean ====
section
/-! DEFINITION. The statements for the provers, from the numbered rules of spec/. `Config.P` is the parameter
set of the machine `exec` and `step` describe; a clause that needs a particular kind of parameter set is stated
for every set, with `execWith`. -/

open Sys2Proof Sys2Proof.Machine Sys2Proof.Safety

/-! ## Operation words -/

/-- R107, R108, R113: the word of an operation decodes to it, whatever bytes follow, and a word that decodes is
the word of a well-formed operation. -/
def Obligations.DecodeInvertsEncode : Prop :=
  (∀ (i : Instr) (rest : List Byte), i.wellFormed = true → decode (encode i ++ rest) = .ok i rest)
  ∧ ∀ (bytes rest : List Byte) (i : Instr), decode bytes = .ok i rest →
      i.wellFormed = true ∧ bytes = encode i ++ rest

/-- R111: an unassigned opcode is refused, a word shorter than its format is refused, and 223 opcode values
are unassigned. -/
def Obligations.IllegalAndShortWordsAreRefused : Prop :=
  (∀ (s : State) (op : Byte) (tl : List Byte), s.program = op :: tl → isOpcode op = false →
    step s = .refused .illegal)
  ∧ (∀ (s : State) (op : Byte) (tl : List Byte) (f : Format), s.program = op :: tl →
    (op, f) ∈ opcodeFormats → tl.length + 1 < f.length (countByte tl) → step s = .refused .truncated)
  ∧ ((List.range 256).countP fun n => !isOpcode (BitVec.ofNat 8 n)) = 223

/-- R112, R111: the reserved operand values, and no others, are refused at decode as Reserved. A word too short for
its format is Truncated, whatever its operands: that order is the model's reading (log 11). -/
def Obligations.ReservedOperandsAreRefused : Prop :=
  (∀ bytes : List Byte, decode bytes = .bad .reserved ↔ reservedHead bytes = true)
  ∧ ∀ s : State, reservedHead s.program = true → step s = .refused .reserved

/-- Words written out from R108 to R110 (95_test_vectors.md, section 3.1). -/
def Obligations.SampleWordsDecode : Prop :=
  decode [0x01, 0x07] = .ok (.attach 7) []
  ∧ decode [0x11, 0x81, 0x10, 0x3C] = .ok (.wr 0x81 0x10 0x3C) []
  ∧ decode [0x12, 0x82, 0x02, 0x01, 0x00, 0x01, 0x80] = .ok (.wrseq 0x82 [(0x01, 0x00), (0x01, 0x80)]) []
  ∧ decode [0x21, 0x00, 0x02, 0x44, 0x14] = .ok (.computePcr 148500) []
  ∧ decode [0x28, 0x08, 0x98, 0x04, 0x65, 0x3C] = .ok (.pclkOfTiming 2200 1125 60) []
  ∧ decode [0x31, 0x16, 0x80, 0x0A] = .ok (.activeWidth 5760 0x0a) []
  ∧ decode [0x45, 0x00, 0x32, 0x01] = .ok (.poll .pcrStable 50 .pcrGap) []
  ∧ decode [0x47, 0x01, 0x02] = .ok (.retryUpdate true .noVideo) []

/-- A step runs the operation at the head of the program, the bytes after its word being left to run; a word
that does not decode is refused by name; with nothing left to run the block does nothing (R107, R116; the last
clause and the list of words to run are the model's, log 1). -/
def Obligations.StepRunsTheDecodedOperation : Prop :=
  ∀ s : State,
    (∀ (i : Instr) (rest : List Byte), decode s.program = .ok i rest → step s = exec i (s.advance rest))
    ∧ (∀ e : DecodeError, s.program ≠ [] → decode s.program = .bad e → step s = .refused (decodeRefusal e))
    ∧ (s.program = [] → step s = .next s)

/-- R310, BadParameter: every run with an ill-formed parameter set is refused, none with a legal one is refused
for it; the machine of `exec` and `step` is the parametric one at `Config.P`, a legal set (log 28). -/
def Obligations.ParametersAreCheckedBeforeTheRun : Prop :=
  (∀ (P : Params) (s : State), ¬ ParamsLegal P → stepWith P s = .refused .badParameter)
  ∧ (∀ (P : Params) (s : State) (i : Instr) (rest : List Byte), ParamsLegal P →
    decode s.program = .ok i rest → stepWith P s = execWith P i (s.advance rest))
  ∧ ParamsLegal Config.P ∧ (∀ s : State, step s = stepWith Config.P s)
  ∧ ∀ (i : Instr) (s : State), exec i s = execWith Config.P i s

/-! ## Reset and the host commands -/

/-- R340: construction leaves every field of the context at its reset value. -/
def Obligations.AttachBuildsTheResetRecord : Prop :=
  ∀ s : State, s.live = false →
    exec (.attach 7) s = .next { s with
      constructed := true,
      ctx := {
        stage := 0, retry := 0,
        desc := { wc := 0, vact := 0, hact := 0, fmt := 0, lanepack := 0, fr := 0 },
        sel := { hfp := 0, hs := 0, hbp := 0, hact := 0, htotal := 0, vfp := 0, vs := 0, vbp := 0,
                 vact := 0, vtotal := 0, fr := 0, pclk := 0 },
        selValid := false, dsc := { div := 0, pre2 := 0 },
        pcr := { m := 0, k := 0, mHi := 0, mLo := 0 }, pclkRb := 0,
        txpll := { preDiv := 0, serialDiv := 0, pixDiv := 0, divreg := 0 },
        live := { hfp := 0, hs := 0, hbp := 0, hact := 0, htotal := 0, vfp := 0, vs := 0, vbp := 0,
                  vact := 0, vtotal := 0, fr := 0, pclk := 0 },
        pending := false, detached := false, steady := false, err := 0, accessCount := 0 },
      history := s.history ++ [Event.dsiAttach],
      results := s.results ++ [.ok .unit] }

/-- The state after reset is the state construction leaves (the model's choice, log 2), and it meets the
invariants stated below. -/
def Obligations.ResetMeetsTheInvariants : Prop :=
  exec (.attach 7) State.unconstructed = .next State.reset
  ∧ codesLegal State.reset ∧ timingReady State.reset ∧ countAgrees State.reset
  ∧ located Config.P State.reset ∧ selectedFromTable Config.P State.reset ∧ retryBounded State.reset
  ∧ attachedAgrees State.reset ∧ quiescent State.reset

/-- R253: ATTACH checks for a live context, the reset handle, the clock and the DSI host, in this order, and
creates a context only when all hold. -/
def Obligations.AttachFollowsItsChecks : Prop :=
  ∀ (c : BitVec 3) (s : State),
    encode (.attach c) = [0x01, c.setWidth 8]
    ∧ (s.live = true → exec (.attach c) s = .refused .alreadyConstructed)
    ∧ (s.live = false → c.getLsbD 0 = false → exec (.attach c) s = .next (s.record (.fail .missingGpio)))
    ∧ (s.live = false → c.getLsbD 0 = true → c.getLsbD 1 = false →
        exec (.attach c) s = .next (s.record (.fail .missingClock)))
    ∧ (s.live = false → c.getLsbD 0 = true → c.getLsbD 1 = true → c.getLsbD 2 = false →
        exec (.attach c) s = .next (s.record (.fail .dsiAttachDefer)))
    ∧ (s.live = false → c.getLsbD 0 = true → c.getLsbD 1 = true → c.getLsbD 2 = true →
        exec (.attach c) s = .next { s with
          constructed := true, ctx := Ctx.reset, history := s.history ++ [Event.dsiAttach],
          results := s.results ++ [.ok .unit] })

/-- R254: ENABLE moves to Prepare, clears `steady`, makes an invocation pending and returns ok; every other
field keeps its value. -/
def Obligations.EnableRestartsBringUp : Prop :=
  encode .enable = [0x02]
  ∧ (∀ s : State, s.live = true →
      exec .enable s = .next ({ s with
        ctx := { s.ctx with stage := 0, steady := false, pending := true },
        history := s.history ++ schedEv Config.P s .now }.record (.ok .unit)))
  ∧ refusedDetached .enable
  ∧ ∀ s : State, s.constructed = false → exec .enable s = .refused .notConstructed

/-- R255: DISABLE reads and writes nothing. -/
def Obligations.DisableChangesNothing : Prop :=
  encode .disable = [0x03]
  ∧ (∀ s : State, s.live = true → exec .disable s = .next (s.record (.ok .unit)))
  ∧ refusedDetached .disable
  ∧ ∀ s : State, s.constructed = false → exec .disable s = .refused .notConstructed

/-- R256: DETACH cancels the pending invocation, marks the context detached and releases the DSI host. -/
def Obligations.DetachCancelsAndReleases : Prop :=
  encode .detach = [0x04]
  ∧ (∀ s : State, s.live = true →
      exec .detach s = .next ({ s with
        ctx := { s.ctx with pending := false, detached := true },
        history := s.history ++ [Event.dsiRelease] }.record (.ok .unit)))
  ∧ refusedDetached .detach
  ∧ ∀ s : State, s.constructed = false → exec .detach s = .refused .notConstructed

/-- R252: TICK clears the pending flag and runs one invocation; with none pending, or on a detached context,
it does nothing; without a context it is refused. -/
def Obligations.TickRunsThePendingInvocation : Prop :=
  encode .tick = [0x05]
  ∧ ∀ s : State,
    (s.constructed = false → exec .tick s = .refused .notConstructed)
    ∧ (s.constructed = true → s.ctx.detached = true → exec .tick s = .next (s.record (.ok .unit)))
    ∧ (s.live = true → s.ctx.pending = false → exec .tick s = .next (s.record (.ok .unit)))
    ∧ (s.live = true → s.ctx.pending = true →
        exec .tick s = exec .invoke (s.modCtx fun c => { c with pending := false }))

/-- R116, R252, R253, R310: on a detached context every operation but TICK and ATTACH is refused, and before
construction every other host command is. That the unit operations which use the context are refused before
construction, and those which only compute are not, is the model's choice (log 4); so is that on a detached context
`detachedContext` comes before any stop of the operation's own, such as `bulkWrap`, `noTiming` or `overflow`
(log 33). -/
def Obligations.DestroyedContextIsRefused : Prop :=
  (∀ i : Instr, i ≠ .tick → (∀ c : BitVec 3, i ≠ .attach c) → refusedDetached i)
  ∧ (∀ (i : Instr) (s : State), s.constructed = false → isPure i = false →
      (∀ c : BitVec 3, i ≠ .attach c) → exec i s = .refused .notConstructed)

/-- R44: DETACH sets `detached`, and while it is set no operation clears it (a new ATTACH makes a new context)
or issues a bus transaction. -/
def Obligations.DetachedContextIsFrozen : Prop :=
  (∀ s t : State, exec .detach s = .next t → t.ctx.detached = true)
  ∧ (∀ (i : Instr) (s t : State), s.constructed = true → s.ctx.detached = true → exec i s = .next t →
      (∀ c : BitVec 3, i ≠ .attach c) → t.ctx = s.ctx ∧ t.history = s.history)
  ∧ ∀ (c : BitVec 3) (s t : State), exec (.attach c) s = .next t →
      t.history = s.history ∨ t.history = s.history ++ [Event.dsiAttach]

/-! ## Register transport -/

/-- R142: BANKSEL writes the bank-select register, whatever bank is selected, and leaves bank `b` selected. -/
def Obligations.BankselSelectsTheBank : Prop :=
  ∀ b : Byte,
    encode (.banksel b) = [0x10, b] ∧ refusedDetached (.banksel b)
    ∧ ∀ s : State, s.live = true →
      (gives s [bankEv Config.P b] = true →
        exec (.banksel b) s = .next ((play [bankEv Config.P b] s).record (.ok .unit)))
      ∧ failsAtCut (.banksel b) s s [bankEv Config.P b] (fun _ c => c)
      ∧ Hist.bank Config.P (s.history ++ [bankEv Config.P b]) = some b

/-- R143: WR selects the bank and writes the register; a write to the bank-select register leaves bank `v`
selected. -/
def Obligations.WrWritesOneRegister : Prop :=
  ∀ b a v : Byte,
    encode (.wr b a v) = [0x11, b, a, v] ∧ refusedDetached (.wr b a v)
    ∧ ∀ s : State, s.live = true →
      (gives s (wrEv Config.P b a v) = true →
        exec (.wr b a v) s = .next ((play (wrEv Config.P b a v) s).record (.ok .unit)))
      ∧ failsAtCut (.wr b a v) s s (wrEv Config.P b a v) (fun _ c => c)
      ∧ Hist.bank Config.P (s.history ++ wrEv Config.P b a v)
          = some (if a = Config.P.bankSelAddr then v else b)

/-- R144: WRSEQ selects the bank and writes the pairs in order, none left out or merged, up to the first
`Err`. -/
def Obligations.WrseqWritesInOrder : Prop :=
  ∀ (b : Byte) (ps : List (Byte × Byte)),
    encode (.wrseq b ps) = 0x12 :: b :: BitVec.ofNat 8 ps.length :: ps.flatMap (fun p => [p.1, p.2])
    ∧ refusedDetached (.wrseq b ps)
    ∧ ∀ s : State, s.live = true →
      (gives s (wrSeqEv Config.P b ps) = true →
        exec (.wrseq b ps) s = .next ((play (wrSeqEv Config.P b ps) s).record (.ok .unit)))
      ∧ failsAtCut (.wrseq b ps) s s (wrSeqEv Config.P b ps) (fun _ c => c)

/-- R145: RD selects the bank and returns the byte the oracle answers. -/
def Obligations.RdReadsOneRegister : Prop :=
  ∀ b a : Byte,
    encode (.rd b a) = [0x13, b, a] ∧ refusedDetached (.rd b a)
    ∧ ∀ (s : State) (v : Byte), s.live = true →
      (gives s (rdEv Config.P ⟨b, a⟩ v) = true →
        exec (.rd b a) s = .next ((play (rdEv Config.P ⟨b, a⟩ v) s).record (.ok (.u8 v))))
      ∧ failsAtCut (.rd b a) s s (rdEv Config.P ⟨b, a⟩ v) (fun _ c => c)

/-- R146: RDBULK selects the bank and reads `n` consecutive addresses, one transaction each; past 0xFF it is
refused before any transaction. How a run past 0xFF is refused on a detached context is stated in
`DestroyedContextIsRefused` (log 33). -/
def Obligations.RdbulkReadsConsecutive : Prop :=
  ∀ b a n : Byte,
    encode (.rdbulk b a n) = [0x14, b, a, n]
    ∧ ((n.toNat = 0 ∨ a.toNat + n.toNat - 1 ≤ 255) → refusedDetached (.rdbulk b a n))
    ∧ ∀ s : State, s.live = true →
      (1 ≤ n.toNat → 255 < a.toNat + n.toNat - 1 → exec (.rdbulk b a n) s = .refused .bulkWrap)
      ∧ ∀ bs : List Byte, bs.length = n.toNat → (n.toNat = 0 ∨ a.toNat + n.toNat - 1 ≤ 255) →
        (gives s (bulkEv Config.P b a bs) = true →
          exec (.rdbulk b a n) s = .next ((play (bulkEv Config.P b a bs) s).record (.ok (.bytes bs))))
        ∧ failsAtCut (.rdbulk b a n) s s (bulkEv Config.P b a bs) (fun _ c => c)

/-- R141: whatever the oracle answers, a transport operation that runs ends with a value and no `Err`, or with
TransportError and one `Err`, its last transaction; and every one but a wrapping RDBULK runs. -/
def Obligations.TransportStopsAtTheFirstErr : Prop :=
  ∀ (i : Instr) (s : State), isTransport i = true → s.live = true →
    (∀ t : State, exec i s = .next t → ∃ T : List Event,
      t.history = s.history ++ T ∧ T.all Event.isBus = true
      ∧ ((∃ v : Value, t.results = s.results ++ [.ok v] ∧ T.any isErr = false)
        ∨ (t.results = s.results ++ [.fail .transportError]
          ∧ ∃ (T' : List Event) (e : Event), T = T' ++ [e] ∧ T'.any isErr = false ∧ isErr e = true)))
    ∧ ((∀ b a n : Byte, i = .rdbulk b a n → n.toNat = 0 ∨ a.toNat + n.toNat - 1 ≤ 255) →
        ∃ t : State, exec i s = .next t)

/-- R45, R140, R31, R253, R256: every step keeps the access counter of a context equal to the number of its
transactions in the history, and keeps a context live exactly while its DSI host is attached. -/
def Obligations.ContextAgreesWithItsHistory : Prop :=
  (∀ s t : State, countAgrees s → step s = .next t → countAgrees t)
  ∧ ∀ s t : State, attachedAgrees s → step s = .next t → attachedAgrees t

/-- R73, R84, R345: every transaction of a run has a logical location: some bank is selected, by a write after
the latest chip reset, whenever an address other than the bank-select register's is accessed. -/
def Obligations.EveryAccessHasItsBank : Prop :=
  ∀ s t : State, located Config.P s → step s = .next t → located Config.P t

/-- R20, R82, R260, R318: an operation that completes appends its events to the history and its one result to
the results, takes nothing back, and uses up one scripted answer for each of its transactions. -/
def Obligations.EveryOperationAppendsItsRecord : Prop :=
  ∀ (i : Instr) (s t : State), exec i s = .next t →
    ∃ (T : List Event) (r : Result), t.history = s.history ++ T ∧ t.results = s.results ++ [r]
      ∧ t.script = s.script.drop (T.countP Event.isBus) ∧ t.program = s.program ∧ t.chip = s.chip
      ∧ s.draws ≤ t.draws ∧ (s.constructed = true → t.constructed = true)

/-! ## Clock and PLL calculator -/

/-- R161: the divider and the prescaler flag of each band, each threshold belonging to the band above it. -/
def Obligations.PcrBandSelectsTheDivider : Prop :=
  refusedDetached (.pcrBand 0) ∧
  ∀ (p : U32) (s : State), computes s = true →
    encode (.pcrBand p) = 0x20 :: bytes32 p
    ∧ (176000 ≤ p.toNat → exec (.pcrBand p) s = .next (s.record (.ok (.dessc ⟨2, 0⟩))))
    ∧ (88000 ≤ p.toNat → p.toNat < 176000 →
        exec (.pcrBand p) s = .next (s.record (.ok (.dessc ⟨4, 0⟩))))
    ∧ (44000 ≤ p.toNat → p.toNat < 88000 →
        exec (.pcrBand p) s = .next (s.record (.ok (.dessc ⟨8, 0⟩))))
    ∧ (22000 ≤ p.toNat → p.toNat < 44000 →
        exec (.pcrBand p) s = .next (s.record (.ok (.dessc ⟨16, 0⟩))))
    ∧ (p.toNat < 22000 → exec (.pcrBand p) s = .next (s.record (.ok (.dessc ⟨16, 1⟩))))

/-- R162, R165, R166: the divider and the multiplier setting of a pixel clock; M_lo is a free value when M is 0;
refused when the product is at or above 2^32. -/
def Obligations.ComputePcrComputesTheSetting : Prop :=
  ∀ (p : U32) (s : State), computes s = true →
    encode (.computePcr p) = 0x21 :: bytes32 p
    ∧ (pcrFits Config.P p.toNat = true →
        exec (.computePcr p) s = .next ({ s with draws := s.draws + pcrDraws Config.P p.toNat }.record
          (.ok (.pcr (desscOf p.toNat) (pcrIn Config.P s p.toNat)))))
    ∧ (pcrFits Config.P p.toNat = false → exec (.computePcr p) s = .refused .overflow)

/-- R163, R104: the range of the result for every admitted clock: K is the thousandths, at most 999, shifted by
14, and M lies between 14 and 28 in the bands from 22000 to 352000 kHz. -/
def Obligations.PcrSettingsStayInRange : Prop :=
  ∀ (p : U32) (s : State), computes s = true → p.toNat < 2147483648 →
    ∃ (t : State) (d : DesscSetting) (c : PcrSetting), exec (.computePcr p) s = .next t
      ∧ t.results = s.results ++ [.ok (.pcr d c)]
      ∧ c.k.toNat % 16384 = 0 ∧ c.k.toNat / 16384 ≤ 999
      ∧ (22000 ≤ p.toNat → p.toNat < 352000 → 14 ≤ c.m.toNat ∧ c.m.toNat ≤ 28)
      ∧ (352000 ≤ p.toNat → 28 ≤ c.m.toNat)
      ∧ (p.toNat < 22000 → Config.P.pcrLowMDiv = .div16 → c.m.toNat ≤ 14)
      ∧ (p.toNat < 22000 → c.m.toNat ≤ 28)
      ∧ c.mHi.toNat = c.m.toNat + 1 ∧ (1 ≤ c.m.toNat → c.mLo.toNat + 1 = c.m.toNat)

/-- R168: the physical clock is seven halves of the pixel clock, rounded down; refused from 613566757 on. -/
def Obligations.TxPhyclkIsSevenHalves : Prop :=
  ∀ (p : U32) (s : State), computes s = true →
    encode (.txPhyclk p) = 0x23 :: bytes32 p
    ∧ (p.toNat < 613566757 →
        exec (.txPhyclk p) s = .next (s.record (.ok (.u32 (BitVec.ofNat 32 (p.toNat * 7 / 2))))))
    ∧ (613566757 ≤ p.toNat → exec (.txPhyclk p) s = .refused .overflow)

/-- R167, R169: the pre-divider of each pixel-clock band and the serial-clock divider of each physical-clock
band. -/
def Obligations.TxDividersSelectTheBand : Prop :=
  ∀ (p : U32) (s : State), computes s = true →
    (encode (.txPrediv p) = 0x22 :: bytes32 p
      ∧ exec (.txPrediv p) s = .next (s.record (.ok (.u8
          (if p.toNat < 20000 then 1
           else if p.toNat < Config.P.txPrediv.t2 then Config.P.txPrediv.v2
           else if p.toNat < Config.P.txPrediv.t3 then Config.P.txPrediv.v3
           else if p.toNat < 320000 then Config.P.txPrediv.v4
           else 16)))))
    ∧ encode (.txSerdiv p) = 0x24 :: bytes32 p
    ∧ exec (.txSerdiv p) s = .next (s.record (.ok (.u8
        (if p.toNat < Config.P.txSerdiv.s1 then Config.P.txSerdiv.w1
         else if p.toNat < Config.P.txSerdiv.s2 then Config.P.txSerdiv.w2
         else if p.toNat < Config.P.txSerdiv.s3 then Config.P.txSerdiv.w3
         else if p.toNat < Config.P.txSerdiv.s4 then Config.P.txSerdiv.w4
         else Config.P.txSerdiv.w5))))

/-- R170: 7 below 150000 kHz, otherwise the bucket of the clock ratio; refused when a product is at or above
2^32. -/
def Obligations.TxPixmuxBucketsTheRatio : Prop :=
  ∀ (p : U32) (sd : Byte) (s : State), computes s = true →
    encode (.txPixmux p sd) = 0x25 :: (bytes32 p ++ [sd])
    ∧ (p.toNat < 150000 → exec (.txPixmux p sd) s = .next (s.record (.ok (.u8 7))))
    ∧ (150000 ≤ p.toNat → p.toNat * 7 < 4294967296 → p.toNat * 7 / 2 * sd.toNat * 2 < 4294967296 →
        exec (.txPixmux p sd) s = .next (s.record (.ok (.u8
          (if p.toNat * 7 / 2 * sd.toNat * 2 / (p.toNat * 7) ≤ 2 then 7
           else if p.toNat * 7 / 2 * sd.toNat * 2 / (p.toNat * 7) ≤ 4 then 14
           else if p.toNat * 7 / 2 * sd.toNat * 2 / (p.toNat * 7) ≤ 8 then 28
           else 56)))))
    ∧ (150000 ≤ p.toNat → (4294967296 ≤ p.toNat * 7 ∨ 4294967296 ≤ p.toNat * 7 / 2 * sd.toNat * 2) →
        exec (.txPixmux p sd) s = .refused .overflow)

/-- R171: the divider register value, truncated to 8 bits; a zero divisor faults. -/
def Obligations.TxDivregDividesAndTruncates : Prop :=
  ∀ (p : U32) (q sd : Byte) (s : State), computes s = true →
    encode (.txDivreg p q sd) = 0x26 :: (bytes32 p ++ [q, sd])
    ∧ (4294967296 ≤ p.toNat * 7 → exec (.txDivreg p q sd) s = .refused .overflow)
    ∧ (p.toNat * 7 < 4294967296 → (q.toNat = 0 ∨ p.toNat < q.toNat) →
        exec (.txDivreg p q sd) s = .fault .divZero)
    ∧ (p.toNat * 7 < 4294967296 → 1 ≤ q.toNat → q.toNat ≤ p.toNat →
        4294967296 ≤ p.toNat * 7 / 2 * sd.toNat → exec (.txDivreg p q sd) s = .refused .overflow)
    ∧ (p.toNat * 7 < 4294967296 → 1 ≤ q.toNat → q.toNat ≤ p.toNat →
        p.toNat * 7 / 2 * sd.toNat < 4294967296 →
        exec (.txDivreg p q sd) s = .next (s.record (.ok (.u8
          (BitVec.ofNat 8 (p.toNat * 7 / 2 * sd.toNat / (p.toNat / q.toNat)))))))

/-- R172: the TX PLL setting is that of the four sub-operations. That with a legal parameter set only a clock of 0
faults is an inference of the spec (from R167 and R171). -/
def Obligations.ComputeTxPllComputesTheSetting : Prop :=
  ∀ (p : U32) (s : State), computes s = true →
    encode (.computeTxPll p) = 0x27 :: bytes32 p
    ∧ (p.toNat = 0 → exec (.computeTxPll p) s = .fault .divZero)
    ∧ (1 ≤ p.toNat → txPllFits Config.P p.toNat = true →
        exec (.computeTxPll p) s = .next (s.record (.ok (.txpll (txPllOf Config.P p.toNat)))))
    ∧ (1 ≤ p.toNat → txPllFits Config.P p.toNat = false → exec (.computeTxPll p) s = .refused .overflow)

/-- R173: the pixel clock of a timing. -/
def Obligations.PclkOfTimingMultiplies : Prop :=
  ∀ (ht vt : U16) (fr : Byte) (s : State), computes s = true →
    encode (.pclkOfTiming ht vt fr) = 0x28 :: (bytes16 ht ++ bytes16 vt ++ [fr])
    ∧ (ht.toNat * vt.toNat * fr.toNat < 4294967296 →
        exec (.pclkOfTiming ht vt fr) s = .next (s.record (.ok (.u32
          (BitVec.ofNat 32 (ht.toNat * vt.toNat * fr.toNat / 1000))))))
    ∧ (4294967296 ≤ ht.toNat * vt.toNat * fr.toNat →
        exec (.pclkOfTiming ht vt fr) s = .refused .overflow)

/-- R174 and the first paragraph of 43_detector.md: an operation that only computes writes no context field and
no event, and the same operands give the same answer in every state, but for the draw of M_lo. -/
def Obligations.PureOperationsOnlyCompute : Prop :=
  ∀ (i : Instr) (s s' : State), isPure i = true → computes s = true → computes s' = true →
    (∀ t : State, exec i s = .next t → ∃ (r r' : Result) (n : Nat),
      t = { s with results := s.results ++ [r], draws := s.draws + n }
      ∧ exec i s' = .next { s' with results := s'.results ++ [r'], draws := s'.draws + n }
      ∧ sameResult r r')
    ∧ (∀ f : Fault, exec i s = .fault f → exec i s' = .fault f)
    ∧ ∀ q : Refusal, exec i s = .refused q → exec i s' = .refused q

/-! ## Detector -/

/-- R200: the ratio of a format code, `(1, 3)` for an unknown one; 13 of the 16 codes are known, and the three
codes the source gives have their ratios. -/
def Obligations.BppLookupGivesTheRatio : Prop :=
  (∀ (f : BitVec 4) (s : State), computes s = true →
    encode (.bppLookup f) = [0x30, f.setWidth 8]
    ∧ 1 ≤ ((Config.P.bppEntry f).getD (1, 3)).2
    ∧ exec (.bppLookup f) s = .next (s.record (.ok (.ratio ((Config.P.bppEntry f).getD (1, 3)).1
        ((Config.P.bppEntry f).getD (1, 3)).2))))
  ∧ Config.P.bppEntry 0x0a = some (1, 3) ∧ Config.P.bppEntry Config.P.fmtRaw10 = some (5, 4)
  ∧ Config.P.bppEntry Config.P.fmtYuv422 = some (5, 2)
  ∧ ((List.range 16).countP fun n => (Config.P.bppEntry (BitVec.ofNat 4 n)).isSome) = 13

/-- R201, R206: the active width is the word count times the ratio's multiplier, divided by its divisor; a
product at or above 2^32 or a width at or above 2^16 is refused. -/
def Obligations.ActiveWidthScalesTheWordCount : Prop :=
  ∀ (wc : U16) (f : BitVec 4) (s : State), computes s = true →
    encode (.activeWidth wc f) = 0x31 :: (bytes16 wc ++ [f.setWidth 8])
    ∧ (widthFits Config.P wc f = true →
        exec (.activeWidth wc f) s = .next (s.record (.ok (.u16 (BitVec.ofNat 16 (widthOf Config.P wc f))))))
    ∧ (widthFits Config.P wc f = false →
        exec (.activeWidth wc f) s = .refused
          (if 4294967296 ≤ wc.toNat * ((Config.P.bppEntry f).getD (1, 3)).1 then .overflow
           else .widthOverflow))

/-- R202: a width or a height below 400 is no video; 400 passes, and there is no upper bound. -/
def Obligations.VideoCheckNeedsFourHundred : Prop :=
  ∀ (w h : U16) (s : State), computes s = true →
    encode (.videoCheck w h) = 0x32 :: (bytes16 w ++ bytes16 h)
    ∧ (400 ≤ w.toNat → 400 ≤ h.toNat → exec (.videoCheck w h) s = .next (s.record (.ok .unit)))
    ∧ ((w.toNat < 400 ∨ h.toNat < 400) → exec (.videoCheck w h) s = .next (s.record (.fail .noVideo)))

/-- R203, R102: the word count and the active-line count at their offsets in the field order of the parameters,
and the low nibble of the shared byte. -/
def Obligations.RxBlockParsesByLayout : Prop :=
  ∀ (P : Params) (b0 b1 b2 b3 b4 : Byte),
    let blk : List Byte := [b0, b1, b2, b3, b4]
    let at_ : Nat → Nat := fun k => (blk.getD k 0).toNat
    let oWc := P.rxBlockLayout.oWc.val
    let oVact := P.rxBlockLayout.oVact.val
    (P.fieldOrder = .msbFirst →
      (parseRxBlock P blk).1.toNat = 256 * at_ oWc + at_ (oWc + 1)
      ∧ (parseRxBlock P blk).2.1.toNat = 256 * at_ oVact + at_ (oVact + 1))
    ∧ (P.fieldOrder = .lsbFirst →
      (parseRxBlock P blk).1.toNat = at_ oWc + 256 * at_ (oWc + 1)
      ∧ (parseRxBlock P blk).2.1.toNat = at_ oVact + 256 * at_ (oVact + 1))
    ∧ (parseRxBlock P blk).2.2.toNat = at_ P.rxBlockLayout.oFmt.val % 16

/-- R77: the bytes of the pixel-clock readback, and of each field of the measured timing, spell a number in the field
order, however many bytes and fields there are. That each field is whole bytes of the read, that a field past its
end has the bytes that are there, and that the parameters turn the numbers into a clock and a timing, is the
model's choice (log 30). -/
def Obligations.ReadbacksAssembleInFieldOrder : Prop :=
  ∀ (P : Params) (bs : List Byte),
    pclkOf P bs = P.pclkRb.toKhz (assembled P.fieldOrder bs)
    ∧ timingOfMeas P bs = P.meas.toTiming (P.meas.fields.map fun f =>
        assembled P.fieldOrder ((bs.drop f.offset).take f.len))

/-- R204: DETECT reads the SOT pairs, writes the settle value, reads the block, the frame rate and the lane
packing, in this order, and leaves the descriptor they give; a size below 400 fails with NoVideo; an `Err`
leaves what was written before it; a run past 0xFF is refused where it is reached (R79, R146). That the machine's own
runs do not pass 0xFF is a hypothesis here (log 8 assumes it). -/
def Obligations.DetectAcquiresTheTiming : Prop :=
  encode .detect = [0x33] ∧ (detectFits Config.P → refusedDetached .detect)
  ∧ (∀ (P : Params) (s : State) (sot : Fin 4 → Byte × Byte), s.live = true → reachesWrap P sot s →
    execWith P .detect s = .refused .bulkWrap)
  ∧ ∀ (s : State) (sot : Fin 4 → Byte × Byte) (blk : List Byte) (fr lp : Byte), s.live = true →
    detectFits Config.P → blk.length = 5 →
    let T := detectEv Config.P sot blk fr lp
    let x := parseRxBlock Config.P blk
    let d := descOf Config.P blk fr lp
    let s1 := (play T s).modCtx fun c => { c with desc := d }
    (gives s T = true → widthFits Config.P x.1 x.2.2 = true → 400 ≤ d.hact.toNat → 400 ≤ d.vact.toNat →
      exec .detect s = .next (s1.record (.ok (.desc d))))
    ∧ (gives s T = true → widthFits Config.P x.1 x.2.2 = true → (d.hact.toNat < 400 ∨ d.vact.toNat < 400) →
      exec .detect s = .next (s1.record (.fail .noVideo)))
    ∧ (gives s T = true → widthFits Config.P x.1 x.2.2 = false →
      exec .detect s = .refused
        (if 4294967296 ≤ x.1.toNat * ((Config.P.bppEntry x.2.2).getD (1, 3)).1 then .overflow
         else .widthOverflow))
    ∧ failsAtCut .detect s s T (fun k c => { c with desc := descCut Config.P blk fr k })

/-- R205: the first table entry of the exact size whose rate is within 3 Hz, boundaries included; none is
NoMatchingMode. -/
def Obligations.ModeLookupFindsTheFirstMatch : Prop :=
  ∀ (w h : U16) (r : Byte) (s : State), computes s = true →
    encode (.modeLookup w h r) = 0x34 :: (bytes16 w ++ bytes16 h ++ [r])
    ∧ (∀ (k : Nat) (e : TimingEntry), Config.P.timingTable[k]? = some e → entryMatches w h r e = true →
        (∀ (j : Nat) (e' : TimingEntry), j < k → Config.P.timingTable[j]? = some e' →
          entryMatches w h r e' = false) →
        exec (.modeLookup w h r) s = .next (s.record (.ok (.mode k e))))
    ∧ ∀ P : Params, (∀ e ∈ P.timingTable, entryMatches w h r e = false) →
        execWith P (.modeLookup w h r) s = .next (s.record (.fail .noMatchingMode))

/-! ## Stages -/

/-- R243: Prepare pulses the reset line, reads the chip identity, logs a mismatch, issues its two write lists
and advances to RxTimingConfig, whatever the identity is; an identity run past 0xFF is refused (R79, R146). That the
machine's own run does not pass 0xFF is a hypothesis here (log 8 assumes it). -/
def Obligations.PrepareAlwaysAdvances : Prop :=
  encode .stagePrepare = [0x40]
  ∧ (spanFits Config.P.chipId.span = true → refusedDetached .stagePrepare)
  ∧ (∀ (P : Params) (s : State), s.live = true → spanFits P.chipId.span = false →
    execWith P .stagePrepare s = .refused .bulkWrap)
  ∧ ∀ (s : State) (id : List Byte), s.live = true → spanFits Config.P.chipId.span = true →
    id.length = Config.P.chipId.span.len.toNat →
    (gives s (prepareEv Config.P id) = true →
      exec .stagePrepare s = .next (((play (prepareEv Config.P id) s).modCtx
        fun c => { c with stage := 1 }).record (.ok (.stageEnd .next))))
    ∧ failsAtCut .stagePrepare s s (prepareEv Config.P id) (fun _ c => c)

/-- R244, R207, R48: RxTimingConfig selects the timing of the matching entry and advances; no video and no
matching mode take the retry step with the hint of the attempt's format; an `Err` goes on to INVOKE; a run past 0xFF
is refused where it is reached (R79, R146). That an entry whose clock is not admitted ends the stage with Overflow is
the model's reading (log 26); that the machine's own runs do not pass 0xFF is a hypothesis here (log 8 assumes it). -/
def Obligations.RxTimingSelectsOrRetries : Prop :=
  encode .stageRxtiming = [0x41] ∧ (detectFits Config.P → refusedDetached .stageRxtiming)
  ∧ (∀ (P : Params) (s : State) (sot : Fin 4 → Byte × Byte), s.live = true → reachesWrap P sot s →
    execWith P .stageRxtiming s = .refused .bulkWrap)
  ∧ (∀ (s : State) (sot : Fin 4 → Byte × Byte) (blk : List Byte) (fr lp : Byte), s.live = true →
    detectFits Config.P → blk.length = 5 →
    let T := detectEv Config.P sot blk fr lp
    let x := parseRxBlock Config.P blk
    let d := descOf Config.P blk fr lp
    let s1 := (play T s).modCtx fun c => { c with desc := d }
    (∀ e : TimingEntry, gives s T = true → widthFits Config.P x.1 x.2.2 = true →
      400 ≤ d.hact.toNat → 400 ≤ d.vact.toNat →
      Config.P.timingTable.find? (entryMatches d.hact d.vact d.fr) = some e → pclkFits e = true →
      exec .stageRxtiming s = .next ((s1.modCtx fun c =>
        { c with sel := timingFrom e, selValid := true, stage := 2 }).record (.ok (.stageEnd .next))))
    ∧ (gives s T = true → widthFits Config.P x.1 x.2.2 = true → (d.hact.toNat < 400 ∨ d.vact.toNat < 400) →
      exec .stageRxtiming s = .next
        ((retried Config.P (d.fmt == 0x0a) .noVideo s1).record (.ok (.stageEnd .yield))))
    ∧ failsAtCut .stageRxtiming s s T (fun k c => { c with desc := descCut Config.P blk fr k }))
  ∧ ∀ (P : Params) (s : State) (sot : Fin 4 → Byte × Byte) (blk : List Byte) (fr lp : Byte),
    s.live = true → detectFits P → blk.length = 5 →
    let T := detectEv P sot blk fr lp
    let x := parseRxBlock P blk
    let d := descOf P blk fr lp
    let s1 := (play T s).modCtx fun c => { c with desc := d }
    gives s T = true →
    (widthFits P x.1 x.2.2 = true → 400 ≤ d.hact.toNat → 400 ≤ d.vact.toNat →
      P.timingTable.find? (entryMatches d.hact d.vact d.fr) = none →
      execWith P .stageRxtiming s = .next ((retried P (d.fmt == 0x0a) .noMatchingMode
        (s1.emit (.log .noMatchingMode))).record (.ok (.stageEnd .yield))))
    ∧ (∀ e : TimingEntry, widthFits P x.1 x.2.2 = true → 400 ≤ d.hact.toNat → 400 ≤ d.vact.toNat →
      P.timingTable.find? (entryMatches d.hact d.vact d.fr) = some e → pclkFits e = false →
      execWith P .stageRxtiming s = .refused .overflow)
    ∧ (widthFits P x.1 x.2.2 = false →
      execWith P .stageRxtiming s = .refused
        (if 4294967296 ≤ x.1.toNat * ((P.bppEntry x.2.2).getD (1, 3)).1 then .overflow
         else .widthOverflow))

/-- R245: RETRY_UPDATE counts, applies the hint, compares with 30, records the code and schedules `short`. -/
def Obligations.RetryUpdateCountsAndFallsBack : Prop :=
  ∀ (k : Bool) (e : ErrCode),
    encode (.retryUpdate k e) = [0x47, if k then 0x01 else 0x00, e.code]
    ∧ refusedDetached (.retryUpdate k e)
    ∧ (∀ s : State, s.live = true →
        exec (.retryUpdate k e) s = .next ((retried Config.P k e s).record (.ok .unit)))
    ∧ ∀ (P : Params) (s t : State), execWith P (.retryUpdate k e) s = .next t →
        t.ctx.err = e.code ∧ t.ctx.pending = true
        ∧ (k = true → t.ctx.retry = 0 ∧ t.ctx.stage = s.ctx.stage)
        ∧ (k = false → s.ctx.retry.toNat < 30 →
            t.ctx.retry.toNat = s.ctx.retry.toNat + 1 ∧ t.ctx.stage = s.ctx.stage)
        ∧ (k = false → 30 ≤ s.ctx.retry.toNat → s.ctx.retry.toNat < 4294967295 → t.ctx.stage = 0
            ∧ t.ctx.retry.toNat = if P.retryClearOnFallback then 0 else s.ctx.retry.toNat + 1)

/-- R246: RxPllConfig programs the divider and the PCR setting of the selected clock, polls PCR stable at most 50
times, then video check at most 50 times, and goes on to TxVideoConfig; a PCR that stays unstable goes back to
RxTimingConfig; a video check that runs out advances or fails as the parameter says. On a detached context the cases
in which the stage has a stop of its own are stated in `DestroyedContextIsRefused` (log 33). The 500 ms of its waits is
the number R246 and R249 give; that it is no parameter is the model's choice (log 34). -/
def Obligations.RxPllLocksOrGoesBack : Prop :=
  encode .stageRxpll = [0x42]
  ∧ (∀ s : State, s.constructed = true → s.ctx.detached = true → s.ctx.selValid = true →
      pcrFits Config.P s.ctx.sel.pclk.toNat = true → exec .stageRxpll s = .refused .detachedContext)
  ∧ (∀ s : State, s.live = true → s.ctx.selValid = false → exec .stageRxpll s = .fault .noTiming)
  ∧ (∀ s : State, s.live = true → s.ctx.selValid = true →
      pcrFits Config.P s.ctx.sel.pclk.toNat = false → exec .stageRxpll s = .refused .overflow)
  ∧ (∀ (s : State) (vs us : List Byte) (v u : Byte), s.live = true → s.ctx.selValid = true →
      pcrFits Config.P s.ctx.sel.pclk.toNat = true →
      let s0 := { s with draws := s.draws + pcrDraws Config.P s.ctx.sel.pclk.toNat }
      (pollSets Config.P .pcrStable 50 vs v = true → pollSets Config.P .vidchkStable 50 us u = true →
        (gives s (rxPllEv Config.P s vs v us u) = true →
          exec .stageRxpll s = .next (((play (rxPllEv Config.P s vs v us u) s0).modCtx
            fun c => { withPll Config.P s c with stage := 3 }).record (.ok (.stageEnd .next))))
        ∧ failsAtCut .stageRxpll s s0 (rxPllEv Config.P s vs v us u) (fun _ => withPll Config.P s))
      ∧ (vs.length = 50 → allUnset (Config.P.statusBits .pcrStable) vs = true →
        let T := pllWritesEv Config.P s ++ unsetEv Config.P (Config.P.statusBits .pcrStable) .pcrGap vs
        gives s T = true →
          exec .stageRxpll s = .next ((scheduled Config.P .retry ((play T s0).modCtx
            fun c => { withPll Config.P s c with err := 4, stage := 1 })).record (.ok (.stageEnd .yield)))))
  ∧ ∀ (P : Params) (s : State) (vs us : List Byte) (v : Byte), s.live = true → s.ctx.selValid = true →
      pcrFits P s.ctx.sel.pclk.toNat = true → pollSets P .pcrStable 50 vs v = true → us.length = 50 →
      allUnset (P.statusBits .vidchkStable) us = true →
      let s0 := { s with draws := s.draws + pcrDraws P s.ctx.sel.pclk.toNat }
      (P.vidchkExhaust = .advance → gives s (rxPllTimeoutEv P s vs v us) = true →
        execWith P .stageRxpll s = .next (((play (rxPllTimeoutEv P s vs v us) s0).modCtx
          fun c => { withPll P s c with stage := 3 }).record (.ok (.stageEnd .next))))
      ∧ (∀ k : Nat, P.vidchkExhaust = .advance → busAt (rxPllTimeoutEv P s vs v us) k = true →
        gives s (cutAt (rxPllTimeoutEv P s vs v us) k) = true →
        execWith P .stageRxpll s = .next (((play (cutAt (rxPllTimeoutEv P s vs v us) k) s0).modCtx
          (withPll P s)).record (.fail .transportError)))
      ∧ (P.vidchkExhaust = .fail →
        let T := pllWritesEv P s ++ pollSetEv P .pcrStable .pcrGap vs v
          ++ unsetEv P (P.statusBits .vidchkStable) .none us
        gives s T = true →
          execWith P .stageRxpll s = .next ((scheduled P .retry ((play T s0).modCtx
            fun c => { withPll P s c with err := 6, stage := 1 })).record (.ok (.stageEnd .yield))))

/-- R247: TxVideoConfig reads the pixel clock back, computes and programs the TX PLL, pulses its reset and polls
the lock bit at most 4 times; locked goes on to TxVideoOut, unlocked warns and stays; a readback of 0 faults; a readback
run past 0xFF is refused (R79, R146). That the machine's own run does not pass 0xFF is a hypothesis here (log 8 assumes
it). -/
def Obligations.TxVideoConfigLocksOrRetries : Prop :=
  encode .stageTxvidcfg = [0x43]
  ∧ (spanFits Config.P.pclkRb.span = true → refusedDetached .stageTxvidcfg)
  ∧ (∀ (P : Params) (s : State), s.live = true → spanFits P.pclkRb.span = false →
      execWith P .stageTxvidcfg s = .refused .bulkWrap)
  ∧ (∀ (s : State) (bytes vs : List Byte) (v : Byte), s.live = true → spanFits Config.P.pclkRb.span = true →
      bytes.length = Config.P.pclkRb.span.len.toNat →
      let p := (pclkOf Config.P bytes).toNat
      let t := txPllOf Config.P p
      let f : Ctx → Ctx := fun c => { c with pclkRb := pclkOf Config.P bytes, txpll := t }
      1 ≤ p → txPllFits Config.P p = true →
      (pollSets Config.P .txpllLock 4 vs v = true →
        let T := txCfgWritesEv Config.P bytes t ++ pollSetEv Config.P .txpllLock .txlockGap vs v
        (gives s T = true →
          exec .stageTxvidcfg s = .next (((play T s).modCtx fun c => { f c with stage := 4 }).record
            (.ok (.stageEnd .next))))
        ∧ failsAtCut .stageTxvidcfg s s T (fun k => if k < 1 + bytes.length then id else f))
      ∧ (vs.length = 4 → allUnset (Config.P.statusBits .txpllLock) vs = true →
        let T := txCfgWritesEv Config.P bytes t
          ++ unsetEv Config.P (Config.P.statusBits .txpllLock) .txlockGap vs ++ [.warn .pllUnlocked]
        gives s T = true →
          exec .stageTxvidcfg s = .next ((scheduled Config.P .retry ((play T s).modCtx
            fun c => { f c with err := 5 })).record (.ok (.stageEnd .yield)))))
  ∧ ∀ (P : Params) (s : State) (bytes : List Byte), s.live = true → P.wellFormed = true →
      spanFits P.pclkRb.span = true → bytes.length = P.pclkRb.span.len.toNat →
      gives s (bulkEv P P.pclkRb.span.bank P.pclkRb.span.addr bytes) = true →
      ((pclkOf P bytes).toNat = 0 → execWith P .stageTxvidcfg s = .fault .divZero)
      ∧ (1 ≤ (pclkOf P bytes).toNat → txPllFits P (pclkOf P bytes).toNat = false →
        execWith P .stageTxvidcfg s = .refused .overflow)

/-- R248: TxVideoOut reads the measured timing, programs the TX digital side, resets it, declares steady output,
clears the error code and schedules nothing; a measurement run past 0xFF is refused (R79, R146). That the machine's own
run does not pass 0xFF is a hypothesis here (log 8 assumes it). -/
def Obligations.TxVideoOutDeclaresSteady : Prop :=
  encode .stageTxvidout = [0x44]
  ∧ (spanFits Config.P.meas.span = true → refusedDetached .stageTxvidout)
  ∧ (∀ (P : Params) (s : State), s.live = true → spanFits P.meas.span = false →
    execWith P .stageTxvidout s = .refused .bulkWrap)
  ∧ ∀ (s : State) (bytes : List Byte), s.live = true → spanFits Config.P.meas.span = true →
    bytes.length = Config.P.meas.span.len.toNat →
    let f : Ctx → Ctx := fun c => { c with live := timingOfMeas Config.P bytes }
    (gives s (txOutEv Config.P bytes) = true →
      exec .stageTxvidout s = .next (((play (txOutEv Config.P bytes) s).modCtx
        fun c => { f c with steady := true, err := 0 }).record (.ok (.stageEnd .yield))))
    ∧ failsAtCut .stageTxvidout s s (txOutEv Config.P bytes)
        (fun k => if k < 1 + bytes.length then id else f)

/-- R249: POLL reads the status bit until it is set, at most `n` times, with one wait after each unset read. The 500 ms
of the PCR gap is the number R249 gives; that it is no parameter is the model's choice (log 34). -/
def Obligations.PollReadsUntilSet : Prop :=
  ∀ (i : StatusId) (n : Byte) (g : Gap),
    encode (.poll i n g) = [0x45, i.code, n, g.code] ∧ refusedDetached (.poll i n g)
    ∧ ∀ (s : State) (vs : List Byte), s.live = true →
      (∀ v : Byte, pollSets Config.P i n.toNat vs v = true →
        (gives s (pollSetEv Config.P i g vs v) = true →
          exec (.poll i n g) s = .next ((play (pollSetEv Config.P i g vs v) s).record (.ok (.bool true))))
        ∧ failsAtCut (.poll i n g) s s (pollSetEv Config.P i g vs v) (fun _ c => c))
      ∧ (vs.length = n.toNat → allUnset (Config.P.statusBits i) vs = true →
        gives s (unsetEv Config.P (Config.P.statusBits i) g vs) = true →
          exec (.poll i n g) s = .next ((play (unsetEv Config.P (Config.P.statusBits i) g vs) s).record
            (.ok (.bool false))))

/-- R250, R43: SCHEDULE makes an invocation pending with one event; with one pending it changes nothing. -/
def Obligations.ScheduleIsIdempotent : Prop :=
  ∀ d : DelayClass,
    encode (.schedule d) = [0x46, d.code] ∧ refusedDetached (.schedule d)
    ∧ ∀ s : State, s.live = true →
      (s.ctx.pending = true → exec (.schedule d) s = .next (s.record (.ok .unit)))
      ∧ (s.ctx.pending = false →
        exec (.schedule d) s = .next ({ s with
          ctx := { s.ctx with pending := true },
          history := s.history ++ [Event.sched d (delayMs Config.P d)] }.record (.ok .unit)))

/-- R251, R241, R257, R258: INVOKE runs the stage of the control point; after `next` it goes on as an invocation
from the stage after it; `yield` ends it; a transport error is recorded, `defer` is scheduled and every other
field stays as the stage left it; a fault or a refusal is passed on; no other failure leaves a stage. -/
def Obligations.InvokeRunsTheControlPoint : Prop :=
  encode .invoke = [0x48] ∧ refusedDetached .invoke
  ∧ ∀ s : State, s.live = true →
    (4 < s.ctx.stage.toNat → exec .invoke s = .fault .badStage)
    ∧ ∀ i : Instr, stageInstr s.ctx.stage = some i →
      (∀ f : Fault, exec i s = .fault f → exec .invoke s = .fault f)
      ∧ (∀ q : Refusal, exec i s = .refused q → exec .invoke s = .refused q)
      ∧ ∀ t : State, exec i s = .next t →
        ∃ t' : State, t'.results = s.results ∧
          ((t = t'.record (.ok (.stageEnd .next)) ∧ t'.ctx.stage = s.ctx.stage + 1
              ∧ exec .invoke s = exec .invoke t')
          ∨ (t = t'.record (.ok (.stageEnd .yield)) ∧ exec .invoke s = .next (t'.record (.ok .unit)))
          ∨ (t = t'.record (.fail .transportError) ∧ t'.ctx.stage = s.ctx.stage
              ∧ t'.ctx.retry = s.ctx.retry
              ∧ exec .invoke s = .next ((deferred Config.P t').record (.ok .unit))))

/-! ## The whole machine -/

/-- R240 to R248, R251, R252: from Prepare, when the chip reports a stream the table has and every status bit is
set at its first read, one INVOKE, or one TICK with an invocation pending, runs all five stages, issues exactly
their transactions and events in order, and leaves steady output with the settings the calculator gives. That no
register run passes 0xFF is part of `Succeeds` (log 8 assumes it of the machine's own runs). -/
def Obligations.OneInvocationBringsTheOutputUp : Prop :=
  ∀ (b : BringUp) (s : State), b.Succeeds Config.P → s.live = true → s.ctx.stage = 0 →
    gives s (b.trace Config.P s) = true →
    exec .invoke s = .next ({ s with
        ctx := b.ctxAfter Config.P s,
        history := s.history ++ b.trace Config.P s,
        script := s.script.drop ((b.trace Config.P s).countP Event.isBus),
        draws := s.draws + pcrDraws Config.P (timingFrom b.entry).pclk.toNat }.record (.ok .unit))
    ∧ (s.ctx.pending = true →
        exec .tick s = .next ({ s with
          ctx := { b.ctxAfter Config.P s with pending := false },
          history := s.history ++ b.trace Config.P s,
          script := s.script.drop ((b.trace Config.P s).countP Event.isBus),
          draws := s.draws + pcrDraws Config.P (timingFrom b.entry).pclk.toNat }.record (.ok .unit)))

/-- R240, R242: an invocation leaves the control point along the edges of the stage graph, ENABLE and ATTACH put
it at Prepare, and no other host command and no operation but a stage, RETRY_UPDATE and INVOKE moves it. A stage or
RETRY_UPDATE that a unit program runs by itself writes the stage of its rule whatever the stage was (R116), so no edge
is claimed of it. -/
def Obligations.ControlPointFollowsTheEdges : Prop :=
  ∀ (i : Instr) (s t : State), exec i s = .next t → s.ctx.stage.toNat ≤ 4 →
    ((i = .invoke ∨ i = .tick) → edgeReach s.ctx.stage t.ctx.stage = true)
    ∧ (i = .enable → t.ctx.stage = 0)
    ∧ (∀ c : BitVec 3, i = .attach c → t.ctx.stage = s.ctx.stage ∨ t.ctx.stage = 0)
    ∧ (isStage i = false → i ≠ .invoke → i ≠ .tick → i ≠ .enable → (∀ c : BitVec 3, i ≠ .attach c) →
        (∀ (k : Bool) (e : ErrCode), i ≠ .retryUpdate k e) → t.ctx.stage = s.ctx.stage)

/-- R261 (a), an inference of the spec: the control point comes back to Prepare only by ATTACH, by ENABLE, or by
the retry overflow: an RxTimingConfig failure with the counter at 30 or more. An INVOKE or TICK that starts at Prepare
and ends there ran nothing, was stopped by an `Err` inside Prepare, or came back by that overflow. -/
def Obligations.PrepareIsReenteredOnlyByOverflow : Prop :=
  (∀ (i : Instr) (s t : State), exec i s = .next t → s.ctx.stage ≠ 0 → t.ctx.stage = 0 →
    (∃ c : BitVec 3, i = .attach c) ∨ i = .enable
    ∨ (30 ≤ s.ctx.retry.toNat ∧ s.ctx.retry.toNat < 4294967295
      ∧ ((∃ e : ErrCode, i = .retryUpdate false e) ∨ i = .stageRxtiming
        ∨ ((i = .invoke ∨ i = .tick) ∧ s.ctx.stage = 1))))
  ∧ ∀ (i : Instr) (s t : State), exec i s = .next t → (i = .invoke ∨ i = .tick) → s.ctx.stage = 0 →
    t.ctx.stage = 0 →
    (i = .tick ∧ t = s.record (.ok .unit))
    ∨ t.ctx = { s.ctx with err := 1, pending := true, accessCount := t.ctx.accessCount }
    ∨ (30 ≤ s.ctx.retry.toNat ∧ s.ctx.retry.toNat < 4294967295 ∧ t.ctx.pending = true
      ∧ (t.ctx.err = 2 ∨ t.ctx.err = 3))

/-- R261 (d) and (f), R309, inferences of the spec: every step keeps the stage and error codes legal and a timing
selected wherever the control point is RxPllConfig, and with these an invocation reaches neither BadStage nor
NoTiming. -/
def Obligations.InvocationsNeverLoseTheirStage : Prop :=
  (∀ s t : State, codesLegal s → timingReady s → step s = .next t → codesLegal t ∧ timingReady t)
  ∧ ∀ (P : Params) (s : State) (f : Fault), codesLegal s → timingReady s →
      (execWith P .invoke s = .fault f ∨ execWith P .tick s = .fault f) → f = .divZero

/-- R207, R173: the selected timing is always that of a table entry, with the pixel clock of its totals and
rate. -/
def Obligations.SelectedTimingIsATableEntry : Prop :=
  ∀ s t : State, selectedFromTable Config.P s → step s = .next t → selectedFromTable Config.P t

/-- R245, D25: with a fallback that clears the counter, the counter never exceeds 30. -/
def Obligations.RetryCounterStaysBounded : Prop :=
  ∀ (P : Params) (i : Instr) (s t : State), P.retryClearOnFallback = true → retryBounded s →
    execWith P i s = .next t → retryBounded t

/-- R261 (e), an inference of the spec: while the source stays below 400 by 400, each TICK from RxTimingConfig, or
from Prepare, ends with NoVideo recorded and the next invocation pending. That the machine's own register runs do not
pass 0xFF is a hypothesis here (log 8 assumes it). -/
def Obligations.AbsentSourceIsRetried : Prop :=
  ∀ (s : State) (sot : Fin 4 → Byte × Byte) (blk id : List Byte) (fr lp : Byte), s.live = true →
    s.ctx.pending = true → detectFits Config.P → spanFits Config.P.chipId.span = true → blk.length = 5 →
    id.length = Config.P.chipId.span.len.toNat →
    let T := detectEv Config.P sot blk fr lp
    let x := parseRxBlock Config.P blk
    let d := descOf Config.P blk fr lp
    widthFits Config.P x.1 x.2.2 = true → (d.hact.toNat < 400 ∨ d.vact.toNat < 400) →
    ((s.ctx.stage = 1 ∧ gives s T = true) ∨ (s.ctx.stage = 0 ∧ gives s (prepareEv Config.P id ++ T) = true)) →
    ∃ t : State, exec .tick s = .next t ∧ t.live = true ∧ t.ctx.pending = true ∧ t.ctx.err = 2
      ∧ (t.ctx.stage = 1 ∨ t.ctx.stage = 0) ∧ t.ctx.desc = d

/-- R260, R261 (c): a quiescent run stays quiescent and makes no transaction under every host command but ENABLE
and ATTACH. -/
def Obligations.QuiescentRunsStaySilent : Prop :=
  ∀ (i : Instr) (s t : State), quiescent s → i.isHost = true → i ≠ .enable →
    (∀ c : BitVec 3, i ≠ .attach c) → exec i s = .next t →
    quiescent t ∧ t.ctx.accessCount = s.ctx.accessCount
      ∧ t.history.countP Event.isBus = s.history.countP Event.isBus

/-- R322, R31, an inference of the spec: the steps of two instances can be exchanged, an instance's step leaves
the other as it was, every instance keeps its chip, and so distinct chips stay distinct. The fleet as a list of states,
and the chip as a number in the state, are the model's choice (log 19). -/
def Obligations.InstancesAreIndependent : Prop :=
  ∀ (j k : Nat) (f f1 f2 : Fleet), j ≠ k → fleetStep j f = .next f1 → fleetStep k f1 = .next f2 →
    f1[k]? = f[k]? ∧ f1.map State.chip = f.map State.chip ∧ (Fleet.wf f = true → Fleet.wf f1 = true)
    ∧ ∃ g : Fleet, fleetStep k f = .next g ∧ fleetStep j g = .next f2

/-- R115, R114: the expansions of the pseudo-operations, and lines of assembly that spell them. -/
def Obligations.PseudoOperationsExpand : Prop :=
  (∀ (P : Params) (l : WriteList), (Pseudo.wrlist l).expand P = l.map fun g => .wrseq g.bank g.entries)
  ∧ (∀ (P : Params) (b a : Byte), (Pseudo.rd16 b a).expand P = [.rdbulk b a 2])
  ∧ (∀ P : Params, Pseudo.pulseTxpllRst.expand P = (Pseudo.wrlist P.seqTxPllRst).expand P)
  ∧ (∀ (P : Params) (c : BitVec 3), (Pseudo.bringup c).expand P = [.attach c, .enable, .tick])
  ∧ assembleLine Config.hp "BRINGUP gpio=1, clk=1, dsi=1 ; as program P1" = some [.attach 7, .enable, .tick]
  ∧ assembleLine Config.hp "WRSEQ 0x82, [(0x01, 0x00), (0x01, 0x80)]"
      = some [.wrseq 0x82 [(0x01, 0x00), (0x01, 0x80)]]
  ∧ assembleLine Config.hp "POLL TXPLL_LOCK, 4, txlock_gap" = some [.poll .txpllLock 4 .txlockGap]
end

