-- ==== Sys2Proof/Laws/State.lean ====
section
/-! SUPPORT. One lemma for each field of State under each update, so that no proof unfolds a record update. -/

namespace Sys2Proof.Machine

open Sys2Proof

/-! ## emit -/

@[simp] theorem State.emit_chip (e : Event) (s : State) : (s.emit e).chip = s.chip := rfl
@[simp] theorem State.emit_constructed (e : Event) (s : State) : (s.emit e).constructed = s.constructed := rfl
@[simp] theorem State.emit_ctx (e : Event) (s : State) : (s.emit e).ctx = s.ctx := rfl
@[simp] theorem State.emit_history (e : Event) (s : State) : (s.emit e).history = s.history ++ [e] := rfl
@[simp] theorem State.emit_results (e : Event) (s : State) : (s.emit e).results = s.results := rfl
@[simp] theorem State.emit_program (e : Event) (s : State) : (s.emit e).program = s.program := rfl
@[simp] theorem State.emit_script (e : Event) (s : State) : (s.emit e).script = s.script := rfl
@[simp] theorem State.emit_draws (e : Event) (s : State) : (s.emit e).draws = s.draws := rfl
@[simp] theorem State.emit_live (e : Event) (s : State) : (s.emit e).live = s.live := rfl

/-! ## record -/

@[simp] theorem State.record_chip (r : Result) (s : State) : (s.record r).chip = s.chip := rfl
@[simp] theorem State.record_constructed (r : Result) (s : State) : (s.record r).constructed = s.constructed := rfl
@[simp] theorem State.record_ctx (r : Result) (s : State) : (s.record r).ctx = s.ctx := rfl
@[simp] theorem State.record_history (r : Result) (s : State) : (s.record r).history = s.history := rfl
@[simp] theorem State.record_results (r : Result) (s : State) : (s.record r).results = s.results ++ [r] := rfl
@[simp] theorem State.record_program (r : Result) (s : State) : (s.record r).program = s.program := rfl
@[simp] theorem State.record_script (r : Result) (s : State) : (s.record r).script = s.script := rfl
@[simp] theorem State.record_draws (r : Result) (s : State) : (s.record r).draws = s.draws := rfl
@[simp] theorem State.record_live (r : Result) (s : State) : (s.record r).live = s.live := rfl

/-! ## modCtx -/

@[simp] theorem State.modCtx_chip (f : Ctx → Ctx) (s : State) : (s.modCtx f).chip = s.chip := rfl
@[simp] theorem State.modCtx_constructed (f : Ctx → Ctx) (s : State) : (s.modCtx f).constructed = s.constructed := rfl
@[simp] theorem State.modCtx_ctx (f : Ctx → Ctx) (s : State) : (s.modCtx f).ctx = f s.ctx := rfl
@[simp] theorem State.modCtx_history (f : Ctx → Ctx) (s : State) : (s.modCtx f).history = s.history := rfl
@[simp] theorem State.modCtx_results (f : Ctx → Ctx) (s : State) : (s.modCtx f).results = s.results := rfl
@[simp] theorem State.modCtx_program (f : Ctx → Ctx) (s : State) : (s.modCtx f).program = s.program := rfl
@[simp] theorem State.modCtx_script (f : Ctx → Ctx) (s : State) : (s.modCtx f).script = s.script := rfl
@[simp] theorem State.modCtx_draws (f : Ctx → Ctx) (s : State) : (s.modCtx f).draws = s.draws := rfl

/-! ## advance -/

@[simp] theorem State.advance_chip (rest : List Byte) (s : State) : (s.advance rest).chip = s.chip := rfl
@[simp] theorem State.advance_constructed (rest : List Byte) (s : State) : (s.advance rest).constructed = s.constructed := rfl
@[simp] theorem State.advance_ctx (rest : List Byte) (s : State) : (s.advance rest).ctx = s.ctx := rfl
@[simp] theorem State.advance_history (rest : List Byte) (s : State) : (s.advance rest).history = s.history := rfl
@[simp] theorem State.advance_results (rest : List Byte) (s : State) : (s.advance rest).results = s.results := rfl
@[simp] theorem State.advance_program (rest : List Byte) (s : State) : (s.advance rest).program = rest := rfl
@[simp] theorem State.advance_script (rest : List Byte) (s : State) : (s.advance rest).script = s.script := rfl
@[simp] theorem State.advance_draws (rest : List Byte) (s : State) : (s.advance rest).draws = s.draws := rfl
@[simp] theorem State.advance_live (rest : List Byte) (s : State) : (s.advance rest).live = s.live := rfl

/-! ## transact -/

@[simp] theorem State.transact_chip (e : Event) (s : State) : (s.transact e).chip = s.chip := rfl
@[simp] theorem State.transact_constructed (e : Event) (s : State) : (s.transact e).constructed = s.constructed := rfl
@[simp] theorem State.transact_ctx (e : Event) (s : State) : (s.transact e).ctx = { s.ctx with accessCount := s.ctx.accessCount + 1 } := rfl
@[simp] theorem State.transact_history (e : Event) (s : State) : (s.transact e).history = s.history ++ [e] := rfl
@[simp] theorem State.transact_results (e : Event) (s : State) : (s.transact e).results = s.results := rfl
@[simp] theorem State.transact_program (e : Event) (s : State) : (s.transact e).program = s.program := rfl
@[simp] theorem State.transact_script (e : Event) (s : State) : (s.transact e).script = s.script.tail := rfl
@[simp] theorem State.transact_draws (e : Event) (s : State) : (s.transact e).draws = s.draws := rfl
@[simp] theorem State.transact_live (e : Event) (s : State) : (s.transact e).live = s.live := rfl

/-! ## setErr -/

@[simp] theorem setErr_chip (e : ErrCode) (s : State) : (setErr e s).chip = s.chip := rfl
@[simp] theorem setErr_constructed (e : ErrCode) (s : State) : (setErr e s).constructed = s.constructed := rfl
@[simp] theorem setErr_ctx (e : ErrCode) (s : State) : (setErr e s).ctx = { s.ctx with err := e.code } := rfl
@[simp] theorem setErr_history (e : ErrCode) (s : State) : (setErr e s).history = s.history := rfl
@[simp] theorem setErr_results (e : ErrCode) (s : State) : (setErr e s).results = s.results := rfl
@[simp] theorem setErr_program (e : ErrCode) (s : State) : (setErr e s).program = s.program := rfl
@[simp] theorem setErr_script (e : ErrCode) (s : State) : (setErr e s).script = s.script := rfl
@[simp] theorem setErr_draws (e : ErrCode) (s : State) : (setErr e s).draws = s.draws := rfl
@[simp] theorem setErr_live (e : ErrCode) (s : State) : (setErr e s).live = s.live := rfl

/-! ## setStage -/

@[simp] theorem setStage_chip (st : Stage) (s : State) : (setStage st s).chip = s.chip := rfl
@[simp] theorem setStage_constructed (st : Stage) (s : State) : (setStage st s).constructed = s.constructed := rfl
@[simp] theorem setStage_ctx (st : Stage) (s : State) : (setStage st s).ctx = { s.ctx with stage := stageCode st } := rfl
@[simp] theorem setStage_history (st : Stage) (s : State) : (setStage st s).history = s.history := rfl
@[simp] theorem setStage_results (st : Stage) (s : State) : (setStage st s).results = s.results := rfl
@[simp] theorem setStage_program (st : Stage) (s : State) : (setStage st s).program = s.program := rfl
@[simp] theorem setStage_script (st : Stage) (s : State) : (setStage st s).script = s.script := rfl
@[simp] theorem setStage_draws (st : Stage) (s : State) : (setStage st s).draws = s.draws := rfl
@[simp] theorem setStage_live (st : Stage) (s : State) : (setStage st s).live = s.live := rfl

/-! ## schedule -/

@[simp] theorem schedule_chip (P : Params) (d : DelayClass) (s : State) :
    (schedule P d s).chip = s.chip := by
  unfold schedule; split <;> rfl
@[simp] theorem schedule_constructed (P : Params) (d : DelayClass) (s : State) :
    (schedule P d s).constructed = s.constructed := by
  unfold schedule; split <;> rfl
@[simp] theorem schedule_ctx (P : Params) (d : DelayClass) (s : State) :
    (schedule P d s).ctx = { s.ctx with pending := true } := by
  unfold schedule; split
  · rename_i h; simp [← h]
  · rfl
@[simp] theorem schedule_history (P : Params) (d : DelayClass) (s : State) :
    (schedule P d s).history
      = if s.ctx.pending then s.history else s.history ++ [.sched d (delayMs P d)] := by
  unfold schedule; split <;> rfl
@[simp] theorem schedule_results (P : Params) (d : DelayClass) (s : State) :
    (schedule P d s).results = s.results := by
  unfold schedule; split <;> rfl
@[simp] theorem schedule_program (P : Params) (d : DelayClass) (s : State) :
    (schedule P d s).program = s.program := by
  unfold schedule; split <;> rfl
@[simp] theorem schedule_script (P : Params) (d : DelayClass) (s : State) :
    (schedule P d s).script = s.script := by
  unfold schedule; split <;> rfl
@[simp] theorem schedule_draws (P : Params) (d : DelayClass) (s : State) :
    (schedule P d s).draws = s.draws := by
  unfold schedule; split <;> rfl
@[simp] theorem schedule_live (P : Params) (d : DelayClass) (s : State) :
    (schedule P d s).live = s.live := by
  unfold schedule; split <;> rfl

/-! ## Equality of states -/

theorem State.ext_fields {s t : State} (h1 : s.chip = t.chip) (h2 : s.constructed = t.constructed)
    (h3 : s.ctx = t.ctx) (h4 : s.history = t.history) (h5 : s.results = t.results)
    (h6 : s.program = t.program) (h7 : s.script = t.script) (h8 : s.draws = t.draws) : s = t := by
  cases s; cases t; simp_all

/-- An update of the context keeps a context live when it does not detach it. -/
theorem State.modCtx_live {f : Ctx → Ctx} {s : State} (h : (f s.ctx).detached = s.ctx.detached) :
    (s.modCtx f).live = s.live := by
  simp [State.live, h]

theorem State.modCtx_modCtx (f g : Ctx → Ctx) (s : State) :
    (s.modCtx f).modCtx g = s.modCtx fun c => g (f c) := rfl

/-- A live context has been constructed. -/
theorem State.live_constructed {s : State} (h : s.live = true) : s.constructed = true := by
  unfold State.live at h; simp_all

/-- A live context is not detached. -/
theorem State.live_detached {s : State} (h : s.live = true) : s.ctx.detached = false := by
  unfold State.live at h; simp_all

/-- An operation on the context runs on a live one. -/
theorem onContext_live {s : State} (h : s.live = true) (k : Host.Outcome State Fault Refusal) :
    onContext s k = k := by
  simp [onContext, State.live_constructed h, State.live_detached h]

/-- An operation on the context is refused on a detached one (R116). -/
theorem onContext_detached {s : State} (hc : s.constructed = true) (hd : s.ctx.detached = true)
    (k : Host.Outcome State Fault Refusal) : onContext s k = .refused .detachedContext := by
  simp [onContext, hc, hd]

/-- An operation on the context answers a next state only on a live one. -/
theorem onContext_next {s t : State} {k : Host.Outcome State Fault Refusal}
    (h : onContext s k = .next t) : s.live = true ∧ k = .next t := by
  unfold onContext at h
  split at h
  · cases h
  · split at h
    · cases h
    · exact ⟨by simp_all [State.live], h⟩

/-- An operation that only computes runs in every state whose context is not detached. -/
theorem unlessDetached_runs {s : State} (h : ¬(s.constructed = true ∧ s.ctx.detached = true))
    (k : Host.Outcome State Fault Refusal) : unlessDetached s k = k := by
  simp only [unlessDetached, if_neg h]

/-- An operation that only computes is refused on a detached context (R116). -/
theorem unlessDetached_detached {s : State} (hc : s.constructed = true) (hd : s.ctx.detached = true)
    (k : Host.Outcome State Fault Refusal) : unlessDetached s k = .refused .detachedContext := by
  simp [unlessDetached, hc, hd]

end Sys2Proof.Machine
end

