-- ==== Sys2Proof/Laws/Trace.lean ====
section
/-! SUPPORT. Traces: what `play` and `gives` do with joined traces, what they read of a state, and how a bus
operation issues a trace. -/

namespace Sys2Proof.Safety

open Sys2Proof Sys2Proof.Machine

/-! ## play -/

@[simp] theorem play_chip (T : List Event) (s : State) : (play T s).chip = s.chip := rfl
@[simp] theorem play_constructed (T : List Event) (s : State) :
    (play T s).constructed = s.constructed := rfl
@[simp] theorem play_ctx (T : List Event) (s : State) :
    (play T s).ctx = { s.ctx with accessCount := s.ctx.accessCount + T.countP Event.isBus } := rfl
@[simp] theorem play_history (T : List Event) (s : State) : (play T s).history = s.history ++ T := rfl
@[simp] theorem play_results (T : List Event) (s : State) : (play T s).results = s.results := rfl
@[simp] theorem play_program (T : List Event) (s : State) : (play T s).program = s.program := rfl
@[simp] theorem play_script (T : List Event) (s : State) :
    (play T s).script = s.script.drop (T.countP Event.isBus) := rfl
@[simp] theorem play_draws (T : List Event) (s : State) : (play T s).draws = s.draws := rfl
@[simp] theorem play_live (T : List Event) (s : State) : (play T s).live = s.live := rfl

@[simp] theorem play_nil (s : State) : play [] s = s := by simp [play]

/-- Playing two traces is playing them joined. -/
theorem play_append (T U : List Event) (s : State) : play (T ++ U) s = play U (play T s) := by
  simp [play, Nat.add_assoc, List.drop_drop]

theorem play_cons (e : Event) (T : List Event) (s : State) : play (e :: T) s = play T (play [e] s) :=
  play_append [e] T s

/-- A trace without transactions of its own is one emitted event. -/
theorem play_emit {e : Event} (h : e.isBus = false) (s : State) : play [e] s = s.emit e := by
  simp [play, State.emit, h]

/-- One transaction. -/
theorem play_transact {e : Event} (h : e.isBus = true) (s : State) : play [e] s = s.transact e := by
  simp [play, State.transact, h]

/-- The context with its access counter at `n`. -/
def setCount (n : Nat) (c : Ctx) : Ctx := { c with accessCount := n }

/-- A change of the context that ignores and keeps the access counter commutes with a trace. -/
theorem play_modCtx (T : List Event) (f : Ctx → Ctx) (s : State)
    (h : ∀ (n : Nat) (c : Ctx), f (setCount n c) = setCount n (f c)) :
    play T (s.modCtx f) = (play T s).modCtx f := by
  have hc : setCount s.ctx.accessCount s.ctx = s.ctx := rfl
  have hk : (f s.ctx).accessCount = s.ctx.accessCount := by
    rw [← hc, h]; rfl
  apply State.ext_fields <;> try rfl
  change setCount ((f s.ctx).accessCount + T.countP Event.isBus) (f s.ctx)
    = f (setCount (s.ctx.accessCount + T.countP Event.isBus) s.ctx)
  rw [h, hk]

/-! ## gives -/

/-- The oracle reads the chip, the history and the script, nothing else (R78). -/
theorem answersAs_congr {s t : State} (hc : s.chip = t.chip) (hh : s.history = t.history)
    (hs : s.script = t.script) (e : Event) : answersAs s e = answersAs t e := by
  cases e <;> simp [answersAs, oracleWrite, oracleRead, hc, hh, hs]

theorem gives_congr {s t : State} (hc : s.chip = t.chip) (hh : s.history = t.history)
    (hs : s.script = t.script) (T : List Event) : gives s T = gives t T := by
  induction T generalizing s t with
  | nil => rfl
  | cons e T ih =>
    simp only [gives]
    rw [answersAs_congr hc hh hs e, ih (s := play [e] s) (t := play [e] t)] <;> simp [hc, hh, hs]

@[simp] theorem gives_nil (s : State) : gives s [] = true := rfl

theorem gives_append (s : State) (T U : List Event) :
    gives s (T ++ U) = (gives s T && gives (play T s) U) := by
  induction T generalizing s with
  | nil => simp
  | cons e T ih => simp [gives, ih, play_cons e T, Bool.and_assoc]

/-- Changing the context does not change the oracle's answers. -/
@[simp] theorem gives_modCtx (f : Ctx → Ctx) (s : State) (T : List Event) :
    gives (s.modCtx f) T = gives s T :=
  gives_congr (s := (s.modCtx f)) (t := s) rfl rfl rfl T

theorem gives_setCtx (c : Ctx) (s : State) (T : List Event) :
    gives { s with ctx := c } T = gives s T :=
  gives_congr (s := { s with ctx := c }) (t := s) rfl rfl rfl T

theorem gives_setDraws (n : Nat) (s : State) (T : List Event) :
    gives { s with draws := n } T = gives s T :=
  gives_congr (s := { s with draws := n }) (t := s) rfl rfl rfl T

/-- An event that is no transaction asks the oracle nothing. -/
theorem gives_emit {e : Event} (h : e.isBus = false) (s : State) (T : List Event) :
    gives s (e :: T) = gives (s.emit e) T := by
  simp only [gives, play_emit h]
  cases e <;> simp_all [answersAs, Event.isBus]

/-- A script made from a trace gives that trace, whatever the chip does. -/
theorem gives_answersOf (T : List Event) (rest : List Answer) (s : State)
    (h : s.script = answersOf T ++ rest) : gives s T = true := by
  induction T generalizing s with
  | nil => rfl
  | cons e T ih =>
    simp only [gives, Bool.and_eq_true]
    cases e with
    | busW a v ok =>
      cases ok <;> simp [answersOf] at h <;>
        exact ⟨by simp [answersAs, oracleWrite, h], ih _ (by simp [h, answersOf, Event.isBus])⟩
    | busR a r =>
      cases r <;> simp [answersOf] at h <;>
        exact ⟨by simp [answersAs, oracleRead, h], ih _ (by simp [h, answersOf, Event.isBus])⟩
    | _ => exact ⟨rfl, ih _ (by simpa [answersOf, Event.isBus] using h)⟩

/-! ## Bus operations that issue a trace -/

/-- Asked in a state whose oracle gives `T`, `x` issues `T` and answers `r`. -/
def Issues {α : Type} (x : BusOp α) (T : List Event) (r : Option α) : Prop :=
  ∀ s : State, gives s T = true → x s = (r, play T s)

theorem Issues.busWrite (a v : Byte) (ok : Bool) :
    Issues (busWrite a v) [.busW a v ok] (if ok then some () else none) := by
  intro s h
  have h' : oracleWrite s a v = ok := by simpa [gives, answersAs] using h
  simp [Machine.busWrite, h', play_transact (e := .busW a v ok) rfl]

theorem Issues.busRead (a : Byte) (r : Option Byte) : Issues (busRead a) [.busR a r] r := by
  intro s h
  have h' : oracleRead s a = r := by simpa [gives, answersAs] using h
  simp [Machine.busRead, h', play_transact (e := .busR a r) rfl]

theorem Issues.pure {α : Type} (v : α) : Issues (BusOp.pure v) [] (some v) := by
  intro s _; simp [BusOp.pure]

theorem Issues.emit {e : Event} (h : e.isBus = false) : Issues (BusOp.emit e) [e] (some ()) := by
  intro s _; simp [BusOp.emit, play_emit h]

theorem Issues.bind {α β : Type} {x : BusOp α} {f : α → BusOp β} {T U : List Event} {v : α}
    {r : Option β} (hx : Issues x T (some v)) (hf : Issues (f v) U r) :
    Issues (x.bind f) (T ++ U) r := by
  intro s h
  rw [gives_append, Bool.and_eq_true] at h
  simp only [BusOp.bind, hx s h.1, hf _ h.2, play_append]

theorem Issues.bind_none {α β : Type} {x : BusOp α} {T : List Event} (hx : Issues x T none)
    (f : α → BusOp β) : Issues (x.bind f) T none := by
  intro s h
  simp only [BusOp.bind, hx s h]

theorem Issues.andThen {α β : Type} {x : BusOp α} {y : BusOp β} {T U : List Event} {v : α}
    {r : Option β} (hx : Issues x T (some v)) (hy : Issues y U r) : Issues (x.andThen y) (T ++ U) r :=
  Issues.bind hx hy

theorem Issues.andThen_none {α β : Type} {x : BusOp α} {T : List Event} (hx : Issues x T none)
    (y : BusOp β) : Issues (x.andThen y) T none := Issues.bind_none hx _

/-! ## Cut traces -/

theorem cutAt_lt {T U : List Event} {k : Nat} (h : k < T.length) : cutAt (T ++ U) k = cutAt T k := by
  simp [cutAt, List.take_append_of_le_length (Nat.le_of_lt h), List.getElem?_append_left h]

theorem cutAt_ge {T U : List Event} {k : Nat} (h : T.length ≤ k) :
    cutAt (T ++ U) k = T ++ cutAt U (k - T.length) := by
  simp [cutAt, List.take_append, List.getElem?_append_right h, List.take_of_length_le h]

theorem busAt_lt {T U : List Event} {k : Nat} (h : k < T.length) : busAt (T ++ U) k = busAt T k := by
  simp [busAt, List.getElem?_append_left h]

theorem busAt_ge {T U : List Event} {k : Nat} (h : T.length ≤ k) :
    busAt (T ++ U) k = busAt U (k - T.length) := by
  simp [busAt, List.getElem?_append_right h]

/-- A bus operation that stops at every cut of the trace it issues. -/
def StopsAtCuts {α : Type} (x : BusOp α) (T : List Event) : Prop :=
  ∀ k : Nat, busAt T k = true → Issues x (cutAt T k) none

theorem StopsAtCuts.nil {α : Type} (x : BusOp α) : StopsAtCuts x [] := by
  intro k h; simp [busAt] at h

theorem StopsAtCuts.emit {α : Type} {e : Event} (h : e.isBus = false) (x : BusOp α) :
    StopsAtCuts x [e] := by
  intro k hk; cases k <;> simp_all [busAt]

theorem StopsAtCuts.busWrite (a v : Byte) : StopsAtCuts (busWrite a v) [.busW a v true] := by
  intro k hk
  cases k with
  | zero => simpa [cutAt, erred] using Issues.busWrite a v false
  | succ k => simp [busAt] at hk

theorem StopsAtCuts.busRead (a v : Byte) : StopsAtCuts (busRead a) [.busR a (some v)] := by
  intro k hk
  cases k with
  | zero => simpa [cutAt, erred] using Issues.busRead a none
  | succ k => simp [busAt] at hk

theorem StopsAtCuts.bind {α β : Type} {x : BusOp α} {f : α → BusOp β} {T U : List Event} {v : α}
    (hx : Issues x T (some v)) (cx : StopsAtCuts x T) (cf : StopsAtCuts (f v) U) :
    StopsAtCuts (x.bind f) (T ++ U) := by
  intro k hk
  by_cases h : k < T.length
  · rw [busAt_lt h] at hk
    rw [cutAt_lt h]; exact Issues.bind_none (cx k hk) f
  · rw [busAt_ge (by omega)] at hk
    rw [cutAt_ge (by omega)]; exact Issues.bind hx (cf _ hk)

theorem StopsAtCuts.andThen {α β : Type} {x : BusOp α} {y : BusOp β} {T U : List Event} {v : α}
    (hx : Issues x T (some v)) (cx : StopsAtCuts x T) (cy : StopsAtCuts y U) :
    StopsAtCuts (x.andThen y) (T ++ U) := StopsAtCuts.bind hx cx cy

end Sys2Proof.Safety
end

