-- ==== Sys2Proof/Laws/Bus.lean ====
section
/-! SUPPORT. For each transport operation, write list and poll: the trace it issues, and that it stops where a
transaction of that trace returns `Err`. -/

namespace Sys2Proof.Safety

open Sys2Proof Sys2Proof.Machine

variable (P : Params)

/-! ## Transport operations (R142 to R146) -/

theorem issues_bankSel (b : Byte) : Issues (bankSel P b) [bankEv P b] (some ()) :=
  Issues.busWrite _ _ true

theorem stops_bankSel (b : Byte) : StopsAtCuts (bankSel P b) [bankEv P b] := StopsAtCuts.busWrite _ _

theorem issues_wr (b a v : Byte) : Issues (wr P b a v) (wrEv P b a v) (some ()) :=
  (issues_bankSel P b).andThen (Issues.busWrite a v true)

theorem stops_wr (b a v : Byte) : StopsAtCuts (wr P b a v) (wrEv P b a v) :=
  StopsAtCuts.andThen (issues_bankSel P b) (stops_bankSel P b) (StopsAtCuts.busWrite a v)

theorem issues_writeAll (ps : List (Byte × Byte)) : Issues (writeAll ps) (pairsEv ps) (some ()) := by
  induction ps with
  | nil => exact Issues.pure ()
  | cons p ps ih => exact (Issues.busWrite p.1 p.2 true).andThen ih

theorem stops_writeAll (ps : List (Byte × Byte)) : StopsAtCuts (writeAll ps) (pairsEv ps) := by
  induction ps with
  | nil => exact StopsAtCuts.nil _
  | cons p ps ih =>
    exact StopsAtCuts.andThen (Issues.busWrite p.1 p.2 true) (StopsAtCuts.busWrite p.1 p.2) ih

theorem issues_wrSeq (b : Byte) (ps : List (Byte × Byte)) :
    Issues (wrSeq P b ps) (wrSeqEv P b ps) (some ()) :=
  (issues_bankSel P b).andThen (issues_writeAll ps)

theorem stops_wrSeq (b : Byte) (ps : List (Byte × Byte)) :
    StopsAtCuts (wrSeq P b ps) (wrSeqEv P b ps) :=
  StopsAtCuts.andThen (issues_bankSel P b) (stops_bankSel P b) (stops_writeAll ps)

theorem issues_rd (r : Reg) (v : Byte) : Issues (rd P r.bank r.addr) (rdEv P r v) (some v) :=
  (issues_bankSel P r.bank).andThen (Issues.busRead r.addr (some v))

theorem stops_rd (r : Reg) (v : Byte) : StopsAtCuts (rd P r.bank r.addr) (rdEv P r v) :=
  StopsAtCuts.andThen (issues_bankSel P r.bank) (stops_bankSel P r.bank) (StopsAtCuts.busRead r.addr v)

theorem issues_readAll (a : Byte) (bs : List Byte) :
    Issues (readAll a bs.length) (readsEv a bs) (some bs) := by
  induction bs generalizing a with
  | nil => exact Issues.pure _
  | cons v vs ih =>
    refine Issues.bind (T := [.busR a (some v)]) (Issues.busRead a (some v)) ?_
    have h := Issues.bind (f := fun us => BusOp.pure (v :: us)) (ih (a + 1)) (Issues.pure (v :: vs))
    rwa [List.append_nil] at h

theorem stops_readAll (a : Byte) (bs : List Byte) :
    StopsAtCuts (readAll a bs.length) (readsEv a bs) := by
  induction bs generalizing a with
  | nil => exact StopsAtCuts.nil _
  | cons v vs ih =>
    refine StopsAtCuts.bind (T := [.busR a (some v)]) (Issues.busRead a (some v))
      (StopsAtCuts.busRead a v) ?_
    have h := StopsAtCuts.bind (f := fun us => BusOp.pure (v :: us)) (issues_readAll (a + 1) vs)
      (ih (a + 1)) (StopsAtCuts.nil _)
    rwa [List.append_nil] at h

theorem issues_rdBulk (b a n : Byte) (bs : List Byte) (h : bs.length = n.toNat) :
    Issues (rdBulk P b a n) (bulkEv P b a bs) (some bs) := by
  unfold rdBulk; rw [← h]
  exact (issues_bankSel P b).andThen (issues_readAll a bs)

theorem stops_rdBulk (b a n : Byte) (bs : List Byte) (h : bs.length = n.toNat) :
    StopsAtCuts (rdBulk P b a n) (bulkEv P b a bs) := by
  unfold rdBulk; rw [← h]
  exact StopsAtCuts.andThen (issues_bankSel P b) (stops_bankSel P b) (stops_readAll a bs)

/-! ## Write lists (R76) -/

theorem listEv_cons (g : WriteGroup) (l : WriteList) :
    listEv P (g :: l) = wrSeqEv P g.bank g.entries ++ listEv P l := rfl

theorem issues_wrList (l : WriteList) : Issues (wrList P l) (listEv P l) (some ()) := by
  induction l with
  | nil => exact Issues.pure ()
  | cons g l ih => exact (issues_wrSeq P g.bank g.entries).andThen ih

theorem stops_wrList (l : WriteList) : StopsAtCuts (wrList P l) (listEv P l) := by
  induction l with
  | nil => exact StopsAtCuts.nil _
  | cons g l ih =>
    exact StopsAtCuts.andThen (issues_wrSeq P g.bank g.entries) (stops_wrSeq P g.bank g.entries) ih

/-! ## Polls (R249) -/

theorem issues_waitGap (g : Gap) : Issues (waitGap g) (gapEv g) (some ()) := by
  cases g with
  | none => exact Issues.pure ()
  | pcrGap => exact Issues.emit rfl
  | txlockGap => exact Issues.emit rfl

theorem stops_waitGap (g : Gap) : StopsAtCuts (waitGap g) (gapEv g) := by
  cases g with
  | none => exact StopsAtCuts.nil _
  | pcrGap => exact StopsAtCuts.emit rfl _
  | txlockGap => exact StopsAtCuts.emit rfl _

theorem unsetEv_cons (sb : StatusBit) (g : Gap) (v : Byte) (vs : List Byte) :
    unsetEv P sb g (v :: vs) = rdEv P sb.reg v ++ (gapEv g ++ unsetEv P sb g vs) := by
  simp [unsetEv]

/-- A read that finds the bit set is the one `statusSet` accepts (R103). -/
theorem statusSet_eq (sb : StatusBit) (v : Byte) :
    statusSet sb v = (v.getLsbD sb.bit.val == sb.level) := rfl

/-- A byte of `allUnset` is not set. -/
theorem allUnset_cons {sb : StatusBit} {v : Byte} {vs : List Byte} :
    allUnset sb (v :: vs) = true ↔ statusSet sb v = false ∧ allUnset sb vs = true := by
  simp [allUnset, statusSet]

theorem issues_poll_set (sb : StatusBit) (g : Gap) (n : Nat) (vs : List Byte) (v : Byte)
    (hn : vs.length < n) (hvs : allUnset sb vs = true) (hv : statusSet sb v = true) :
    Issues (pollLoop P sb g n) (unsetEv P sb g vs ++ rdEv P sb.reg v) (some true) := by
  induction vs generalizing n with
  | nil =>
    obtain ⟨m, rfl⟩ : ∃ m, n = m + 1 := ⟨n - 1, by simp at hn; omega⟩
    have h := Issues.bind (f := fun v => if statusSet sb v then BusOp.pure true
      else (waitGap g).andThen (pollLoop P sb g m)) (r := some true) (U := [])
      (issues_rd P sb.reg v) (by simpa [hv] using Issues.pure true)
    simpa [unsetEv, pollLoop] using h
  | cons w ws ih =>
    obtain ⟨m, rfl⟩ : ∃ m, n = m + 1 := ⟨n - 1, by simp at hn; omega⟩
    obtain ⟨hw, hws⟩ := allUnset_cons.1 hvs
    rw [unsetEv_cons, List.append_assoc, List.append_assoc]
    refine Issues.bind (issues_rd P sb.reg w) ?_
    rw [if_neg (by simp [hw])]
    exact (issues_waitGap g).andThen (ih m (by simp at hn; omega) hws)

theorem issues_poll_unset (sb : StatusBit) (g : Gap) (vs : List Byte) (hvs : allUnset sb vs = true) :
    Issues (pollLoop P sb g vs.length) (unsetEv P sb g vs) (some false) := by
  induction vs with
  | nil => exact Issues.pure false
  | cons w ws ih =>
    obtain ⟨hw, hws⟩ := allUnset_cons.1 hvs
    rw [unsetEv_cons]
    refine Issues.bind (issues_rd P sb.reg w) ?_
    rw [if_neg (by simp [hw])]
    exact (issues_waitGap g).andThen (ih hws)

theorem stops_poll_set (sb : StatusBit) (g : Gap) (n : Nat) (vs : List Byte) (v : Byte)
    (hn : vs.length < n) (hvs : allUnset sb vs = true) :
    StopsAtCuts (pollLoop P sb g n) (unsetEv P sb g vs ++ rdEv P sb.reg v) := by
  induction vs generalizing n with
  | nil =>
    obtain ⟨m, rfl⟩ : ∃ m, n = m + 1 := ⟨n - 1, by simp at hn; omega⟩
    have h := StopsAtCuts.bind (f := fun v => if statusSet sb v then BusOp.pure true
      else (waitGap g).andThen (pollLoop P sb g m)) (U := [])
      (issues_rd P sb.reg v) (stops_rd P sb.reg v) (StopsAtCuts.nil _)
    simpa [unsetEv, pollLoop] using h
  | cons w ws ih =>
    obtain ⟨m, rfl⟩ : ∃ m, n = m + 1 := ⟨n - 1, by simp at hn; omega⟩
    obtain ⟨hw, hws⟩ := allUnset_cons.1 hvs
    rw [unsetEv_cons, List.append_assoc, List.append_assoc]
    refine StopsAtCuts.bind (issues_rd P sb.reg w) (stops_rd P sb.reg w) ?_
    rw [if_neg (by simp [hw])]
    exact StopsAtCuts.andThen (issues_waitGap g) (stops_waitGap g) (ih m (by simp at hn; omega) hws)

theorem stops_poll_unset (sb : StatusBit) (g : Gap) (vs : List Byte) (hvs : allUnset sb vs = true) :
    StopsAtCuts (pollLoop P sb g vs.length) (unsetEv P sb g vs) := by
  induction vs with
  | nil => exact StopsAtCuts.nil _
  | cons w ws ih =>
    obtain ⟨hw, hws⟩ := allUnset_cons.1 hvs
    rw [unsetEv_cons]
    refine StopsAtCuts.bind (issues_rd P sb.reg w) (stops_rd P sb.reg w) ?_
    rw [if_neg (by simp [hw])]
    exact StopsAtCuts.andThen (issues_waitGap g) (stops_waitGap g) (ih hws)

end Sys2Proof.Safety
end

