-- ==== Sys2Proof/Laws/Op.lean ====
section
/-! SUPPORT. How the steps of an operation combine (R311, R313), and what a bus operation does inside one. -/

namespace Sys2Proof.Machine

open Sys2Proof Sys2Proof.Safety

variable {α β : Type}

theorem Op.bind_ok {x : Op α} {s s' : State} {v : α} (h : x s = (.ok v, s')) (f : α → Op β) :
    x.bind f s = f v s' := by simp only [Op.bind, h]

theorem Op.bind_fail {x : Op α} {s s' : State} {e : ErrCode} (h : x s = (.fail e, s'))
    (f : α → Op β) : x.bind f s = (.fail e, s') := by simp only [Op.bind, h]

theorem Op.bind_fault {x : Op α} {s s' : State} {t : Fault} (h : x s = (.fault t, s'))
    (f : α → Op β) : x.bind f s = (.fault t, s') := by simp only [Op.bind, h]

theorem Op.bind_refuse {x : Op α} {s s' : State} {q : Refusal} (h : x s = (.refuse q, s'))
    (f : α → Op β) : x.bind f s = (.refuse q, s') := by simp only [Op.bind, h]

theorem Op.andThen_ok {x : Op α} {s s' : State} {v : α} (h : x s = (.ok v, s')) (y : Op β) :
    x.andThen y s = y s' := Op.bind_ok h _

theorem Op.andThen_fail {x : Op α} {s s' : State} {e : ErrCode} (h : x s = (.fail e, s'))
    (y : Op β) : x.andThen y s = (.fail e, s') := Op.bind_fail h _

theorem Op.andThen_fault {x : Op α} {s s' : State} {t : Fault} (h : x s = (.fault t, s'))
    (y : Op β) : x.andThen y s = (.fault t, s') := Op.bind_fault h _

theorem Op.andThen_refuse {x : Op α} {s s' : State} {q : Refusal} (h : x s = (.refuse q, s'))
    (y : Op β) : x.andThen y s = (.refuse q, s') := Op.bind_refuse h _

/-- A bus operation inside another, its transactions completing (R141). -/
theorem Op.ofBus_ok {x : BusOp α} {T : List Event} {v : α} (h : Issues x T (some v)) {s : State}
    (g : gives s T = true) : Op.ofBus x s = (.ok v, play T s) := by
  simp only [Op.ofBus, h s g]

/-- A bus operation inside another, a transaction returning `Err` (R141). -/
theorem Op.ofBus_cut {x : BusOp α} {T : List Event} (h : StopsAtCuts x T) {k : Nat}
    (hk : busAt T k = true) {s : State} (g : gives s (cutAt T k) = true) :
    Op.ofBus x s = (.fail .transportError, play (cutAt T k) s) := by
  simp only [Op.ofBus, h k hk s g]

/-- A run that does not pass 0xFF is not refused (R146). -/
theorem bulkWraps_of_fits {a n : Byte} (h : runFits a n = true) : bulkWraps a n = false := by
  simp only [runFits, decide_eq_true_eq] at h
  simp only [bulkWraps, decide_eq_false_iff_not]
  omega

/-- A run that passes 0xFF is refused (R146). -/
theorem bulkWraps_of_passes {a n : Byte} (h : runFits a n = false) : bulkWraps a n = true := by
  simp only [runFits, decide_eq_false_iff_not] at h
  have := a.isLt
  simp only [bulkWraps, decide_eq_true_eq]
  omega

/-- A bulk read past 0xFF is refused before any transaction (R146). -/
theorem rdBulkOp_wraps {P : Params} {b a n : Byte} (h : runFits a n = false) (s : State) :
    rdBulkOp P b a n s = (.refuse .bulkWrap, s) := by
  rw [rdBulkOp, if_pos (bulkWraps_of_passes h)]; rfl

/-- A bulk read inside another operation, its transactions completing (R146). -/
theorem rdBulkOp_ok {P : Params} {b a n : Byte} (hw : runFits a n = true) {bs : List Byte}
    (hl : bs.length = n.toNat) {s : State} (g : gives s (bulkEv P b a bs) = true) :
    rdBulkOp P b a n s = (.ok bs, play (bulkEv P b a bs) s) := by
  rw [rdBulkOp, bulkWraps_of_fits hw]
  exact Op.ofBus_ok (issues_rdBulk P b a n bs hl) g

/-- A bulk read inside another operation, a transaction returning `Err` (R146). -/
theorem rdBulkOp_cut {P : Params} {b a n : Byte} (hw : runFits a n = true) {bs : List Byte}
    (hl : bs.length = n.toNat) {k : Nat} (hk : busAt (bulkEv P b a bs) k = true) {s : State}
    (g : gives s (cutAt (bulkEv P b a bs) k) = true) :
    rdBulkOp P b a n s = (.fail .transportError, play (cutAt (bulkEv P b a bs) k) s) := by
  rw [rdBulkOp, bulkWraps_of_fits hw]
  exact Op.ofBus_cut (stops_rdBulk P b a n bs hl) hk g

/-- What a transport operation run by itself leaves, its transactions completing. -/
theorem finishBus_ok {x : BusOp α} {T : List Event} {v : α} (h : Issues x T (some v)) {s : State}
    (g : gives s T = true) (val : α → Value) :
    finishBus val (x s) = (play T s).record (.ok (val v)) := by
  simp only [finishBus, h s g]

/-- What a transport operation run by itself leaves, a transaction returning `Err`. -/
theorem finishBus_cut {x : BusOp α} {T : List Event} (h : StopsAtCuts x T) {k : Nat}
    (hk : busAt T k = true) {s : State} (g : gives s (cutAt T k) = true) (val : α → Value) :
    finishBus val (x s) = (play (cutAt T k) s).record (.fail .transportError) := by
  simp only [finishBus, h k hk s g]

/-- Each operation of the machine is its parametric form at the machine's own parameters. -/
theorem exec_eq_execWith (i : Instr) (s : State) : exec i s = execWith Config.P i s := by
  cases i <;> rfl

end Sys2Proof.Machine
end

