-- ==== Sys2Proof/Laws/Taken.lean ====
section
/-! SUPPORT. The shared operations that take a failure, in the form the statements use (R245, R250, R257), and a
bus operation run by itself. -/

namespace Sys2Proof.Machine

open Sys2Proof Sys2Proof.Safety

/-- SCHEDULE leaves what R250 says. -/
theorem schedule_eq (P : Params) (d : DelayClass) (s : State) : schedule P d s = scheduled P d s := by
  apply State.ext_fields <;> simp [scheduled, schedEv]
  split <;> simp

/-- RETRY_UPDATE leaves what R245 says. -/
theorem retryUpdate_eq (P : Params) (k : Bool) (e : ErrCode) (s : State) :
    retryUpdate P k e s = retried P k e s := by
  simp only [retryUpdate, schedule_eq, retried]
  have hh : decide (retryLimit < (if k = true then (0 : U32) else s.ctx.retry + 1).toNat)
      = retryFalls k s := by
    cases k <;> simp [retryFalls, retryCounted, retryLimit, BitVec.toNat_add]
  have hc : (if k = true then (0 : U32) else s.ctx.retry + 1) = BitVec.ofNat 32 (retryCounted k s) := by
    cases k
    · apply BitVec.eq_of_toNat_eq; simp [retryCounted, BitVec.toNat_add]
    · rfl
  rw [hh, hc]
  congr 1
  cases retryFalls k s <;> simp <;> rfl

/-- Taking a transport error leaves what R257 says. -/
theorem deferTransportError_eq (P : Params) (s : State) : deferTransportError P s = deferred P s := by
  rw [deferTransportError, schedule_eq]; rfl

/-- A transport operation run by itself: what it leaves when every transaction completes, and that it stops
where one returns `Err`. -/
theorem exec_bus {α : Type} {i : Instr} {x : BusOp α} {T : List Event} {v : α} {val : α → Value}
    {s : State} (hs : s.live = true) (hx : exec i s = onContext s (.next (finishBus val (x s))))
    (h : Issues x T (some v)) (c : StopsAtCuts x T) :
    (gives s T = true → exec i s = .next ((play T s).record (.ok (val v))))
      ∧ failsAtCut i s s T (fun _ c => c) := by
  rw [onContext_live hs] at hx
  refine ⟨fun g => ?_, fun k hk g => ?_⟩
  · rw [hx, finishBus_ok h g]
  · rw [hx, finishBus_cut c hk g]; rfl

/-- An operation on the context is refused on a detached one. -/
theorem refusedDetached_of {i : Instr} {k : State → Host.Outcome State Fault Refusal}
    (h : ∀ s, exec i s = onContext s (k s)) : refusedDetached i := by
  intro s hc hd; rw [h, onContext_detached hc hd]

/-- An operation that only computes runs where `computes` says. -/
theorem unlessDetached_computes {s : State} (h : computes s = true)
    (k : Host.Outcome State Fault Refusal) : unlessDetached s k = k := by
  apply unlessDetached_runs
  rintro ⟨h1, h2⟩
  simp [computes, h1, h2] at h

end Sys2Proof.Machine
end

