-- ==== Sys2Proof/Laws/Calculator.lean ====
section
/-! SUPPORT. Each calculator operation in exact arithmetic: what it answers, and when it is refused or faults. -/

namespace Sys2Proof.Machine

open Sys2Proof Sys2Proof.Safety

/-! ## Products (R160) -/

theorem mul32_ok {a b : Nat} (h : a * b < 4294967296) : mul32 a b = .ok (a * b) := by
  simp [mul32]; omega

theorem mul32_refused {a b : Nat} (h : 4294967296 ≤ a * b) : mul32 a b = .refuse .overflow := by
  simp [mul32]; omega

theorem byte_eq_zero {q : Byte} : q = 0#8 ↔ q.toNat = 0 :=
  ⟨fun h => by simp [h], fun h => BitVec.eq_of_toNat_eq h⟩

/-! ## TX physical clock and pixel mux (R168, R170) -/

theorem txPhyclk_ok {p : U32} (h : p.toNat * 7 < 4294967296) :
    txPhyclk p = .ok (BitVec.ofNat 32 (p.toNat * 7 / 2)) := by
  simp [txPhyclk, mul32_ok h, Out.bind]

theorem txPhyclk_refused {p : U32} (h : 4294967296 ≤ p.toNat * 7) :
    txPhyclk p = .refuse .overflow := by
  simp [txPhyclk, mul32_refused h, Out.bind]

theorem phy_toNat {p : U32} (h : p.toNat * 7 < 4294967296) :
    (BitVec.ofNat 32 (p.toNat * 7 / 2)).toNat = p.toNat * 7 / 2 := by
  simp; omega

theorem txPixmux_fixed {p : U32} {sd : Byte} (h : p.toNat < 150000) : txPixmux p sd = .ok 7 := by
  simp [txPixmux, txPixmuxFixedBelow, h]

theorem txPixmux_ok {p : U32} {sd : Byte} (h0 : 150000 ≤ p.toNat) (h : p.toNat * 7 < 4294967296)
    (h2 : p.toNat * 7 / 2 * sd.toNat * 2 < 4294967296) :
    txPixmux p sd = .ok (pixBucket (p.toNat * 7 / 2 * sd.toNat * 2 / (p.toNat * 7))) := by
  rw [txPixmux, if_neg (by simp [txPixmuxFixedBelow]; omega), txPhyclk_ok h]
  simp only [Out.bind]
  rw [phy_toNat h, mul32_ok (by omega)]
  simp only []
  rw [mul32_ok h2]

theorem txPixmux_refused {p : U32} {sd : Byte} (h0 : 150000 ≤ p.toNat)
    (h : 4294967296 ≤ p.toNat * 7 ∨ 4294967296 ≤ p.toNat * 7 / 2 * sd.toNat * 2) :
    txPixmux p sd = .refuse .overflow := by
  rw [txPixmux, if_neg (by simp [txPixmuxFixedBelow]; omega)]
  by_cases h7 : p.toNat * 7 < 4294967296
  · rw [txPhyclk_ok h7]
    simp only [Out.bind]
    rw [phy_toNat h7]
    by_cases h1 : p.toNat * 7 / 2 * sd.toNat < 4294967296
    · rw [mul32_ok h1]
      simp only []
      rw [mul32_refused (by omega)]
    · rw [mul32_refused (by omega)]
  · rw [txPhyclk_refused (by omega)]; rfl

/-! ## Divider register (R171) -/

theorem txDivreg_fault {p : U32} {q sd : Byte} (h : p.toNat * 7 < 4294967296)
    (hq : q.toNat = 0 ∨ p.toNat < q.toNat) : txDivreg p q sd = .fault .divZero := by
  rw [txDivreg, txPhyclk_ok h]
  simp only [Out.bind]
  by_cases h0 : q.toNat = 0
  · rw [if_pos (byte_eq_zero.2 h0)]
  · rw [if_neg (by rwa [byte_eq_zero]), if_pos (Nat.div_eq_of_lt (by omega))]

theorem txDivreg_divides {p : U32} {q sd : Byte} (h : p.toNat * 7 < 4294967296) (hq : 1 ≤ q.toNat)
    (hp : q.toNat ≤ p.toNat) :
    txDivreg p q sd = (mul32 (p.toNat * 7 / 2) sd.toNat).bind fun t =>
      .ok (BitVec.ofNat 8 (t / (p.toNat / q.toNat))) := by
  have hd := Nat.div_pos hp hq
  rw [txDivreg, txPhyclk_ok h]
  simp only [Out.bind]
  rw [if_neg (by rw [byte_eq_zero]; omega), if_neg (by omega), phy_toNat h]

/-! ## The TX PLL setting (R167, R169, R172) -/

/-- With a well-formed parameter set the pre-divider divides every clock from 1 on into at least 1 (R172). -/
theorem txPrediv_bounds {P : Params} (h : P.wellFormed = true) {p : U32} (hp : 1 ≤ p.toNat) :
    1 ≤ (txPrediv P p).toNat ∧ (txPrediv P p).toNat ≤ p.toNat := by
  have h' : P.txPrediv.wellFormed = true := by simp [Params.wellFormed] at h; exact h.1.1.1
  simp [TxPredivParam.wellFormed, byte_eq_zero] at h'
  have := P.txPrediv.v2.isLt
  have := P.txPrediv.v3.isLt
  have := P.txPrediv.v4.isLt
  unfold txPrediv
  repeat' split
  all_goals first | omega | (simp; omega)

theorem txPrediv_eq (P : Params) (p : U32) : txPrediv P p = (txPllOf P p.toNat).preDiv := rfl

theorem txSerdiv_eq (P : Params) {p : U32} (h : p.toNat * 7 < 4294967296) :
    txSerdiv P (BitVec.ofNat 32 (p.toNat * 7 / 2)) = (txPllOf P p.toNat).serialDiv := by
  unfold txSerdiv; rw [phy_toNat h]; rfl

theorem computeTxPll_zero (P : Params) {p : U32} (h : p.toNat = 0) :
    computeTxPll P p = .fault .divZero := by
  have h7 : p.toNat * 7 < 4294967296 := by omega
  have hq : (txPrediv P p).toNat = 1 := by unfold txPrediv; rw [if_pos (by omega)]; rfl
  simp only [computeTxPll, txPhyclk_ok h7, Out.bind, txPixmux_fixed (show p.toNat < 150000 by omega)]
  rw [txDivreg_fault h7 (by omega)]

theorem computeTxPll_ok {P : Params} (hP : P.wellFormed = true) {p : U32} (h1 : 1 ≤ p.toNat)
    (h : txPllFits P p.toNat = true) : computeTxPll P p = .ok (txPllOf P p.toNat) := by
  simp only [txPllFits, decide_eq_true_eq] at h
  obtain ⟨h7, hs, hx⟩ := h
  obtain ⟨b1, b2⟩ := txPrediv_bounds hP h1
  have hp : txPixmux p (txPllOf P p.toNat).serialDiv = .ok (txPllOf P p.toNat).pixDiv := by
    by_cases hl : p.toNat < 150000
    · rw [txPixmux_fixed hl]; simp [txPllOf, hl]
    · rw [txPixmux_ok (by omega) h7 (hx (by omega))]
      simp only [pixBucket, txPllOf, hl, false_or]
  simp only [computeTxPll, txPhyclk_ok h7, Out.bind, txSerdiv_eq P h7, hp]
  rw [txDivreg_divides h7 b1 b2, mul32_ok hs]
  rfl

theorem computeTxPll_refused {P : Params} (hP : P.wellFormed = true) {p : U32} (h1 : 1 ≤ p.toNat)
    (h : txPllFits P p.toNat = false) : computeTxPll P p = .refuse .overflow := by
  simp only [txPllFits, decide_eq_false_iff_not, not_and, Classical.not_imp, Nat.not_lt] at h
  obtain ⟨b1, b2⟩ := txPrediv_bounds hP h1
  by_cases h7 : p.toNat * 7 < 4294967296
  · simp only [computeTxPll, txPhyclk_ok h7, Out.bind, txSerdiv_eq P h7]
    by_cases hl : p.toNat < 150000
    · have hr : 4294967296 ≤ p.toNat * 7 / 2 * (txPllOf P p.toNat).serialDiv.toNat := by
        by_contra hc
        have := (h h7 (by omega)).1
        omega
      rw [txPixmux_fixed hl]
      simp only []
      rw [txDivreg_divides h7 b1 b2, mul32_refused hr]
      rfl
    · have hr : 4294967296 ≤ p.toNat * 7 / 2 * (txPllOf P p.toNat).serialDiv.toNat * 2 := by
        by_contra hc
        have := (h h7 (by omega)).2
        omega
      rw [txPixmux_refused (by omega) (Or.inr hr)]
  · simp only [computeTxPll, txPhyclk_refused (Nat.le_of_not_lt h7), Out.bind]

/-! ## Pixel clock of a timing (R173, R207) -/

theorem total_lt (ht vt : U16) : ht.toNat * vt.toNat < 4294967296 := by
  have := ht.isLt
  have := vt.isLt
  nlinarith

theorem pclkOfTiming_ok {ht vt : U16} {fr : Byte} (h : ht.toNat * vt.toNat * fr.toNat < 4294967296) :
    pclkOfTiming ht vt fr = .ok (BitVec.ofNat 32 (ht.toNat * vt.toNat * fr.toNat / 1000)) := by
  simp only [pclkOfTiming, mul32_ok (total_lt ht vt), Out.bind, mul32_ok h]

theorem pclkOfTiming_refused {ht vt : U16} {fr : Byte}
    (h : 4294967296 ≤ ht.toNat * vt.toNat * fr.toNat) :
    pclkOfTiming ht vt fr = .refuse .overflow := by
  simp only [pclkOfTiming, mul32_ok (total_lt ht vt), Out.bind, mul32_refused h]

/-! ## The PCR setting (R161, R162) -/

theorem pcrBand_eq (p : U32) : pcrBand p = desscOf p.toNat := by
  unfold pcrBand desscOf
  repeat' split
  all_goals first | rfl | omega

theorem pcrMDiv_eq (P : Params) (p : U32) : pcrMDiv P (pcrBand p) = mDivOf P p.toNat := by
  unfold pcrMDiv pcrBand mDivOf lowMDivValue
  repeat' split
  all_goals first | rfl | omega | simp_all

theorem computePcr_ok (P : Params) {p : U32} (h : pcrFits P p.toNat = true) (s : State) :
    computePcr P p s
      = (.ok (desscOf p.toNat, pcrIn P s p.toNat), { s with draws := s.draws + pcrDraws P p.toNat }) := by
  simp only [pcrFits, decide_eq_true_eq] at h
  simp only [computePcr, pcrMDiv_eq, mul32_ok h, Op.lift, Op.bind, pcrMLo]
  rw [show p.toNat * mDivOf P p.toNat / refDiv = mFullOf P p.toNat from rfl]
  by_cases hm : mFullOf P p.toNat / 1000 = 0
  · rw [if_neg (by omega)]
    simp only [Op.drawU32, Op.pure, pcrBand_eq, pcrIn, pcrOf, pcrDraws, hm, if_true]
    rfl
  · rw [if_pos (by omega)]
    simp only [Op.pure, pcrBand_eq, pcrIn, pcrOf, pcrDraws, hm, if_false]
    rfl

theorem computePcr_refused (P : Params) {p : U32} (h : pcrFits P p.toNat = false) (s : State) :
    computePcr P p s = (.refuse .overflow, s) := by
  simp only [pcrFits, decide_eq_false_iff_not, Nat.not_lt] at h
  simp only [computePcr, pcrMDiv_eq, mul32_refused h, Op.lift, Op.bind]

/-- A clock below 2400000 kHz is admitted by every sub-operation of COMPUTE_TX_PLL (R168, R170, R171). -/
theorem txPllFits_of_lt (P : Params) {p : Nat} (h : p < 2400000) : txPllFits P p = true := by
  have hs : (txPllOf P p).serialDiv.toNat < 256 := (txPllOf P p).serialDiv.isLt
  have hm : p * 7 / 2 * (txPllOf P p).serialDiv.toNat ≤ 8400000 * 255 :=
    Nat.mul_le_mul (by omega) (by omega)
  simp only [txPllFits, decide_eq_true_eq]
  omega

/-- A clock below 134217728 kHz is admitted by COMPUTE_PCR: the divider of M is at most 32 (R162, R165). -/
theorem pcrFits_of_lt (P : Params) {p : Nat} (h : p < 134217728) : pcrFits P p = true := by
  have hd : mDivOf P p ≤ 32 := by
    unfold mDivOf; cases P.pcrLowMDiv <;> simp <;> split_ifs <;> omega
  have hm : p * mDivOf P p ≤ 134217727 * 32 := Nat.mul_le_mul (by omega) hd
  simp only [pcrFits, decide_eq_true_eq]
  omega

end Sys2Proof.Machine
end

