-- ==== Sys2Proof/Laws/Leaves.lean ====
section
/-! SUPPORT. Operations that issue a trace and change the context: how they combine, and how they stop at a
transaction that returns `Err`. -/

namespace Sys2Proof.Safety

open Sys2Proof Sys2Proof.Machine

/-- A change of the context that ignores and keeps the access counter. -/
def CountFree (f : Ctx → Ctx) : Prop := ∀ (n : Nat) (c : Ctx), f (setCount n c) = setCount n (f c)

/-- Asked in a state whose oracle gives `T`, `x` issues `T`, changes the context by `f` and answers `r`. -/
def Leaves {α : Type} (x : Op α) (T : List Event) (f : Ctx → Ctx) (r : Out α) : Prop :=
  CountFree f ∧ ∀ s : State, gives s T = true → x s = (r, (play T s).modCtx f)

variable {α β : Type}

theorem Leaves.at {x : Op α} {T : List Event} {f : Ctx → Ctx} {r : Out α} (h : Leaves x T f r)
    {s : State} (g : gives s T = true) : x s = (r, (play T s).modCtx f) := h.2 s g

theorem Leaves.pure (v : α) : Leaves (Op.pure v) [] id (.ok v) :=
  ⟨fun _ _ => rfl, fun s _ => by simp [Op.pure, State.modCtx]⟩

theorem Leaves.lift (o : Out α) : Leaves (Op.lift o) [] id o :=
  ⟨fun _ _ => rfl, fun s _ => by simp [Op.lift, State.modCtx]⟩

theorem Leaves.modCtx {f : Ctx → Ctx} (h : CountFree f) : Leaves (Op.modCtx f) [] f (.ok ()) :=
  ⟨h, fun s _ => by simp [Op.modCtx, Op.update]⟩

theorem Leaves.emit {e : Event} (h : e.isBus = false) : Leaves (Op.emit e) [e] id (.ok ()) :=
  ⟨fun _ _ => rfl, fun s _ => by rw [play_emit h]; rfl⟩

theorem Leaves.ofBus {x : BusOp α} {T : List Event} {v : α} (h : Issues x T (some v)) :
    Leaves (Op.ofBus x) T id (.ok v) :=
  ⟨fun _ _ => rfl, fun _ g => Op.ofBus_ok h g⟩

theorem Leaves.congr {x : Op α} {T : List Event} {f g : Ctx → Ctx} {r : Out α} (h : Leaves x T f r)
    (e : f = g) : Leaves x T g r := e ▸ h

theorem Leaves.bind {x : Op α} {k : α → Op β} {T U : List Event} {f g : Ctx → Ctx} {v : α} {r : Out β}
    (hx : Leaves x T f (.ok v)) (hk : Leaves (k v) U g r) :
    Leaves (x.bind k) (T ++ U) (fun c => g (f c)) r := by
  refine ⟨fun n c => ?_, fun s h => ?_⟩
  · change g (f (setCount n c)) = setCount n (g (f c))
    rw [hx.1, hk.1]
  · rw [gives_append, Bool.and_eq_true] at h
    rw [Op.bind_ok (hx.2 s h.1), hk.2 _ (by rw [gives_modCtx]; exact h.2), play_append,
      play_modCtx U f _ hx.1]
    rfl

theorem Leaves.andThen {x : Op α} {y : Op β} {T U : List Event} {f g : Ctx → Ctx} {v : α} {r : Out β}
    (hx : Leaves x T f (.ok v)) (hy : Leaves y U g r) :
    Leaves (x.andThen y) (T ++ U) (fun c => g (f c)) r := Leaves.bind hx hy

/-- An outcome other than a value ends the whole (R311, R313). -/
theorem Leaves.bind_fail {x : Op α} {T : List Event} {f : Ctx → Ctx} {e : ErrCode}
    (hx : Leaves x T f (.fail e)) (k : α → Op β) : Leaves (x.bind k) T f (.fail e) :=
  ⟨hx.1, fun s h => Op.bind_fail (hx.2 s h) k⟩

theorem Leaves.bind_fault {x : Op α} {T : List Event} {f : Ctx → Ctx} {t : Fault}
    (hx : Leaves x T f (.fault t)) (k : α → Op β) : Leaves (x.bind k) T f (.fault t) :=
  ⟨hx.1, fun s h => Op.bind_fault (hx.2 s h) k⟩

theorem Leaves.bind_refuse {x : Op α} {T : List Event} {f : Ctx → Ctx} {q : Refusal}
    (hx : Leaves x T f (.refuse q)) (k : α → Op β) : Leaves (x.bind k) T f (.refuse q) :=
  ⟨hx.1, fun s h => Op.bind_refuse (hx.2 s h) k⟩

/-! ## Stopping at a transaction that returns `Err` (R141, R318) -/

/-- `x` issues `T` up to the transaction that returns `Err` and fails; `F k` is what it did to the context before
the transaction of event `k`. -/
def FailsAtCuts (x : Op α) (T : List Event) (F : Nat → Ctx → Ctx) : Prop :=
  ∀ k : Nat, busAt T k = true → Leaves x (cutAt T k) (F k) (.fail .transportError)

theorem FailsAtCuts.nil (x : Op α) (F : Nat → Ctx → Ctx) : FailsAtCuts x [] F := by
  intro k h; simp [busAt] at h

theorem FailsAtCuts.emit {e : Event} (h : e.isBus = false) (x : Op α) (F : Nat → Ctx → Ctx) :
    FailsAtCuts x [e] F := by
  intro k hk; cases k <;> simp_all [busAt]

theorem FailsAtCuts.ofBus {x : BusOp α} {T : List Event} (h : StopsAtCuts x T) :
    FailsAtCuts (Op.ofBus x) T (fun _ => id) :=
  fun _ hk => ⟨fun _ _ => rfl, fun _ g => Op.ofBus_cut h hk g⟩

theorem FailsAtCuts.bind {x : Op α} {k : α → Op β} {T U : List Event} {f : Ctx → Ctx} {v : α}
    {F G : Nat → Ctx → Ctx} (hx : Leaves x T f (.ok v)) (cx : FailsAtCuts x T F)
    (ck : FailsAtCuts (k v) U G) :
    FailsAtCuts (x.bind k) (T ++ U)
      (fun n => if n < T.length then F n else fun c => G (n - T.length) (f c)) := by
  intro n hn
  by_cases h : n < T.length
  · rw [busAt_lt h] at hn
    simp only [if_pos h, cutAt_lt h]
    exact Leaves.bind_fail (cx n hn) k
  · rw [busAt_ge (by omega)] at hn
    simp only [if_neg h]
    rw [cutAt_ge (by omega)]
    exact Leaves.bind hx (ck _ hn)

theorem FailsAtCuts.andThen {x : Op α} {y : Op β} {T U : List Event} {f : Ctx → Ctx} {v : α}
    {F G : Nat → Ctx → Ctx} (hx : Leaves x T f (.ok v)) (cx : FailsAtCuts x T F)
    (cy : FailsAtCuts y U G) :
    FailsAtCuts (x.andThen y) (T ++ U)
      (fun n => if n < T.length then F n else fun c => G (n - T.length) (f c)) :=
  FailsAtCuts.bind hx cx cy

theorem FailsAtCuts.congr {x : Op α} {T : List Event} {F G : Nat → Ctx → Ctx} (h : FailsAtCuts x T F)
    (e : ∀ k : Nat, busAt T k = true → F k = G k) : FailsAtCuts x T G :=
  fun k hk => e k hk ▸ h k hk

/-- The steps of an operation that change nothing before any of their cuts. -/
theorem FailsAtCuts.andThen_id {x : Op α} {y : Op β} {T U : List Event} {v : α}
    (hx : Leaves x T id (.ok v)) (cx : FailsAtCuts x T (fun _ => id))
    (cy : FailsAtCuts y U (fun _ => id)) : FailsAtCuts (x.andThen y) (T ++ U) (fun _ => id) :=
  (FailsAtCuts.andThen hx cx cy).congr fun k _ => by
    by_cases h : k < T.length
    · simp [h]
    · simp [h]; rfl

theorem busAt_length {T : List Event} {k : Nat} (h : busAt T k = true) : k < T.length := by
  by_contra hc
  simp [busAt, List.getElem?_eq_none (Nat.le_of_not_lt hc)] at h

/-! ## Transport operations inside others -/

theorem leaves_rdBulkOp {P : Params} {b a n : Byte} (hw : runFits a n = true) {bs : List Byte}
    (hl : bs.length = n.toNat) : Leaves (rdBulkOp P b a n) (bulkEv P b a bs) id (.ok bs) :=
  ⟨fun _ _ => rfl, fun _ g => rdBulkOp_ok hw hl g⟩

theorem fails_rdBulkOp {P : Params} {b a n : Byte} (hw : runFits a n = true) {bs : List Byte}
    (hl : bs.length = n.toNat) : FailsAtCuts (rdBulkOp P b a n) (bulkEv P b a bs) (fun _ => id) :=
  fun _ hk => ⟨fun _ _ => rfl, fun _ g => rdBulkOp_cut hw hl hk g⟩

theorem leaves_wrList (P : Params) (l : WriteList) :
    Leaves (Op.ofBus (wrList P l)) (listEv P l) id (.ok ()) := Leaves.ofBus (issues_wrList P l)

theorem fails_wrList (P : Params) (l : WriteList) :
    FailsAtCuts (Op.ofBus (wrList P l)) (listEv P l) (fun _ => id) :=
  FailsAtCuts.ofBus (stops_wrList P l)

theorem leaves_continueTo (st : Stage) :
    Leaves (continueTo st) [] (fun c => { c with stage := stageCode st }) (.ok .next) :=
  Leaves.andThen (T := []) (U := []) (Leaves.modCtx fun _ _ => rfl) (Leaves.pure _)

/-! ## Ending a step -/

/-- What an operation run by itself leaves when its outcome is a value. -/
theorem finish_ok {x : Op α} {T : List Event} {f : Ctx → Ctx} {v : α} (h : Leaves x T f (.ok v))
    (val : α → Value) {s : State} (g : gives s T = true) :
    finish val (x s) = .next (((play T s).modCtx f).record (.ok (val v))) := by
  rw [h.2 s g]; rfl

theorem finish_fail {x : Op α} {T : List Event} {f : Ctx → Ctx} {e : ErrCode}
    (h : Leaves x T f (.fail e)) (val : α → Value) {s : State} (g : gives s T = true) :
    finish val (x s) = .next (((play T s).modCtx f).record (.fail e)) := by
  rw [h.2 s g]; rfl

theorem finish_fault {x : Op α} {T : List Event} {f : Ctx → Ctx} {t : Fault}
    (h : Leaves x T f (.fault t)) (val : α → Value) {s : State} (g : gives s T = true) :
    finish val (x s) = .fault t := by
  rw [h.2 s g]; rfl

theorem finish_refuse {x : Op α} {T : List Event} {f : Ctx → Ctx} {q : Refusal}
    (h : Leaves x T f (.refuse q)) (val : α → Value) {s : State} (g : gives s T = true) :
    finish val (x s) = .refused q := by
  rw [h.2 s g]; rfl

end Sys2Proof.Safety
end

