-- ==== Sys2Proof/Laws/Detector.lean ====
section
/-! SUPPORT. The detector: active width, mode lookup, the timing of an entry, and everything DETECT can do. -/

namespace Sys2Proof.Safety

open Sys2Proof Sys2Proof.Machine

/-! ## Pure operations (R201, R202, R205, R207) -/

/-- The refusal of ACTIVE_WIDTH where the width does not fit (R201). -/
def widthRefusal (P : Params) (wc : U16) (f : BitVec 4) : Refusal :=
  if 4294967296 ≤ wc.toNat * ((P.bppEntry f).getD (1, 3)).1 then .overflow else .widthOverflow

theorem activeWidth_ok {P : Params} {wc : U16} {f : BitVec 4} (h : widthFits P wc f = true) :
    activeWidth P wc f = .ok (BitVec.ofNat 16 (widthOf P wc f)) := by
  simp only [widthFits, decide_eq_true_eq] at h
  rw [activeWidth, bppLookup, mul32_ok h.1]
  simp only [Out.bind]
  exact if_neg (Nat.not_le.2 h.2)

theorem activeWidth_refused {P : Params} {wc : U16} {f : BitVec 4} (h : widthFits P wc f = false) :
    activeWidth P wc f = .refuse (widthRefusal P wc f) := by
  simp only [widthFits, decide_eq_false_iff_not, not_and, Nat.not_lt] at h
  by_cases hm : wc.toNat * ((P.bppEntry f).getD (1, 3)).1 < 4294967296
  · rw [activeWidth, bppLookup, mul32_ok hm, widthRefusal, if_neg (by omega)]
    exact if_pos (h hm)
  · rw [activeWidth, bppLookup, mul32_refused (Nat.le_of_not_lt hm), widthRefusal, if_pos (by omega)]
    rfl

theorem videoCheck_ok {w h : U16} (hw : 400 ≤ w.toNat) (hh : 400 ≤ h.toNat) :
    videoCheck w h = .ok () := by
  rw [videoCheck, if_neg]; simp [minActive]; omega

theorem videoCheck_fail {w h : U16} (hs : w.toNat < 400 ∨ h.toNat < 400) :
    videoCheck w h = .fail .noVideo := by
  rw [videoCheck, if_pos]; exact hs

theorem modeMatches_eq (w h : U16) (r : Byte) : modeMatches w h r = entryMatches w h r := by
  funext e
  simp only [modeMatches, entryMatches, absDiff, frTol]
  refine decide_eq_decide.2 ?_
  constructor <;> rintro ⟨h1, h2, h3⟩ <;> refine ⟨h1, h2, ?_⟩ <;> split at * <;> omega

theorem findMode_find (w h : U16) (r : Byte) (i : Nat) (l : List TimingEntry) :
    (findMode w h r i l).map Prod.snd = l.find? (entryMatches w h r) := by
  induction l generalizing i with
  | nil => rfl
  | cons e l ih =>
    rw [findMode, modeMatches_eq, List.find?_cons]
    cases entryMatches w h r e
    · exact ih (i + 1)
    · rfl

theorem modeLookup_ok {P : Params} {w h : U16} {r : Byte} {e : TimingEntry}
    (hf : P.timingTable.find? (entryMatches w h r) = some e) :
    ∃ k : Nat, modeLookup P w h r = .ok (k, e) := by
  rw [← findMode_find w h r 0] at hf
  unfold modeLookup
  cases hm : findMode w h r 0 P.timingTable with
  | none => simp [hm] at hf
  | some x => simp [hm] at hf; exact ⟨x.1, by simp [← hf]⟩

theorem modeLookup_fail {P : Params} {w h : U16} {r : Byte}
    (hf : P.timingTable.find? (entryMatches w h r) = none) :
    modeLookup P w h r = .fail .noMatchingMode := by
  rw [← findMode_find w h r 0] at hf
  unfold modeLookup
  cases hm : findMode w h r 0 P.timingTable with
  | none => rfl
  | some x => simp [hm] at hf

theorem timingOf_ok {e : TimingEntry} (h : pclkFits e = true) : timingOf e = .ok (timingFrom e) := by
  rw [timingOf, pclkOfTiming_ok (by simpa [pclkFits] using h)]; rfl

theorem timingOf_refused {e : TimingEntry} (h : pclkFits e = false) :
    timingOf e = .refuse .overflow := by
  rw [timingOf, pclkOfTiming_refused (by simpa [pclkFits] using h)]; rfl

/-! ## DETECT (R204) -/

theorem Op.bind_assoc {α β γ : Type} (x : Op α) (f : α → Op β) (g : β → Op γ) :
    (x.bind f).bind g = x.bind fun v => (f v).bind g := by
  funext s
  unfold Op.bind
  rcases x s with ⟨o, s'⟩
  cases o <;> rfl

theorem leaves_modDesc (f : RxVideoDescriptor → RxVideoDescriptor) :
    Leaves (Op.modDesc f) [] (fun c => { c with desc := f c.desc }) (.ok ()) :=
  Leaves.modCtx fun _ _ => rfl

/-- One more byte at the lowest address, where the lowest address is the least significant (R77). -/
theorem fieldValue_lsb_cons (b : Byte) (bs : List Byte) :
    fieldValue .lsbFirst (b :: bs) = b.toNat + 256 * fieldValue .lsbFirst bs := rfl

/-- One more byte at the highest address, where the lowest address is the most significant (R77). -/
theorem fieldValue_msb_snoc (bs : List Byte) (b : Byte) :
    fieldValue .msbFirst (bs ++ [b]) = 256 * fieldValue .msbFirst bs + b.toNat := by
  simp [fieldValue]

/-- Two bytes in either order (R77). -/
theorem u16Of_toNat (o : FieldOrder) (b0 b1 : Byte) :
    (u16Of o b0 b1).toNat = match o with
      | .msbFirst => 256 * b0.toNat + b1.toNat
      | .lsbFirst => b0.toNat + 256 * b1.toNat := by
  have h0 := b0.isLt
  have h1 := b1.isLt
  cases o <;> simp only [u16Of, fieldValue, List.foldl, List.foldr, BitVec.toNat_ofNat] <;> omega

theorem leaves_readSot {P : Params} (sot : Fin 4 → Byte × Byte) {is : List (Fin 4)}
    (hP : ∀ i ∈ is, runFits (P.sotRegs i).addr 2 = true) :
    Leaves (readSot P is) (is.flatMap fun i =>
      bulkEv P (P.sotRegs i).bank (P.sotRegs i).addr [(sot i).1, (sot i).2]) id (.ok ()) := by
  induction is with
  | nil => exact Leaves.pure ()
  | cons i is ih =>
    exact Leaves.andThen (leaves_rdBulkOp (hP i (by simp)) rfl) (ih fun j hj => hP j (by simp [hj]))

theorem fails_readSot {P : Params} (sot : Fin 4 → Byte × Byte) {is : List (Fin 4)}
    (hP : ∀ i ∈ is, runFits (P.sotRegs i).addr 2 = true) :
    FailsAtCuts (readSot P is) (is.flatMap fun i =>
      bulkEv P (P.sotRegs i).bank (P.sotRegs i).addr [(sot i).1, (sot i).2]) (fun _ => id) := by
  induction is with
  | nil => exact FailsAtCuts.nil _ _
  | cons i is ih =>
    exact FailsAtCuts.andThen_id (leaves_rdBulkOp (hP i (by simp)) rfl) (fails_rdBulkOp (hP i (by simp)) rfl)
      (ih fun j hj => hP j (by simp [hj]))

theorem leaves_readLanepack (P : Params) (lp : Byte) :
    Leaves (readLanepack P) (lanepackEv P lp)
      (fun c => if P.lanepack.isSome then { c with desc := { c.desc with lanepack := lp } } else c)
      (.ok ()) := by
  unfold readLanepack lanepackEv
  cases P.lanepack with
  | none => exact Leaves.pure ()
  | some r =>
    have h := Leaves.bind (f := id) (k := fun v => Op.modDesc fun d => { d with lanepack := v })
      (Leaves.ofBus (issues_rd P r lp)) (leaves_modDesc fun d => { d with lanepack := lp })
    rw [List.append_nil] at h
    exact h.congr rfl

theorem fails_readLanepack (P : Params) (lp : Byte) :
    FailsAtCuts (readLanepack P) (lanepackEv P lp) (fun _ => id) := by
  unfold readLanepack lanepackEv
  cases P.lanepack with
  | none => exact FailsAtCuts.nil _ _
  | some r =>
    have h := FailsAtCuts.bind (G := fun _ => id)
      (k := fun v => Op.modDesc fun d => { d with lanepack := v })
      (Leaves.ofBus (issues_rd P r lp)) (FailsAtCuts.ofBus (stops_rd P r lp))
      (FailsAtCuts.nil _ _)
    rw [List.append_nil] at h
    refine h.congr fun k hk => ?_
    simp [busAt_length hk]

/-- The steps of DETECT after the RX block is parsed, up to the width. -/
def detectRest (P : Params) (x : U16 × U16 × BitVec 4) : Op Unit :=
  (Op.modDesc fun d => { d with wc := x.1, vact := x.2.1, fmt := x.2.2 }).andThen <|
  (Op.ofBus (rd P P.rxFrReg.bank P.rxFrReg.addr)).bind fun fr =>
  (Op.modDesc fun d => { d with fr := fr }).andThen <|
  readLanepack P

/-- The steps of DETECT from the width on. -/
def detectEnd (P : Params) (x : U16 × U16 × BitVec 4) : Op RxVideoDescriptor :=
  (Op.lift (activeWidth P x.1 x.2.2)).bind fun w =>
  (Op.modDesc fun d => { d with hact := w }).andThen <|
  (Op.lift (videoCheck w x.2.1)).andThen <|
  Op.getCtx.bind fun c => Op.pure c.desc

/-- The steps of DETECT before the RX block is parsed. -/
def detectHead (P : Params) : Op (List Byte) :=
  (Op.modDesc fun _ => RxVideoDescriptor.zero).andThen <|
  (readSot P [0, 1, 2, 3]).andThen <|
  (Op.ofBus (wr P P.hsSettle.reg.bank P.hsSettle.reg.addr P.hsSettle.value)).andThen <|
  rdBulkOp P (P.regMap .rxBlock).bank (P.regMap .rxBlock).addr 5

theorem detect_eq (P : Params) :
    detect P = (detectHead P).bind fun blk =>
      (detectRest P (parseRxBlock P blk)).bind fun _ => detectEnd P (parseRxBlock P blk) := by
  simp only [detect, detectHead, detectRest, detectEnd, Op.andThen, Op.bind_assoc]

/-- The head of the trace of DETECT: 20 transactions. -/
def headEv (P : Params) (sot : Fin 4 → Byte × Byte) (blk : List Byte) : List Event :=
  sotEv P sot ++ wrEv P P.hsSettle.reg.bank P.hsSettle.reg.addr P.hsSettle.value
    ++ bulkEv P (P.regMap .rxBlock).bank (P.regMap .rxBlock).addr blk

/-- The rest of the trace of DETECT. -/
def restEv (P : Params) (fr lp : Byte) : List Event := rdEv P P.rxFrReg fr ++ lanepackEv P lp

theorem detectEv_eq (P : Params) (sot : Fin 4 → Byte × Byte) (blk : List Byte) (fr lp : Byte) :
    detectEv P sot blk fr lp = headEv P sot blk ++ restEv P fr lp := by
  simp [detectEv, headEv, restEv]

theorem readsEv_length (a : Byte) (bs : List Byte) : (readsEv a bs).length = bs.length := by
  induction bs generalizing a with
  | nil => rfl
  | cons v vs ih => simp [readsEv, ih]

theorem bulkEv_length (P : Params) (b a : Byte) (bs : List Byte) :
    (bulkEv P b a bs).length = 1 + bs.length := by
  simp [bulkEv, readsEv_length]; omega

theorem headEv_length (P : Params) (sot : Fin 4 → Byte × Byte) {blk : List Byte}
    (h : blk.length = 5) : (headEv P sot blk).length = 20 := by
  simp [headEv, sotEv, wrEv, bulkEv_length, h]

theorem leaves_detectHead {P : Params} (hP : detectFits P) (sot : Fin 4 → Byte × Byte)
    {blk : List Byte} (hb : blk.length = 5) :
    Leaves (detectHead P) (headEv P sot blk) (fun c => { c with desc := RxVideoDescriptor.zero })
      (.ok blk) := by
  have h := Leaves.andThen (leaves_modDesc fun _ => RxVideoDescriptor.zero)
    (Leaves.andThen (leaves_readSot sot (is := [0, 1, 2, 3]) fun i _ => hP.1 i)
      (Leaves.andThen (Leaves.ofBus (issues_wr P P.hsSettle.reg.bank P.hsSettle.reg.addr
        P.hsSettle.value)) (leaves_rdBulkOp (P := P) hP.2 (n := 5) (bs := blk) hb
          (b := (P.regMap .rxBlock).bank))))
  rw [List.nil_append, ← List.append_assoc] at h
  exact h.congr rfl

theorem fails_detectHead {P : Params} (hP : detectFits P) (sot : Fin 4 → Byte × Byte)
    {blk : List Byte} (hb : blk.length = 5) :
    FailsAtCuts (detectHead P) (headEv P sot blk)
      (fun _ c => { c with desc := RxVideoDescriptor.zero }) := by
  have h := FailsAtCuts.andThen (F := fun _ => id) (leaves_modDesc fun _ => RxVideoDescriptor.zero)
    (FailsAtCuts.nil _ _)
    (FailsAtCuts.andThen_id (leaves_readSot sot (is := [0, 1, 2, 3]) fun i _ => hP.1 i)
      (fails_readSot sot (is := [0, 1, 2, 3]) fun i _ => hP.1 i)
      (FailsAtCuts.andThen_id (Leaves.ofBus (issues_wr P P.hsSettle.reg.bank P.hsSettle.reg.addr
        P.hsSettle.value)) (FailsAtCuts.ofBus (stops_wr P _ _ _))
        (fails_rdBulkOp (P := P) hP.2 (n := 5) (bs := blk) hb (b := (P.regMap .rxBlock).bank))))
  rw [List.nil_append, ← List.append_assoc] at h
  exact h.congr fun k _ => rfl

/-- A SOT pair that passes 0xFF ends DETECT's reads (R79, R146). -/
theorem readSot_wraps {P : Params} (sot : Fin 4 → Byte × Byte) {is : List (Fin 4)} {k : Fin 4}
    {js : List (Fin 4)} (hj : ∀ i ∈ is, runFits (P.sotRegs i).addr 2 = true)
    (hk : runFits (P.sotRegs k).addr 2 = false) {s : State}
    (g : gives s (is.flatMap fun i =>
      bulkEv P (P.sotRegs i).bank (P.sotRegs i).addr [(sot i).1, (sot i).2]) = true) :
    ∃ s' : State, readSot P (is ++ k :: js) s = (.refuse .bulkWrap, s') := by
  induction is generalizing s with
  | nil => exact ⟨s, by rw [List.nil_append, readSot, Op.andThen, Op.bind, rdBulkOp_wraps hk]⟩
  | cons i is ih =>
    rw [List.flatMap_cons, gives_append, Bool.and_eq_true] at g
    obtain ⟨s', h⟩ := ih (fun j hm => hj j (by simp [hm])) g.2
    refine ⟨s', ?_⟩
    rw [List.cons_append, readSot, Op.andThen, Op.bind_ok (rdBulkOp_ok (hj i (by simp)) rfl g.1)]
    exact h

/-- DETECT is refused where a run it reads passes 0xFF (R79, R146, R204). -/
theorem detect_wraps {P : Params} {sot : Fin 4 → Byte × Byte} {s : State} (h : reachesWrap P sot s) :
    ∃ s' : State, detect P s = (.refuse .bulkWrap, s') := by
  suffices hr : ∀ s : State, reachesWrap P sot s → ∃ s' : State,
      ((readSot P [0, 1, 2, 3]).andThen <|
        (Op.ofBus (wr P P.hsSettle.reg.bank P.hsSettle.reg.addr P.hsSettle.value)).andThen <|
        rdBulkOp P (P.regMap .rxBlock).bank (P.regMap .rxBlock).addr 5) s = (.refuse .bulkWrap, s') by
    obtain ⟨s', hs⟩ := hr (s.modCtx fun c => { c with desc := RxVideoDescriptor.zero })
      (by simpa only [reachesWrap, gives_modCtx] using h)
    exact ⟨s', by rw [detect_eq]; exact Op.bind_refuse hs _⟩
  rintro s (⟨k, hj, hk, g⟩ | ⟨hj, hb, g⟩)
  · have split : ∃ is js : List (Fin 4), [0, 1, 2, 3] = is ++ k :: js ∧ (∀ i ∈ is, i < k)
        ∧ (sotEv P sot).take (3 * k.val) = is.flatMap fun i =>
          bulkEv P (P.sotRegs i).bank (P.sotRegs i).addr [(sot i).1, (sot i).2] := by
      fin_cases k
      · exact ⟨[], [1, 2, 3], rfl, by simp, rfl⟩
      · exact ⟨[0], [2, 3], rfl, by simp, rfl⟩
      · exact ⟨[0, 1], [3], rfl, by simp, rfl⟩
      · exact ⟨[0, 1, 2], [], rfl, by decide, rfl⟩
    obtain ⟨is, js, he, hl, ht⟩ := split
    rw [ht] at g
    obtain ⟨s', hs⟩ := readSot_wraps sot (js := js) (fun i hi => hj i (hl i hi)) hk g
    exact ⟨s', by rw [he]; exact Op.bind_refuse hs _⟩
  · rw [gives_append, Bool.and_eq_true] at g
    have h1 := (leaves_readSot sot (is := [0, 1, 2, 3]) fun i _ => hj i).at g.1
    have h2 := Op.ofBus_ok (issues_wr P P.hsSettle.reg.bank P.hsSettle.reg.addr P.hsSettle.value) g.2
    exact ⟨_, (Op.andThen_ok h1 _).trans ((Op.andThen_ok h2 _).trans (rdBulkOp_wraps hb _))⟩

/-- What the rest of DETECT writes. -/
def restWrites (P : Params) (x : U16 × U16 × BitVec 4) (fr lp : Byte) (c : Ctx) : Ctx :=
  { c with desc := { c.desc with wc := x.1, vact := x.2.1, fmt := x.2.2, fr := fr,
                                  lanepack := if P.lanepack.isSome then lp else c.desc.lanepack } }

theorem leaves_detectRest (P : Params) (x : U16 × U16 × BitVec 4) (fr lp : Byte) :
    Leaves (detectRest P x) (restEv P fr lp) (restWrites P x fr lp) (.ok ()) := by
  have h := Leaves.andThen (leaves_modDesc fun d => { d with wc := x.1, vact := x.2.1, fmt := x.2.2 })
    (Leaves.bind (k := fun fr => (Op.modDesc fun d => { d with fr := fr }).andThen (readLanepack P))
      (Leaves.ofBus (issues_rd P P.rxFrReg fr))
      (Leaves.andThen (leaves_modDesc fun d => { d with fr := fr }) (leaves_readLanepack P lp)))
  rw [List.nil_append, List.nil_append] at h
  refine h.congr ?_
  funext c
  unfold restWrites
  cases P.lanepack <;> rfl

theorem fails_detectRest (P : Params) (x : U16 × U16 × BitVec 4) (fr lp : Byte) :
    FailsAtCuts (detectRest P x) (restEv P fr lp) (fun k c =>
      { c with desc := { c.desc with wc := x.1, vact := x.2.1, fmt := x.2.2,
                                      fr := if k < 2 then c.desc.fr else fr } }) := by
  have h := FailsAtCuts.andThen (F := fun _ => id)
    (leaves_modDesc fun d => { d with wc := x.1, vact := x.2.1, fmt := x.2.2 })
    (FailsAtCuts.nil _ _)
    (FailsAtCuts.bind (k := fun fr => (Op.modDesc fun d => { d with fr := fr }).andThen (readLanepack P))
      (Leaves.ofBus (issues_rd P P.rxFrReg fr)) (FailsAtCuts.ofBus (stops_rd P P.rxFrReg fr))
      (FailsAtCuts.andThen (F := fun _ => id) (leaves_modDesc fun d => { d with fr := fr })
        (FailsAtCuts.nil _ _) (fails_readLanepack P lp)))
  rw [List.nil_append, List.nil_append] at h
  refine h.congr fun k _ => ?_
  funext c
  by_cases hk : k < 2 <;> simp [rdEv, hk]

/-- The width and the check at the end of DETECT, from a descriptor without width. -/
theorem detectEnd_ok {P : Params} {x : U16 × U16 × BitVec 4} (hw : widthFits P x.1 x.2.2 = true)
    (h1 : 400 ≤ (BitVec.ofNat 16 (widthOf P x.1 x.2.2)).toNat) (h2 : 400 ≤ x.2.1.toNat) (s : State) :
    detectEnd P x s = (.ok { s.ctx.desc with hact := BitVec.ofNat 16 (widthOf P x.1 x.2.2) },
      s.modCtx fun c => { c with desc := { c.desc with hact := BitVec.ofNat 16 (widthOf P x.1 x.2.2) } })
    := by
  simp only [detectEnd, activeWidth_ok hw, Op.lift, Op.bind, Op.andThen, Op.modDesc, Op.modCtx,
    Op.update, videoCheck_ok h1 h2, Op.getCtx, Op.pure]
  rfl

theorem leaves_detectEnd_noVideo {P : Params} {x : U16 × U16 × BitVec 4}
    (hw : widthFits P x.1 x.2.2 = true)
    (h : (BitVec.ofNat 16 (widthOf P x.1 x.2.2)).toNat < 400 ∨ x.2.1.toNat < 400) :
    Leaves (detectEnd P x) [] (fun c =>
      { c with desc := { c.desc with hact := BitVec.ofNat 16 (widthOf P x.1 x.2.2) } })
      (.fail .noVideo) := by
  unfold detectEnd
  rw [activeWidth_ok hw]
  exact (Leaves.bind (T := []) (U := []) (Leaves.lift _)
    (Leaves.andThen (T := []) (U := []) (leaves_modDesc _)
      (Leaves.bind_fail (by rw [videoCheck_fail h]; exact Leaves.lift _) _))).congr rfl

theorem leaves_detectEnd_refused {P : Params} {x : U16 × U16 × BitVec 4}
    (hw : widthFits P x.1 x.2.2 = false) :
    Leaves (detectEnd P x) [] id (.refuse (widthRefusal P x.1 x.2.2)) := by
  unfold detectEnd
  rw [activeWidth_refused hw]
  exact Leaves.bind_refuse (Leaves.lift _) _

variable {P : Params} (hP : detectFits P) (sot : Fin 4 → Byte × Byte) {blk : List Byte}
  (hb : blk.length = 5) (fr lp : Byte)
include hP hb

/-- DETECT acquires a timing (R204). -/
theorem leaves_detect_ok
    (hw : widthFits P (parseRxBlock P blk).1 (parseRxBlock P blk).2.2 = true)
    (h1 : 400 ≤ (descOf P blk fr lp).hact.toNat) (h2 : 400 ≤ (descOf P blk fr lp).vact.toNat) :
    Leaves (detect P) (detectEv P sot blk fr lp) (fun c => { c with desc := descOf P blk fr lp })
      (.ok (descOf P blk fr lp)) := by
  refine ⟨fun _ _ => rfl, fun s g => ?_⟩
  rw [detectEv_eq, gives_append, Bool.and_eq_true] at g
  have hh := (leaves_detectHead hP sot hb).at g.1
  rw [detect_eq, Op.bind_ok hh,
    Op.bind_ok ((leaves_detectRest P (parseRxBlock P blk) fr lp).at (by rw [gives_modCtx]; exact g.2)),
    detectEnd_ok hw h1 h2, play_modCtx _ _ _ (fun _ _ => rfl), detectEv_eq, play_append]
  rfl

/-- DETECT finds no video (R202, R204). -/
theorem leaves_detect_noVideo
    (hw : widthFits P (parseRxBlock P blk).1 (parseRxBlock P blk).2.2 = true)
    (h : (descOf P blk fr lp).hact.toNat < 400 ∨ (descOf P blk fr lp).vact.toNat < 400) :
    Leaves (detect P) (detectEv P sot blk fr lp) (fun c => { c with desc := descOf P blk fr lp })
      (.fail .noVideo) := by
  rw [detect_eq, detectEv_eq]
  have hr := Leaves.bind (leaves_detectRest P (parseRxBlock P blk) fr lp)
    (k := fun _ => detectEnd P (parseRxBlock P blk)) (leaves_detectEnd_noVideo hw h)
  rw [List.append_nil] at hr
  exact (Leaves.bind (leaves_detectHead hP sot hb) hr).congr rfl

/-- DETECT is refused where the width does not fit (R201). -/
theorem leaves_detect_refused
    (hw : widthFits P (parseRxBlock P blk).1 (parseRxBlock P blk).2.2 = false) :
    Leaves (detect P) (detectEv P sot blk fr lp)
      (fun c => { c with desc := { descOf P blk fr lp with hact := 0 } })
      (.refuse (widthRefusal P (parseRxBlock P blk).1 (parseRxBlock P blk).2.2)) := by
  rw [detect_eq, detectEv_eq]
  have hr := Leaves.bind (leaves_detectRest P (parseRxBlock P blk) fr lp)
    (k := fun _ => detectEnd P (parseRxBlock P blk)) (leaves_detectEnd_refused hw)
  rw [List.append_nil] at hr
  exact (Leaves.bind (leaves_detectHead hP sot hb) hr).congr rfl

/-- DETECT stops at an `Err`, the fields written before it kept (R141, R204). -/
theorem fails_detect :
    FailsAtCuts (detect P) (detectEv P sot blk fr lp)
      (fun k c => { c with desc := descCut P blk fr k }) := by
  rw [detect_eq, detectEv_eq]
  have hr := FailsAtCuts.bind (leaves_detectRest P (parseRxBlock P blk) fr lp)
    (k := fun _ => detectEnd P (parseRxBlock P blk)) (G := fun _ => id)
    (fails_detectRest P (parseRxBlock P blk) fr lp) (FailsAtCuts.nil _ _)
  rw [List.append_nil] at hr
  refine (FailsAtCuts.bind (leaves_detectHead hP sot hb) (fails_detectHead hP sot hb) hr).congr
    fun k hk => ?_
  have hl := busAt_length hk
  rw [List.length_append, headEv_length P sot hb] at hl
  funext c
  by_cases h : k < 20
  · simp [headEv_length P sot hb, h, descCut, RxVideoDescriptor.zero]
  · have h' : k - 20 < (restEv P fr lp).length := by omega
    simp only [headEv_length P sot hb, h, h', if_true, if_false, descCut, RxVideoDescriptor.zero]
    have hk2 : k - 20 < 2 ↔ k < 22 := by omega
    simp [hk2]

end Sys2Proof.Safety
end

