-- ==== Sys2Proof/Laws/Stages.lean ====
section
/-! SUPPORT. Everything each stage operation can do: the trace it issues, what it writes, how it ends, and how it
stops at a transaction that returns `Err`. -/

namespace Sys2Proof.Safety

open Sys2Proof Sys2Proof.Machine

/-! ## Prepare (R243) -/

theorem leaves_resetPulse : Leaves resetPulse resetEv id (.ok ()) :=
  Leaves.andThen (T := [_]) (Leaves.emit rfl) (Leaves.andThen (T := [_]) (Leaves.emit rfl)
    (Leaves.andThen (T := [_]) (Leaves.emit rfl) (Leaves.emit rfl)))

theorem fails_resetPulse : FailsAtCuts resetPulse resetEv (fun _ => id) := by
  intro k hk
  have h := busAt_length hk
  simp [resetEv] at h
  interval_cases k <;> simp [busAt, resetEv, Event.isBus] at hk

theorem leaves_chipIdCheck (P : Params) (ids : List Byte) :
    Leaves (if ids = P.chipId.expected then Op.pure () else Op.emit (.log .chipIdMismatch))
      (if ids = P.chipId.expected then [] else [.log .chipIdMismatch]) (fun c => c) (.ok ()) := by
  split
  · exact Leaves.pure ()
  · exact Leaves.emit rfl

theorem fails_chipIdCheck (P : Params) (ids : List Byte) (x : Op Unit) :
    FailsAtCuts x (if ids = P.chipId.expected then [] else [.log .chipIdMismatch])
      (fun _ => fun c => c) := by
  split
  · exact FailsAtCuts.nil _ _
  · exact FailsAtCuts.emit rfl _ _

variable {P : Params}

theorem leaves_stagePrepare (hP : spanFits P.chipId.span = true) {ids : List Byte}
    (hl : ids.length = P.chipId.span.len.toNat) :
    Leaves (stagePrepare P) (prepareEv P ids) (fun c => { c with stage := 1 }) (.ok .next) := by
  have h := Leaves.andThen leaves_resetPulse (Leaves.bind
    (k := fun ids => (if ids = P.chipId.expected then Op.pure () else Op.emit (.log .chipIdMismatch)).andThen <|
      (Op.ofBus (wrList P (P.seqRxPhyOn P.lanes))).andThen <|
      (Op.ofBus (wrList P P.seqTxPhyOff)).andThen <| continueTo .rxTimingConfig)
    (leaves_rdBulkOp (P := P) (b := P.chipId.span.bank) hP hl)
    (Leaves.andThen (leaves_chipIdCheck P ids) (Leaves.andThen (leaves_wrList P (P.seqRxPhyOn P.lanes))
      (Leaves.andThen (leaves_wrList P P.seqTxPhyOff) (leaves_continueTo .rxTimingConfig)))))
  rw [List.append_nil, ← List.append_assoc, ← List.append_assoc, ← List.append_assoc] at h
  exact h.congr rfl

theorem fails_stagePrepare (hP : spanFits P.chipId.span = true) {ids : List Byte}
    (hl : ids.length = P.chipId.span.len.toNat) :
    FailsAtCuts (stagePrepare P) (prepareEv P ids) (fun _ c => c) := by
  have h := FailsAtCuts.andThen_id leaves_resetPulse fails_resetPulse (FailsAtCuts.bind
    (k := fun ids => (if ids = P.chipId.expected then Op.pure () else Op.emit (.log .chipIdMismatch)).andThen <|
      (Op.ofBus (wrList P (P.seqRxPhyOn P.lanes))).andThen <|
      (Op.ofBus (wrList P P.seqTxPhyOff)).andThen <| continueTo .rxTimingConfig)
    (leaves_rdBulkOp (P := P) (b := P.chipId.span.bank) hP hl)
    (fails_rdBulkOp (P := P) (b := P.chipId.span.bank) hP hl)
    (FailsAtCuts.andThen_id (leaves_chipIdCheck P ids) (fails_chipIdCheck P ids _)
      (FailsAtCuts.andThen_id (leaves_wrList P (P.seqRxPhyOn P.lanes)) (fails_wrList P _)
      (FailsAtCuts.andThen_id (U := []) (leaves_wrList P P.seqTxPhyOff) (fails_wrList P _)
        (FailsAtCuts.nil _ _)))) |>.congr (G := fun _ => id) (fun k _ => by split <;> rfl))
  rw [List.append_nil, ← List.append_assoc, ← List.append_assoc, ← List.append_assoc] at h
  exact h

/-- STAGE_PREPARE is refused where the identity run passes 0xFF (R79, R146). -/
theorem stagePrepare_wraps (h : spanFits P.chipId.span = false) (s : State) :
    ∃ s' : State, stagePrepare P s = (.refuse .bulkWrap, s') :=
  ⟨_, (Op.andThen_ok (leaves_resetPulse.at rfl) _).trans (Op.bind_refuse (rdBulkOp_wraps h _) _)⟩

/-! ## RxTimingConfig (R244) -/

/-- STAGE_RXTIMING is refused where a run DETECT reads passes 0xFF (R79, R146). -/
theorem stageRxTiming_wraps {sot : Fin 4 → Byte × Byte} {s : State} (h : reachesWrap P sot s) :
    ∃ s' : State, stageRxTiming P s = (.refuse .bulkWrap, s') := by
  obtain ⟨s', hd⟩ := detect_wraps h
  exact ⟨s', by simp only [stageRxTiming, hd]⟩

theorem stageRxTiming_of_fail {e : ErrCode} {s s' : State} (h : detect P s = (.fail e, s'))
    (he : e ≠ .noVideo) : stageRxTiming P s = (.fail e, s') := by
  unfold stageRxTiming; rw [h]; cases e <;> first | rfl | exact absurd rfl he

theorem stageRxTiming_of_ok {d : RxVideoDescriptor} {s s' : State} (h : detect P s = (.ok d, s')) :
    stageRxTiming P s = rxTimingSelect P d s' := by
  unfold stageRxTiming; rw [h]

theorem stageRxTiming_of_noVideo {s s' : State} (h : detect P s = (.fail .noVideo, s')) :
    stageRxTiming P s = (.ok .yield, retried P (s'.ctx.desc.fmt == steadyFmt) .noVideo s') := by
  unfold stageRxTiming; rw [h]
  change (_, retryUpdate P _ _ _) = _
  rw [retryUpdate_eq]
  rfl

theorem stageRxTiming_of_refuse {q : Refusal} {s s' : State} (h : detect P s = (.refuse q, s')) :
    stageRxTiming P s = (.refuse q, s') := by
  unfold stageRxTiming; rw [h]

theorem rxTimingSelect_ok {d : RxVideoDescriptor} {e : TimingEntry}
    (hf : P.timingTable.find? (entryMatches d.hact d.vact d.fr) = some e) (hp : pclkFits e = true) :
    Leaves (rxTimingSelect P d) [] (fun c =>
      { c with sel := timingFrom e, selValid := true, stage := 2 }) (.ok .next) := by
  obtain ⟨k, hk⟩ := modeLookup_ok hf
  unfold rxTimingSelect
  rw [hk]
  simp only [timingOf_ok hp]
  exact (Leaves.bind (T := []) (U := []) (Leaves.lift (.ok (timingFrom e)))
    (k := fun t => (Op.modCtx fun c => { c with sel := t, selValid := true }).andThen
      (continueTo .rxPllConfig))
    (Leaves.andThen (T := []) (U := []) (Leaves.modCtx fun _ _ => rfl)
      (leaves_continueTo .rxPllConfig))).congr rfl

theorem rxTimingSelect_refused {d : RxVideoDescriptor} {e : TimingEntry}
    (hf : P.timingTable.find? (entryMatches d.hact d.vact d.fr) = some e) (hp : pclkFits e = false) :
    Leaves (rxTimingSelect P d) [] id (.refuse .overflow) := by
  obtain ⟨k, hk⟩ := modeLookup_ok hf
  unfold rxTimingSelect
  rw [hk]
  simp only [timingOf_refused hp]
  exact Leaves.bind_refuse (Leaves.lift _) _

theorem rxTimingSelect_fail {d : RxVideoDescriptor}
    (hf : P.timingTable.find? (entryMatches d.hact d.vact d.fr) = none) (s : State) :
    rxTimingSelect P d s = (.ok .yield, retried P (s.ctx.desc.fmt == steadyFmt) .noMatchingMode
      (s.emit (.log .noMatchingMode))) := by
  unfold rxTimingSelect
  rw [modeLookup_fail hf]
  change (_, retryUpdate P _ _ _) = _
  rw [retryUpdate_eq]
  rfl

/-! ## RxPllConfig (R246) -/

/-- RxPllConfig after its settings are computed. -/
def rxPllAfter (P : Params) (d : DesscSetting) (c : PcrSetting) : Op StageEnd :=
  (Op.modCtx fun x => { x with dsc := d, pcr := c }).andThen <|
  (Op.ofBus (wrList P (P.encDessc d))).andThen <|
  (Op.ofBus (wrList P (P.encPcr c))).andThen <|
  (Op.ofBus (poll P .pcrStable pcrPolls .pcrGap)).bind fun ok1 =>
  if ok1 then
    (Op.ofBus (poll P .vidchkStable vidchkPolls .none)).bind fun ok2 => rxPllVideoCheck P ok2
  else backToRxTiming P .pcrUnstable

theorem stageRxPll_noTiming {s : State} (h : s.ctx.selValid = false) :
    stageRxPll P s = (.fault .noTiming, s) := by
  simp [stageRxPll, Op.getCtx, Op.bind, h, Op.lift]

theorem stageRxPll_refused {s : State} (h : s.ctx.selValid = true)
    (hp : pcrFits P s.ctx.sel.pclk.toNat = false) : stageRxPll P s = (.refuse .overflow, s) := by
  simp only [stageRxPll, Op.getCtx, Op.bind, h, if_true, computePcr_refused P hp]

theorem stageRxPll_eq {s : State} (h : s.ctx.selValid = true)
    (hp : pcrFits P s.ctx.sel.pclk.toNat = true) :
    stageRxPll P s = rxPllAfter P (desscOf s.ctx.sel.pclk.toNat) (pcrIn P s s.ctx.sel.pclk.toNat)
      { s with draws := s.draws + pcrDraws P s.ctx.sel.pclk.toNat } := by
  simp only [stageRxPll, Op.getCtx, Op.bind, h, if_true, computePcr_ok P hp]
  rfl

/-- The context after the settings are stored. -/
def stored (d : DesscSetting) (c : PcrSetting) (x : Ctx) : Ctx := { x with dsc := d, pcr := c }

theorem leaves_rxPllAfter {d : DesscSetting} {c : PcrSetting} {ok1 : Bool} {T U : List Event}
    {f : Ctx → Ctx} {r : Out StageEnd}
    (hp : Issues (poll P .pcrStable pcrPolls .pcrGap) T (some ok1))
    (hk : Leaves (if ok1 then
      (Op.ofBus (poll P .vidchkStable vidchkPolls .none)).bind fun ok2 => rxPllVideoCheck P ok2
      else backToRxTiming P .pcrUnstable) U f r) :
    Leaves (rxPllAfter P d c) (listEv P (P.encDessc d) ++ listEv P (P.encPcr c) ++ T ++ U)
      (fun x => f (stored d c x)) r := by
  have h := Leaves.andThen (T := []) (f := stored d c) (Leaves.modCtx fun _ _ => rfl)
    (Leaves.andThen (leaves_wrList P (P.encDessc d)) (Leaves.andThen (leaves_wrList P (P.encPcr c))
      (Leaves.bind (Leaves.ofBus hp) (k := fun ok1 => if ok1 then
        (Op.ofBus (poll P .vidchkStable vidchkPolls .none)).bind fun ok2 => rxPllVideoCheck P ok2
        else backToRxTiming P .pcrUnstable) hk)))
  rw [List.nil_append, ← List.append_assoc, ← List.append_assoc] at h
  exact h.congr rfl

theorem fails_rxPllAfter {d : DesscSetting} {c : PcrSetting} {ok1 : Bool} {T U : List Event}
    (hp : Issues (poll P .pcrStable pcrPolls .pcrGap) T (some ok1))
    (cp : StopsAtCuts (poll P .pcrStable pcrPolls .pcrGap) T)
    (ck : FailsAtCuts (if ok1 then
      (Op.ofBus (poll P .vidchkStable vidchkPolls .none)).bind fun ok2 => rxPllVideoCheck P ok2
      else backToRxTiming P .pcrUnstable) U (fun _ => id)) :
    FailsAtCuts (rxPllAfter P d c) (listEv P (P.encDessc d) ++ listEv P (P.encPcr c) ++ T ++ U)
      (fun _ => stored d c) := by
  have h := FailsAtCuts.andThen (F := fun _ => id) (f := stored d c) (Leaves.modCtx fun _ _ => rfl)
    (FailsAtCuts.nil _ _)
    (FailsAtCuts.andThen_id (leaves_wrList P (P.encDessc d)) (fails_wrList P _)
      (FailsAtCuts.andThen_id (leaves_wrList P (P.encPcr c)) (fails_wrList P _)
        (FailsAtCuts.congr (G := fun _ => id) (FailsAtCuts.bind (Leaves.ofBus hp)
          (FailsAtCuts.ofBus cp) (k := fun ok1 => if ok1 then
          (Op.ofBus (poll P .vidchkStable vidchkPolls .none)).bind fun ok2 => rxPllVideoCheck P ok2
          else backToRxTiming P .pcrUnstable) ck) fun k _ => by split <;> rfl)))
  rw [List.nil_append, ← List.append_assoc, ← List.append_assoc] at h
  exact h.congr fun k _ => rfl

theorem leaves_rxPllDone : Leaves (rxPllDone P) (listEv P P.seqTxSrcOn)
    (fun c => { c with stage := 3 }) (.ok .next) := by
  have h := Leaves.andThen (leaves_wrList P P.seqTxSrcOn) (leaves_continueTo .txVideoConfig)
  rw [List.append_nil] at h
  exact h.congr rfl

theorem fails_rxPllDone : FailsAtCuts (rxPllDone P) (listEv P P.seqTxSrcOn) (fun _ => id) := by
  have h := FailsAtCuts.andThen_id (leaves_wrList P P.seqTxSrcOn) (fails_wrList P P.seqTxSrcOn)
    (y := continueTo .txVideoConfig) (FailsAtCuts.nil _ _)
  rwa [List.append_nil] at h

/-- A stage failure that goes back to RxTimingConfig (R246, R304). -/
theorem backToRxTiming_eq (e : ErrCode) (s : State) :
    backToRxTiming P e s = (.ok .yield, scheduled P .retry (s.modCtx fun c =>
      { c with err := e.code, stage := 1 })) := by
  change (_, schedule P .retry _) = _
  rw [schedule_eq]
  rfl

theorem issues_pollSet {i : StatusId} {n : Byte} {g : Gap} {vs : List Byte} {v : Byte}
    (h : pollSets P i n.toNat vs v = true) :
    Issues (poll P i n g) (pollSetEv P i g vs v) (some true) := by
  simp [pollSets] at h
  exact issues_poll_set P _ g _ vs v h.1.1 h.1.2 (by simp [statusSet_eq, h.2])

theorem stops_pollSet {i : StatusId} {n : Byte} {g : Gap} {vs : List Byte} {v : Byte}
    (h : pollSets P i n.toNat vs v = true) :
    StopsAtCuts (poll P i n g) (pollSetEv P i g vs v) := by
  simp [pollSets] at h
  exact stops_poll_set P _ g _ vs v h.1.1 h.1.2

theorem issues_pollUnset {i : StatusId} {n : Byte} {g : Gap} {vs : List Byte}
    (hl : vs.length = n.toNat) (h : allUnset (P.statusBits i) vs = true) :
    Issues (poll P i n g) (unsetEv P (P.statusBits i) g vs) (some false) := by
  unfold poll; rw [← hl]; exact issues_poll_unset P _ g vs h

theorem stops_pollUnset {i : StatusId} {n : Byte} {g : Gap} {vs : List Byte}
    (hl : vs.length = n.toNat) (h : allUnset (P.statusBits i) vs = true) :
    StopsAtCuts (poll P i n g) (unsetEv P (P.statusBits i) g vs) := by
  unfold poll; rw [← hl]; exact stops_poll_unset P _ g vs h

/-! ## TxVideoConfig (R247) -/

/-- TxVideoConfig after the readback. -/
def txCfgAfter (P : Params) (p : U32) : Op StageEnd :=
  (Op.modCtx fun c => { c with pclkRb := p }).andThen <|
  (Op.lift (computeTxPll P p)).bind fun t =>
  (Op.modCtx fun c => { c with txpll := t }).andThen <|
  (Op.ofBus (wrList P P.seqTxPllRef)).andThen <|
  (Op.ofBus (wrList P (P.encTxPll t))).andThen <|
  (Op.ofBus (wrList P P.seqTxPllRst)).andThen <|
  (Op.ofBus (poll P .txpllLock txlockPolls .txlockGap)).bind fun ok =>
  if ok then continueTo .txVideoOut else txUnlocked P

theorem stageTxVidCfg_eq : stageTxVidCfg P
    = (rdBulkOp P P.pclkRb.span.bank P.pclkRb.span.addr P.pclkRb.span.len).bind fun bytes =>
      txCfgAfter P (pclkOf P bytes) := rfl

/-- What TxVideoConfig writes once its setting is computed. -/
def configured (p : U32) (t : TxPllSetting) (c : Ctx) : Ctx := { c with pclkRb := p, txpll := t }

theorem leaves_txCfgAfter {p : U32} {t : TxPllSetting} {ok : Bool} {T U : List Event} {f : Ctx → Ctx}
    {r : Out StageEnd} (ht : computeTxPll P p = .ok t)
    (hp : Issues (poll P .txpllLock txlockPolls .txlockGap) T (some ok))
    (hk : Leaves (if ok then continueTo .txVideoOut else txUnlocked P) U f r) :
    Leaves (txCfgAfter P p) (listEv P P.seqTxPllRef ++ listEv P (P.encTxPll t)
      ++ listEv P P.seqTxPllRst ++ T ++ U) (fun c => f (configured p t c)) r := by
  unfold txCfgAfter
  rw [ht]
  have h := Leaves.andThen (T := []) (f := fun c => { c with pclkRb := p }) (Leaves.modCtx fun _ _ => rfl)
    (Leaves.bind (T := []) (Leaves.lift (.ok t)) (k := fun t =>
      (Op.modCtx fun c => { c with txpll := t }).andThen <|
      (Op.ofBus (wrList P P.seqTxPllRef)).andThen <|
      (Op.ofBus (wrList P (P.encTxPll t))).andThen <|
      (Op.ofBus (wrList P P.seqTxPllRst)).andThen <|
      (Op.ofBus (poll P .txpllLock txlockPolls .txlockGap)).bind fun ok =>
      if ok then continueTo .txVideoOut else txUnlocked P)
      (Leaves.andThen (T := []) (f := fun c => { c with txpll := t }) (Leaves.modCtx fun _ _ => rfl)
        (Leaves.andThen (leaves_wrList P P.seqTxPllRef) (Leaves.andThen (leaves_wrList P (P.encTxPll t))
          (Leaves.andThen (leaves_wrList P P.seqTxPllRst) (Leaves.bind (Leaves.ofBus hp)
            (k := fun ok => if ok then continueTo .txVideoOut else txUnlocked P) hk))))))
  simp only [List.nil_append, ← List.append_assoc] at h
  exact h.congr rfl

theorem fails_txCfgAfter {p : U32} {t : TxPllSetting} {ok : Bool} {T : List Event}
    (ht : computeTxPll P p = .ok t)
    (hp : Issues (poll P .txpllLock txlockPolls .txlockGap) T (some ok))
    (cp : StopsAtCuts (poll P .txpllLock txlockPolls .txlockGap) T) :
    FailsAtCuts (txCfgAfter P p) (listEv P P.seqTxPllRef ++ listEv P (P.encTxPll t)
      ++ listEv P P.seqTxPllRst ++ T) (fun _ => configured p t) := by
  unfold txCfgAfter
  rw [ht]
  have h := FailsAtCuts.andThen (F := fun _ => id) (f := fun c => { c with pclkRb := p })
    (Leaves.modCtx fun _ _ => rfl) (FailsAtCuts.nil _ _)
    (FailsAtCuts.bind (F := fun _ => id) (Leaves.lift (.ok t)) (FailsAtCuts.nil _ _) (k := fun t =>
      (Op.modCtx fun c => { c with txpll := t }).andThen <|
      (Op.ofBus (wrList P P.seqTxPllRef)).andThen <|
      (Op.ofBus (wrList P (P.encTxPll t))).andThen <|
      (Op.ofBus (wrList P P.seqTxPllRst)).andThen <|
      (Op.ofBus (poll P .txpllLock txlockPolls .txlockGap)).bind fun ok =>
      if ok then continueTo .txVideoOut else txUnlocked P)
      (FailsAtCuts.andThen (F := fun _ => id) (f := fun c => { c with txpll := t })
        (Leaves.modCtx fun _ _ => rfl) (FailsAtCuts.nil _ _)
        (FailsAtCuts.andThen_id (leaves_wrList P P.seqTxPllRef) (fails_wrList P _)
          (FailsAtCuts.andThen_id (leaves_wrList P (P.encTxPll t)) (fails_wrList P _)
            (FailsAtCuts.andThen_id (leaves_wrList P P.seqTxPllRst) (fails_wrList P _)
              (FailsAtCuts.congr (G := fun _ => id) (FailsAtCuts.bind (U := []) (Leaves.ofBus hp)
                (FailsAtCuts.ofBus cp)
                (k := fun ok => if ok then continueTo .txVideoOut else txUnlocked P)
                (G := fun _ => id) (FailsAtCuts.nil _ _)) fun k _ => by split <;> rfl))))))
  simp only [List.nil_append, List.append_nil, ← List.append_assoc] at h
  exact h.congr fun k _ => rfl

theorem leaves_pclkReadback (hP : spanFits P.pclkRb.span = true) {bytes : List Byte}
    (hl : bytes.length = P.pclkRb.span.len.toNat) :
    Leaves (rdBulkOp P P.pclkRb.span.bank P.pclkRb.span.addr P.pclkRb.span.len)
      (bulkEv P P.pclkRb.span.bank P.pclkRb.span.addr bytes) id (.ok bytes) :=
  leaves_rdBulkOp hP hl

/-- STAGE_TXVIDCFG is refused where the readback run passes 0xFF (R79, R146). -/
theorem stageTxVidCfg_wraps (h : spanFits P.pclkRb.span = false) (s : State) :
    stageTxVidCfg P s = (.refuse .bulkWrap, s) := Op.bind_refuse (rdBulkOp_wraps h s) _

theorem txCfgWritesEv_append (bytes : List Byte) (t : TxPllSetting) (U : List Event) :
    txCfgWritesEv P bytes t ++ U = bulkEv P P.pclkRb.span.bank P.pclkRb.span.addr bytes
      ++ (listEv P P.seqTxPllRef ++ listEv P (P.encTxPll t) ++ listEv P P.seqTxPllRst ++ U) := by
  simp [txCfgWritesEv]

/-- TxVideoConfig locks (R247). -/
theorem leaves_stageTxVidCfg_locked (hP : spanFits P.pclkRb.span = true) (hw : P.wellFormed = true)
    {bytes vs : List Byte} {v : Byte} (hl : bytes.length = P.pclkRb.span.len.toNat)
    (h1 : 1 ≤ (pclkOf P bytes).toNat)
    (hf : txPllFits P (pclkOf P bytes).toNat = true)
    (hv : pollSets P .txpllLock 4 vs v = true) :
    Leaves (stageTxVidCfg P)
      (txCfgWritesEv P bytes (txPllOf P (pclkOf P bytes).toNat)
        ++ pollSetEv P .txpllLock .txlockGap vs v)
      (fun c => { configured (pclkOf P bytes) (txPllOf P (pclkOf P bytes).toNat) c
        with stage := 4 }) (.ok .next) := by
  have ha := leaves_txCfgAfter (computeTxPll_ok hw h1 hf)
    (issues_pollSet (n := txlockPolls) (g := .txlockGap) hv)
    (by rw [if_pos rfl]; exact leaves_continueTo .txVideoOut)
  rw [List.append_nil] at ha
  rw [stageTxVidCfg_eq, txCfgWritesEv_append]
  exact (Leaves.bind (leaves_pclkReadback hP hl) ha).congr rfl

/-- TxVideoConfig stops at an `Err` (R247, R257). -/
theorem fails_stageTxVidCfg (hP : spanFits P.pclkRb.span = true) (hw : P.wellFormed = true)
    {bytes vs : List Byte} {v : Byte} (hl : bytes.length = P.pclkRb.span.len.toNat)
    (h1 : 1 ≤ (pclkOf P bytes).toNat)
    (hf : txPllFits P (pclkOf P bytes).toNat = true)
    (hv : pollSets P .txpllLock 4 vs v = true) :
    FailsAtCuts (stageTxVidCfg P)
      (txCfgWritesEv P bytes (txPllOf P (pclkOf P bytes).toNat)
        ++ pollSetEv P .txpllLock .txlockGap vs v)
      (fun k => if k < 1 + bytes.length then id else
        configured (pclkOf P bytes) (txPllOf P (pclkOf P bytes).toNat)) := by
  have ha := fails_txCfgAfter (computeTxPll_ok hw h1 hf)
    (issues_pollSet (n := txlockPolls) (g := .txlockGap) hv)
    (stops_pollSet (n := txlockPolls) (g := .txlockGap) hv)
  rw [stageTxVidCfg_eq, txCfgWritesEv_append]
  refine (FailsAtCuts.bind (leaves_pclkReadback hP hl)
    (fails_rdBulkOp hP hl) ha).congr fun k _ => ?_
  rw [bulkEv_length]
  split <;> rfl

/-- The end of TxVideoConfig without lock (R247, R305). -/
theorem txUnlocked_eq (s : State) : txUnlocked P s
    = (.ok .yield, scheduled P .retry ((s.emit (.warn .pllUnlocked)).modCtx fun c => { c with err := 5 })) := by
  change (_, schedule P .retry _) = _
  rw [schedule_eq]
  rfl

/-- TxVideoConfig after a readback of 0 (R171, R309). -/
theorem stageTxVidCfg_zero (hP : spanFits P.pclkRb.span = true) {bytes : List Byte}
    (hl : bytes.length = P.pclkRb.span.len.toNat) (h0 : (pclkOf P bytes).toNat = 0) :
    Leaves (stageTxVidCfg P) (bulkEv P P.pclkRb.span.bank P.pclkRb.span.addr bytes)
      (fun c => { c with pclkRb := pclkOf P bytes }) (.fault .divZero) := by
  rw [stageTxVidCfg_eq]
  have ha : Leaves (txCfgAfter P (pclkOf P bytes)) []
      (fun c => { c with pclkRb := pclkOf P bytes }) (.fault .divZero) := by
    unfold txCfgAfter
    rw [computeTxPll_zero P h0]
    exact (Leaves.andThen (T := []) (U := []) (Leaves.modCtx fun _ _ => rfl)
      (Leaves.bind_fault (Leaves.lift _) _)).congr rfl
  have h := Leaves.bind (leaves_pclkReadback hP hl)
    (k := fun bytes => txCfgAfter P (pclkOf P bytes)) ha
  rw [List.append_nil] at h
  exact h.congr rfl

/-- TxVideoConfig after a readback the calculator does not admit (R160, R168). -/
theorem stageTxVidCfg_refused (hP : spanFits P.pclkRb.span = true) (hw : P.wellFormed = true) {bytes : List Byte}
    (hl : bytes.length = P.pclkRb.span.len.toNat) (h1 : 1 ≤ (pclkOf P bytes).toNat)
    (hf : txPllFits P (pclkOf P bytes).toNat = false) :
    Leaves (stageTxVidCfg P) (bulkEv P P.pclkRb.span.bank P.pclkRb.span.addr bytes)
      (fun c => { c with pclkRb := pclkOf P bytes }) (.refuse .overflow) := by
  rw [stageTxVidCfg_eq]
  have ha : Leaves (txCfgAfter P (pclkOf P bytes)) []
      (fun c => { c with pclkRb := pclkOf P bytes }) (.refuse .overflow) := by
    unfold txCfgAfter
    rw [computeTxPll_refused hw h1 hf]
    exact (Leaves.andThen (T := []) (U := []) (Leaves.modCtx fun _ _ => rfl)
      (Leaves.bind_refuse (Leaves.lift _) _)).congr rfl
  have h := Leaves.bind (leaves_pclkReadback hP hl)
    (k := fun bytes => txCfgAfter P (pclkOf P bytes)) ha
  rw [List.append_nil] at h
  exact h.congr rfl

/-! ## TxVideoOut (R248) -/

/-- What TxVideoOut writes before its write lists. -/
def measured (t : VideoTiming) (c : Ctx) : Ctx := { c with live := t }

/-- TxVideoOut after the measurement. -/
def txOutAfter (P : Params) (t : VideoTiming) : Op StageEnd :=
  (Op.modCtx (measured t)).andThen <|
  (Op.ofBus (wrList P (P.txDig t))).andThen <|
  (Op.ofBus (wrList P P.seqTxSwRst)).andThen <|
  (Op.modCtx fun c => { c with steady := true, err := 0 }).andThen <|
  Op.pure .yield

theorem stageTxVidOut_eq : stageTxVidOut P
    = (rdBulkOp P P.meas.span.bank P.meas.span.addr P.meas.span.len).bind fun bytes =>
      txOutAfter P (timingOfMeas P bytes) := rfl

/-- STAGE_TXVIDOUT is refused where the measurement run passes 0xFF (R79, R146). -/
theorem stageTxVidOut_wraps (h : spanFits P.meas.span = false) (s : State) :
    stageTxVidOut P s = (.refuse .bulkWrap, s) := Op.bind_refuse (rdBulkOp_wraps h s) _

theorem leaves_stageTxVidOut (hP : spanFits P.meas.span = true) {bytes : List Byte}
    (hl : bytes.length = P.meas.span.len.toNat) :
    Leaves (stageTxVidOut P) (txOutEv P bytes)
      (fun c => { measured (timingOfMeas P bytes) c with steady := true, err := 0 }) (.ok .yield) := by
  have h := Leaves.bind (leaves_rdBulkOp (P := P) (b := P.meas.span.bank) hP hl)
    (k := fun bytes => txOutAfter P (timingOfMeas P bytes))
    (Leaves.andThen (T := []) (f := measured (timingOfMeas P bytes)) (Leaves.modCtx fun _ _ => rfl)
      (Leaves.andThen (leaves_wrList P (P.txDig (timingOfMeas P bytes)))
        (Leaves.andThen (leaves_wrList P P.seqTxSwRst)
          (Leaves.andThen (T := []) (U := []) (f := fun c => { c with steady := true, err := 0 })
            (Leaves.modCtx fun _ _ => rfl) (Leaves.pure StageEnd.yield)))))
  simp only [List.nil_append, List.append_nil, ← List.append_assoc] at h
  exact h.congr rfl

theorem fails_stageTxVidOut (hP : spanFits P.meas.span = true) {bytes : List Byte}
    (hl : bytes.length = P.meas.span.len.toNat) :
    FailsAtCuts (stageTxVidOut P) (txOutEv P bytes)
      (fun k => if k < 1 + bytes.length then id else measured (timingOfMeas P bytes)) := by
  have h := FailsAtCuts.bind (leaves_rdBulkOp (P := P) (b := P.meas.span.bank) hP hl)
    (fails_rdBulkOp (P := P) (b := P.meas.span.bank) hP hl)
    (k := fun bytes => txOutAfter P (timingOfMeas P bytes))
    (FailsAtCuts.andThen (F := fun _ => id) (f := measured (timingOfMeas P bytes))
      (Leaves.modCtx fun _ _ => rfl) (FailsAtCuts.nil _ _)
      (FailsAtCuts.andThen_id (leaves_wrList P (P.txDig (timingOfMeas P bytes))) (fails_wrList P _)
        (FailsAtCuts.andThen_id (U := []) (leaves_wrList P P.seqTxSwRst) (fails_wrList P _)
          (FailsAtCuts.nil _ _))))
  rw [List.nil_append, List.append_nil, ← List.append_assoc] at h
  refine h.congr fun k _ => ?_
  rw [bulkEv_length]
  split <;> rfl

/-! ## RxPllConfig and TxVideoConfig where a poll runs out (R246, R247) -/

/-- RxPllConfig from its settings to the answer of its first poll. -/
def rxPllHead (P : Params) (d : DesscSetting) (c : PcrSetting) : Op Bool :=
  (Op.modCtx (stored d c)).andThen <|
  (Op.ofBus (wrList P (P.encDessc d))).andThen <|
  (Op.ofBus (wrList P (P.encPcr c))).andThen <|
  Op.ofBus (poll P .pcrStable pcrPolls .pcrGap)

/-- RxPllConfig after the answer of its first poll. -/
def rxPllTail (P : Params) (ok1 : Bool) : Op StageEnd :=
  if ok1 then (Op.ofBus (poll P .vidchkStable vidchkPolls .none)).bind fun ok2 => rxPllVideoCheck P ok2
  else backToRxTiming P .pcrUnstable

theorem rxPllAfter_eq (d : DesscSetting) (c : PcrSetting) :
    rxPllAfter P d c = (rxPllHead P d c).bind (rxPllTail P) := by
  simp only [rxPllAfter, rxPllHead, Op.andThen, Op.bind_assoc]
  rfl

theorem leaves_rxPllHead {d : DesscSetting} {c : PcrSetting} {ok1 : Bool} {T : List Event}
    (hp : Issues (poll P .pcrStable pcrPolls .pcrGap) T (some ok1)) :
    Leaves (rxPllHead P d c) (listEv P (P.encDessc d) ++ listEv P (P.encPcr c) ++ T) (stored d c)
      (.ok ok1) := by
  have h := Leaves.andThen (T := []) (f := stored d c) (Leaves.modCtx fun _ _ => rfl)
    (Leaves.andThen (leaves_wrList P (P.encDessc d)) (Leaves.andThen (leaves_wrList P (P.encPcr c))
      (Leaves.ofBus hp)))
  rw [List.nil_append, ← List.append_assoc] at h
  exact h.congr rfl

/-- TxVideoConfig from its setting to the answer of its poll. -/
def txCfgHead (P : Params) (p : U32) (t : TxPllSetting) : Op Bool :=
  (Op.modCtx (configured p t)).andThen <|
  (Op.ofBus (wrList P P.seqTxPllRef)).andThen <|
  (Op.ofBus (wrList P (P.encTxPll t))).andThen <|
  (Op.ofBus (wrList P P.seqTxPllRst)).andThen <|
  Op.ofBus (poll P .txpllLock txlockPolls .txlockGap)

theorem txCfgAfter_eq {p : U32} {t : TxPllSetting} (ht : computeTxPll P p = .ok t) :
    txCfgAfter P p = (txCfgHead P p t).bind fun ok =>
      if ok then continueTo .txVideoOut else txUnlocked P := by
  simp only [txCfgAfter, txCfgHead, Op.andThen, Op.bind_assoc, ht]
  rfl

theorem leaves_txCfgHead {p : U32} {t : TxPllSetting} {ok : Bool} {T : List Event}
    (hp : Issues (poll P .txpllLock txlockPolls .txlockGap) T (some ok)) :
    Leaves (txCfgHead P p t) (listEv P P.seqTxPllRef ++ listEv P (P.encTxPll t)
      ++ listEv P P.seqTxPllRst ++ T) (configured p t) (.ok ok) := by
  have h := Leaves.andThen (T := []) (f := configured p t) (Leaves.modCtx fun _ _ => rfl)
    (Leaves.andThen (leaves_wrList P P.seqTxPllRef) (Leaves.andThen (leaves_wrList P (P.encTxPll t))
      (Leaves.andThen (leaves_wrList P P.seqTxPllRst) (Leaves.ofBus hp))))
  simp only [List.nil_append, ← List.append_assoc] at h
  exact h.congr rfl

/-- TxVideoConfig without lock (R247, R305). -/
theorem stageTxVidCfg_unlocked (hP : spanFits P.pclkRb.span = true) (hw : P.wellFormed = true)
    {bytes vs : List Byte} (hl : bytes.length = P.pclkRb.span.len.toNat)
    (h1 : 1 ≤ (pclkOf P bytes).toNat)
    (hf : txPllFits P (pclkOf P bytes).toNat = true)
    (hn : vs.length = 4) (hv : allUnset (P.statusBits .txpllLock) vs = true) {s : State}
    (g : gives s (txCfgWritesEv P bytes (txPllOf P (pclkOf P bytes).toNat)
      ++ unsetEv P (P.statusBits .txpllLock) .txlockGap vs) = true) :
    stageTxVidCfg P s = txUnlocked P ((play (txCfgWritesEv P bytes
      (txPllOf P (pclkOf P bytes).toNat)
        ++ unsetEv P (P.statusBits .txpllLock) .txlockGap vs) s).modCtx
          (configured (pclkOf P bytes) (txPllOf P (pclkOf P bytes).toNat))) := by
  rw [txCfgWritesEv_append] at g ⊢
  rw [gives_append, Bool.and_eq_true] at g
  have h := (leaves_txCfgHead (P := P) (p := pclkOf P bytes)
    (t := txPllOf P (pclkOf P bytes).toNat)
    (issues_pollUnset (n := txlockPolls) (g := .txlockGap) hn hv)).at g.2
  have hb := rdBulkOp_ok (P := P) hP hl g.1
  rw [stageTxVidCfg_eq, Op.bind_ok hb, txCfgAfter_eq (computeTxPll_ok hw h1 hf), Op.bind_ok h,
    ← play_append, if_neg (by simp)]

/-- RxPllConfig whose PCR stays unstable (R246, R304). -/
theorem stageRxPll_unstable {s : State} (hs : s.ctx.selValid = true)
    (hp : pcrFits P s.ctx.sel.pclk.toNat = true) {vs : List Byte} (hn : vs.length = 50)
    (hv : allUnset (P.statusBits .pcrStable) vs = true)
    (g : gives s (pllWritesEv P s ++ unsetEv P (P.statusBits .pcrStable) .pcrGap vs) = true) :
    stageRxPll P s = backToRxTiming P .pcrUnstable
      ((play (pllWritesEv P s ++ unsetEv P (P.statusBits .pcrStable) .pcrGap vs)
        { s with draws := s.draws + pcrDraws P s.ctx.sel.pclk.toNat }).modCtx (withPll P s)) := by
  rw [stageRxPll_eq hs hp, rxPllAfter_eq, Op.bind_ok ((leaves_rxPllHead
    (issues_pollUnset (n := pcrPolls) (g := .pcrGap) hn hv)).at (by rw [gives_setDraws]; exact g))]
  rfl

/-- RxPllConfig whose video check runs out (R246, D27). -/
theorem stageRxPll_timeout {s : State} (hs : s.ctx.selValid = true)
    (hp : pcrFits P s.ctx.sel.pclk.toNat = true) {vs us : List Byte} {v : Byte}
    (hv : pollSets P .pcrStable 50 vs v = true) (hn : us.length = 50)
    (hu : allUnset (P.statusBits .vidchkStable) us = true)
    (g : gives s (pllWritesEv P s ++ pollSetEv P .pcrStable .pcrGap vs v
      ++ unsetEv P (P.statusBits .vidchkStable) .none us) = true) :
    stageRxPll P s = rxPllVideoCheck P false
      ((play (pllWritesEv P s ++ pollSetEv P .pcrStable .pcrGap vs v
        ++ unsetEv P (P.statusBits .vidchkStable) .none us)
        { s with draws := s.draws + pcrDraws P s.ctx.sel.pclk.toNat }).modCtx (withPll P s)) := by
  rw [gives_append, Bool.and_eq_true] at g
  have h1 := (leaves_rxPllHead (P := P) (d := desscOf s.ctx.sel.pclk.toNat)
    (c := pcrIn P s s.ctx.sel.pclk.toNat) (issues_pollSet (n := pcrPolls) (g := .pcrGap) hv)).at
    (s := { s with draws := s.draws + pcrDraws P s.ctx.sel.pclk.toNat })
    (by rw [gives_setDraws]; exact g.1)
  have h2 := (Leaves.ofBus (issues_pollUnset (P := P) (n := vidchkPolls) (g := .none) hn hu)).at
    (s := (play (pllWritesEv P s ++ pollSetEv P .pcrStable .pcrGap vs v)
      { s with draws := s.draws + pcrDraws P s.ctx.sel.pclk.toNat }).modCtx (withPll P s))
    (by rw [gives_modCtx]; exact (gives_setDraws _ (play _ s) _).trans g.2)
  rw [stageRxPll_eq hs hp, rxPllAfter_eq, Op.bind_ok h1]
  change Op.bind _ _ ((play (pllWritesEv P s ++ pollSetEv P .pcrStable .pcrGap vs v) _).modCtx
    (withPll P s)) = _
  rw [Op.bind_ok h2, play_modCtx _ _ _ (fun _ _ => rfl), ← play_append]
  rfl

end Sys2Proof.Safety
end

