-- ==== Sys2Proof/Laws/Invoke.lean ====
section
/-! SUPPORT. One round of INVOKE (R251): which stage operation runs, and what each way it ends does. -/

namespace Sys2Proof.Safety

open Sys2Proof Sys2Proof.Machine

variable {P : Params} {m : Nat} {s s1 : State}

/-! ## The stage of the control point -/

theorem runStage_prepare (h : s.ctx.stage = 0) : runStage P s = stagePrepare P s := by
  simp [runStage, h, stageOfCode]

theorem runStage_rxTiming (h : s.ctx.stage = 1) : runStage P s = stageRxTiming P s := by
  simp [runStage, h, stageOfCode]

theorem runStage_rxPll (h : s.ctx.stage = 2) : runStage P s = stageRxPll P s := by
  simp [runStage, h, stageOfCode]

theorem runStage_txVidCfg (h : s.ctx.stage = 3) : runStage P s = stageTxVidCfg P s := by
  simp [runStage, h, stageOfCode]

theorem runStage_txVidOut (h : s.ctx.stage = 4) : runStage P s = stageTxVidOut P s := by
  simp [runStage, h, stageOfCode]

theorem runStage_bad (h : 4 < s.ctx.stage.toNat) : runStage P s = (.fault .badStage, s) := by
  have hc : stageOfCode s.ctx.stage = none := by
    revert h; generalize s.ctx.stage = c; revert c; decide
  simp [runStage, hc]

/-! ## One round -/

theorem invokeLoop_next (h : runStage P s = (.ok .next, s1)) :
    invokeLoop P (m + 1) s = invokeLoop P m s1 := by simp only [invokeLoop, h]

theorem invokeLoop_yield (h : runStage P s = (.ok .yield, s1)) :
    invokeLoop P (m + 1) s = (.ok (), s1) := by simp only [invokeLoop, h]

theorem invokeLoop_err (h : runStage P s = (.fail .transportError, s1)) :
    invokeLoop P (m + 1) s = (.ok (), deferred P s1) := by
  simp only [invokeLoop, h, deferTransportError_eq]

theorem invokeLoop_fault {f : Fault} (h : runStage P s = (.fault f, s1)) :
    invokeLoop P (m + 1) s = (.fault f, s1) := by simp only [invokeLoop, h]

theorem invokeLoop_refuse {q : Refusal} (h : runStage P s = (.refuse q, s1)) :
    invokeLoop P (m + 1) s = (.refuse q, s1) := by simp only [invokeLoop, h]

end Sys2Proof.Safety
end

