-- ==== Sys2Proof/Laws/PerInstr.lean ====
section
/-! SUPPORT. Statements about every operation as syntax, one lemma for each constructor of `Instr`. -/

namespace Sys2Proof.Laws.WordShape

open Sys2Proof Sys2Proof.Safety

/-- The word of an operation: its first byte is an opcode of R110 whose row names the operation's format, and its
length is that format's (R107, R108, R113). -/
def Statement (i : Instr) : Prop :=
  (i.opcode, i.format) ∈ opcodeFormats ∧ (encode i).head? = some i.opcode
    ∧ (encode i).length = i.format.length i.pairCount

theorem attach (c : BitVec 3) : Statement (.attach c) :=
  ⟨by dsimp only [Instr.opcode, Instr.format]; decide, rfl, rfl⟩

theorem enable : Statement .enable :=
  ⟨by dsimp only [Instr.opcode, Instr.format]; decide, rfl, rfl⟩

theorem disable : Statement .disable :=
  ⟨by dsimp only [Instr.opcode, Instr.format]; decide, rfl, rfl⟩

theorem detach : Statement .detach :=
  ⟨by dsimp only [Instr.opcode, Instr.format]; decide, rfl, rfl⟩

theorem tick : Statement .tick :=
  ⟨by dsimp only [Instr.opcode, Instr.format]; decide, rfl, rfl⟩

theorem banksel (b : Byte) : Statement (.banksel b) :=
  ⟨by dsimp only [Instr.opcode, Instr.format]; decide, rfl, rfl⟩

theorem wr (b a v : Byte) : Statement (.wr b a v) :=
  ⟨by dsimp only [Instr.opcode, Instr.format]; decide, rfl, rfl⟩

theorem pairBytes_length (ps : List (Byte × Byte)) : (pairBytes ps).length = 2 * ps.length := by
  induction ps with
  | nil => rfl
  | cons p ps ih => simp [pairBytes] at ih ⊢; omega

theorem wrseq (b : Byte) (ps : List (Byte × Byte)) : Statement (.wrseq b ps) := by
  refine ⟨by dsimp only [Instr.opcode, Instr.format]; decide, rfl, ?_⟩
  simp [encode, Instr.operands, Instr.format, Format.length, Instr.pairCount, pairBytes_length]
  omega

theorem rd (b a : Byte) : Statement (.rd b a) :=
  ⟨by dsimp only [Instr.opcode, Instr.format]; decide, rfl, rfl⟩

theorem rdbulk (b a n : Byte) : Statement (.rdbulk b a n) :=
  ⟨by dsimp only [Instr.opcode, Instr.format]; decide, rfl, rfl⟩

theorem pcrBand (p : U32) : Statement (.pcrBand p) :=
  ⟨by dsimp only [Instr.opcode, Instr.format]; decide, rfl, rfl⟩

theorem computePcr (p : U32) : Statement (.computePcr p) :=
  ⟨by dsimp only [Instr.opcode, Instr.format]; decide, rfl, rfl⟩

theorem txPrediv (p : U32) : Statement (.txPrediv p) :=
  ⟨by dsimp only [Instr.opcode, Instr.format]; decide, rfl, rfl⟩

theorem txPhyclk (p : U32) : Statement (.txPhyclk p) :=
  ⟨by dsimp only [Instr.opcode, Instr.format]; decide, rfl, rfl⟩

theorem txSerdiv (phy : U32) : Statement (.txSerdiv phy) :=
  ⟨by dsimp only [Instr.opcode, Instr.format]; decide, rfl, rfl⟩

theorem txPixmux (p : U32) (sd : Byte) : Statement (.txPixmux p sd) :=
  ⟨by dsimp only [Instr.opcode, Instr.format]; decide, rfl, rfl⟩

theorem txDivreg (p : U32) (q sd : Byte) : Statement (.txDivreg p q sd) :=
  ⟨by dsimp only [Instr.opcode, Instr.format]; decide, rfl, rfl⟩

theorem computeTxPll (p : U32) : Statement (.computeTxPll p) :=
  ⟨by dsimp only [Instr.opcode, Instr.format]; decide, rfl, rfl⟩

theorem pclkOfTiming (ht vt : U16) (fr : Byte) : Statement (.pclkOfTiming ht vt fr) :=
  ⟨by dsimp only [Instr.opcode, Instr.format]; decide, rfl, rfl⟩

theorem bppLookup (f : BitVec 4) : Statement (.bppLookup f) :=
  ⟨by dsimp only [Instr.opcode, Instr.format]; decide, rfl, rfl⟩

theorem activeWidth (wc : U16) (f : BitVec 4) : Statement (.activeWidth wc f) :=
  ⟨by dsimp only [Instr.opcode, Instr.format]; decide, rfl, rfl⟩

theorem videoCheck (w h : U16) : Statement (.videoCheck w h) :=
  ⟨by dsimp only [Instr.opcode, Instr.format]; decide, rfl, rfl⟩

theorem detect : Statement .detect :=
  ⟨by dsimp only [Instr.opcode, Instr.format]; decide, rfl, rfl⟩

theorem modeLookup (w h : U16) (r : Byte) : Statement (.modeLookup w h r) :=
  ⟨by dsimp only [Instr.opcode, Instr.format]; decide, rfl, rfl⟩

theorem stagePrepare : Statement .stagePrepare :=
  ⟨by dsimp only [Instr.opcode, Instr.format]; decide, rfl, rfl⟩

theorem stageRxtiming : Statement .stageRxtiming :=
  ⟨by dsimp only [Instr.opcode, Instr.format]; decide, rfl, rfl⟩

theorem stageRxpll : Statement .stageRxpll :=
  ⟨by dsimp only [Instr.opcode, Instr.format]; decide, rfl, rfl⟩

theorem stageTxvidcfg : Statement .stageTxvidcfg :=
  ⟨by dsimp only [Instr.opcode, Instr.format]; decide, rfl, rfl⟩

theorem stageTxvidout : Statement .stageTxvidout :=
  ⟨by dsimp only [Instr.opcode, Instr.format]; decide, rfl, rfl⟩

theorem poll (i : StatusId) (n : Byte) (g : Gap) : Statement (.poll i n g) :=
  ⟨by dsimp only [Instr.opcode, Instr.format]; decide, rfl, rfl⟩

theorem schedule (d : DelayClass) : Statement (.schedule d) :=
  ⟨by dsimp only [Instr.opcode, Instr.format]; decide, rfl, rfl⟩

theorem retryUpdate (k : Bool) (e : ErrCode) : Statement (.retryUpdate k e) :=
  ⟨by dsimp only [Instr.opcode, Instr.format]; decide, rfl, rfl⟩

theorem invoke : Statement .invoke :=
  ⟨by dsimp only [Instr.opcode, Instr.format]; decide, rfl, rfl⟩

end Sys2Proof.Laws.WordShape
end

