-- ==== Sys2Proof/Tests/Slice0.lean ====
section
/-! SUPPORT. Tests of the model: well-formedness, words written out from 30_encoding.md, vectors of
95_test_vectors.md under its fixture `Config.hp`, and after them a witness for the hypotheses of each statement. -/

namespace Sys2Proof.Tests

open Sys2Proof Sys2Proof.Machine Sys2Proof.Safety Sys2Proof.Config

-- One theorem at a time: checked in parallel, the tests would each hold a thread.
set_option Elab.async false

/-! ## Well-formedness (R113) -/

theorem test_wrseq_256_ill_formed :
    (Instr.wrseq 0x82 (List.replicate 256 (0x01, 0x00))).wellFormed = false := by decide +kernel

theorem test_wrseq_255_well_formed :
    (Instr.wrseq 0x82 (List.replicate 255 (0x01, 0x00))).wellFormed = true := by decide +kernel

/-! ## Decoding, every constructor (R107 to R110; 95_test_vectors.md, section 3.1) -/

theorem test_decode_attach : decode [0x01, 0x07] = .ok (.attach 7) [] := by decide +kernel
theorem test_decode_enable : decode [0x02, 0xAA] = .ok .enable [0xAA] := by decide +kernel
theorem test_decode_disable : decode [0x03] = .ok .disable [] := by decide +kernel
theorem test_decode_detach : decode [0x04] = .ok .detach [] := by decide +kernel
theorem test_decode_tick : decode [0x05] = .ok .tick [] := by decide +kernel
theorem test_decode_banksel : decode [0x10, 0x81] = .ok (.banksel 0x81) [] := by decide +kernel
theorem test_decode_wr : decode [0x11, 0x81, 0x10, 0x3C] = .ok (.wr 0x81 0x10 0x3C) [] := by decide +kernel
theorem test_decode_wrseq : decode [0x12, 0x82, 0x02, 0x01, 0x00, 0x01, 0x80, 0x05]
    = .ok (.wrseq 0x82 [(0x01, 0x00), (0x01, 0x80)]) [0x05] := by decide +kernel
theorem test_decode_wrseq_empty : decode [0x12, 0x82, 0x00] = .ok (.wrseq 0x82 []) [] := by decide +kernel
theorem test_decode_rd : decode [0x13, 0x85, 0x20] = .ok (.rd 0x85 0x20) [] := by decide +kernel
theorem test_decode_rdbulk : decode [0x14, 0x85, 0x30, 0x05] = .ok (.rdbulk 0x85 0x30 5) [] := by decide +kernel
theorem test_decode_pcrBand : decode [0x20, 0x00, 0x00, 0x55, 0xF0] = .ok (.pcrBand 22000) [] := by decide +kernel
theorem test_decode_computePcr :
    decode [0x21, 0x00, 0x02, 0x44, 0x14] = .ok (.computePcr 148500) [] := by decide +kernel
theorem test_decode_txPrediv :
    decode [0x22, 0x00, 0x00, 0x4E, 0x20] = .ok (.txPrediv 20000) [] := by decide +kernel
theorem test_decode_txPhyclk :
    decode [0x23, 0x24, 0x92, 0x49, 0x25] = .ok (.txPhyclk 613566757) [] := by decide +kernel
theorem test_decode_txSerdiv :
    decode [0x24, 0x00, 0x0C, 0x35, 0x00] = .ok (.txSerdiv 800000) [] := by decide +kernel
theorem test_decode_txPixmux :
    decode [0x25, 0x00, 0x04, 0x93, 0xE0, 0x05] = .ok (.txPixmux 300000 5) [] := by decide +kernel
theorem test_decode_txDivreg :
    decode [0x26, 0x00, 0x02, 0x44, 0x14, 0x04, 0x02] = .ok (.txDivreg 148500 4 2) [] := by decide +kernel
theorem test_decode_computeTxPll :
    decode [0x27, 0x00, 0x01, 0x22, 0x0A] = .ok (.computeTxPll 74250) [] := by decide +kernel
theorem test_decode_pclkOfTiming :
    decode [0x28, 0x08, 0x98, 0x04, 0x65, 0x3C] = .ok (.pclkOfTiming 2200 1125 60) [] := by decide +kernel
theorem test_decode_bppLookup : decode [0x30, 0x0A] = .ok (.bppLookup 0x0a) [] := by decide +kernel
theorem test_decode_activeWidth :
    decode [0x31, 0x16, 0x80, 0x0A] = .ok (.activeWidth 5760 0x0a) [] := by decide +kernel
theorem test_decode_videoCheck :
    decode [0x32, 0x01, 0x90, 0x04, 0x38] = .ok (.videoCheck 400 1080) [] := by decide +kernel
theorem test_decode_detect : decode [0x33] = .ok .detect [] := by decide +kernel
theorem test_decode_modeLookup :
    decode [0x34, 0x07, 0x80, 0x04, 0x38, 0x3B] = .ok (.modeLookup 1920 1080 59) [] := by decide +kernel
theorem test_decode_stagePrepare : decode [0x40] = .ok .stagePrepare [] := by decide +kernel
theorem test_decode_stageRxtiming : decode [0x41] = .ok .stageRxtiming [] := by decide +kernel
theorem test_decode_stageRxpll : decode [0x42] = .ok .stageRxpll [] := by decide +kernel
theorem test_decode_stageTxvidcfg : decode [0x43] = .ok .stageTxvidcfg [] := by decide +kernel
theorem test_decode_stageTxvidout : decode [0x44] = .ok .stageTxvidout [] := by decide +kernel
theorem test_decode_poll : decode [0x45, 0x00, 0x32, 0x01] = .ok (.poll .pcrStable 50 .pcrGap) [] := by decide +kernel
theorem test_decode_poll_last :
    decode [0x45, 0x02, 0x04, 0x02] = .ok (.poll .txpllLock 4 .txlockGap) [] := by decide +kernel
theorem test_decode_schedule : decode [0x46, 0x03] = .ok (.schedule .retry) [] := by decide +kernel
theorem test_decode_retryUpdate :
    decode [0x47, 0x01, 0x02] = .ok (.retryUpdate true .noVideo) [] := by decide +kernel
theorem test_decode_retryUpdate_last :
    decode [0x47, 0x00, 0x09] = .ok (.retryUpdate false .dsiAttachDefer) [] := by decide +kernel
theorem test_decode_invoke : decode [0x48] = .ok .invoke [] := by decide +kernel

/-- V-DEC-4, V-DEC-5. -/
theorem test_decode_illegal : [[0x06], [0x00], [0xFF], [0x15], [0x29], [0x35], [0x49]].all
    (fun w => decode w == .bad .illegal) = true := by decide +kernel

/-- V-DEC-9, V-DEC-10, and no byte at all. -/
theorem test_decode_truncated : [[], [0x12, 0x82, 0x02, 0x01, 0x00], [0x21, 0x00, 0x02]].all
    (fun w => decode w == .bad .truncated) = true := by decide +kernel

/-- V-DEC-2, 15, 18, 19, 20, 22, 23. -/
theorem test_decode_reserved :
    [[0x01, 0x08], [0x30, 0x1A], [0x45, 0x03, 0x04, 0x02], [0x45, 0x02, 0x04, 0x03], [0x46, 0x04],
      [0x47, 0x02, 0x02], [0x47, 0x00, 0x0A]].all (fun w => decode w == .bad .reserved) = true := by decide +kernel

/-- WR 0x81, 0x10, 0x3c as the opcode table numbers its bits: byte 0 in bits 7 to 0. -/
theorem test_table_word : decodeTableWord 32 0x3C108111 = some (.wr 0x81 0x10 0x3C) := by decide +kernel

/-! ## One operation at a time (95_test_vectors.md, sections 3.2 to 3.6) -/

/-- The state a step answers. -/
def after (o : Host.Outcome State Fault Refusal) : Option State :=
  match o with
  | .next t => some t
  | _ => none

/-- The refusal a step answers. -/
def refusal (o : Host.Outcome State Fault Refusal) : Option Refusal :=
  match o with
  | .refused q => some q
  | _ => none

/-- The fault a step answers. -/
def faultOf (o : Host.Outcome State Fault Refusal) : Option Fault :=
  match o with
  | .fault f => some f
  | _ => none

/-- The result a step records. -/
def result (o : Host.Outcome State Fault Refusal) : Option Result :=
  (after o).bind fun t => t.results.getLast?

/-- A field of the context a step leaves. -/
def field {α : Type} (f : Ctx → α) (o : Host.Outcome State Fault Refusal) : Option α :=
  (after o).map fun t => f t.ctx

/-- The events of a step on a state without history that are no transaction. -/
def others (o : Host.Outcome State Fault Refusal) : Option (List Event) :=
  (after o).map fun t => t.history.filter fun e => !e.isBus

/-- A live context without history, whose chip answers as the script says. -/
def at_ (answers : List Answer) (f : Ctx → Ctx) : State :=
  { State.reset with ctx := f Ctx.reset, history := [], results := [], script := answers }

/-- `n` writes that complete. -/
def w (n : Nat) : List Answer := List.replicate n (.ok 0)

/-- Reads of some bytes. -/
def r (bs : List Byte) : List Answer := bs.map .ok

/-- V-TR-1. -/
theorem test_banksel : (after (execWith hp (.banksel 0x81) (at_ (w 1) id))).map (fun t =>
    (t.history, t.ctx.accessCount, t.results)) = some ([.busW 0xFE 0x81 true], 1, [.ok .unit]) := by decide +kernel

/-- V-TR-14: the bank left selected is the value written. -/
theorem test_wr_banksel : (after (execWith hp (.wr 0x81 0xFE 0x86) (at_ (w 2) id))).map (fun t =>
    (t.history, Hist.bank hp t.history))
    = some ([.busW 0xFE 0x81 true, .busW 0xFE 0x86 true], some 0x86) := by decide +kernel

/-- V-TR-5: the third write is never issued. -/
theorem test_wrseq_err : (after (execWith hp (.wrseq 0x82 [(1, 0), (2, 0), (3, 0)])
    (at_ (w 2 ++ [.err]) id))).map (fun t => (t.history, t.ctx.accessCount, t.results))
    = some ([.busW 0xFE 0x82 true, .busW 1 0 true, .busW 2 0 false], 3, [.fail .transportError]) := by decide +kernel

/-- V-TR-6. -/
theorem test_rd : result (execWith hp (.rd 0x85 0x20) (at_ (w 1 ++ r [0x0a]) id))
    = some (.ok (.u8 0x0a)) := by decide +kernel

/-- V-TR-8. -/
theorem test_rdbulk : (after (execWith hp (.rdbulk 0x85 0x30 5)
    (at_ (w 1 ++ r [0x16, 0x80, 0x04, 0x38, 0x0a]) id))).map (fun t => (t.results, t.history.getLast?))
    = some ([.ok (.bytes [0x16, 0x80, 0x04, 0x38, 0x0a])], some (.busR 0x34 (some 0x0a))) := by decide +kernel

/-- V-TR-10, V-TR-11. -/
theorem test_rdbulk_edge :
    result (execWith hp (.rdbulk 0x85 0xFF 1) (at_ (w 1 ++ r [0x42]) id)) = some (.ok (.bytes [0x42]))
    ∧ refusal (execWith hp (.rdbulk 0x85 0xFF 2) (at_ [] id)) = some .bulkWrap := by decide +kernel

/-- R161: both sides of a threshold. -/
theorem test_pcrBand : result (exec (.pcrBand 22000) (at_ [] id)) = some (.ok (.dessc ⟨16, 0⟩))
    ∧ result (exec (.pcrBand 21999) (at_ [] id)) = some (.ok (.dessc ⟨16, 1⟩)) := by decide +kernel

/-- S1. -/
theorem test_computePcr : result (execWith hp (.computePcr 148500) (at_ [] id))
    = some (.ok (.pcr ⟨4, 0⟩ ⟨23, 0xBE0000, 24, 22⟩)) := by decide +kernel

/-- V-PCR-21. -/
theorem test_computePcr_overflow :
    refusal (execWith hp (.computePcr 2147483648) (at_ [] id)) = some .overflow := by decide +kernel

/-- V-TX-3, V-TX-5. -/
theorem test_txPrediv : result (execWith hp (.txPrediv 79999) (at_ [] id)) = some (.ok (.u8 2))
    ∧ result (execWith hp (.txPrediv 320000) (at_ [] id)) = some (.ok (.u8 16)) := by decide +kernel

/-- V-TX-8, V-TX-9. -/
theorem test_txPhyclk :
    result (exec (.txPhyclk 613566756) (at_ [] id)) = some (.ok (.u32 2147483646))
    ∧ refusal (exec (.txPhyclk 613566757) (at_ [] id)) = some .overflow := by decide +kernel

/-- V-TX-10. -/
theorem test_txSerdiv : result (execWith hp (.txSerdiv 99999) (at_ [] id)) = some (.ok (.u8 16))
    ∧ result (execWith hp (.txSerdiv 100000) (at_ [] id)) = some (.ok (.u8 8)) := by decide +kernel

/-- V-TX-16: an odd clock. -/
theorem test_txPixmux : result (exec (.txPixmux 150001 5) (at_ [] id)) = some (.ok (.u8 14))
    ∧ result (exec (.txPixmux 149999 200) (at_ [] id)) = some (.ok (.u8 7)) := by decide +kernel

/-- V-TX-18, V-TX-21. -/
theorem test_txDivreg : result (exec (.txDivreg 297000 8 16) (at_ [] id)) = some (.ok (.u8 192))
    ∧ faultOf (exec (.txDivreg 3 4 2) (at_ [] id)) = some .divZero := by decide +kernel

/-- V-TXP-8. -/
theorem test_computeTxPll : result (execWith hp (.computeTxPll 20000) (at_ [] id))
    = some (.ok (.txpll ⟨2, 16, 7, 112⟩)) := by decide +kernel

/-- V-PT-6, V-PT-8. -/
theorem test_pclkOfTiming : result (exec (.pclkOfTiming 1999 1 1) (at_ [] id)) = some (.ok (.u32 1))
    ∧ refusal (exec (.pclkOfTiming 65535 65535 2) (at_ [] id)) = some .overflow := by decide +kernel

/-- V-DET-2, V-DET-3. -/
theorem test_bppLookup : result (execWith hp (.bppLookup 0x0c) (at_ [] id)) = some (.ok (.ratio 5 2))
    ∧ result (execWith hp (.bppLookup 0x0f) (at_ [] id)) = some (.ok (.ratio 1 3)) := by decide +kernel

/-- V-DET-9, V-DET-11. -/
theorem test_activeWidth :
    result (execWith hp (.activeWidth 1601 0x0b) (at_ [] id)) = some (.ok (.u16 2001))
    ∧ refusal (execWith hp (.activeWidth 52429 0x0b) (at_ [] id)) = some .widthOverflow := by decide +kernel

/-- V-DET-15, V-DET-16. -/
theorem test_videoCheck : result (exec (.videoCheck 400 400) (at_ [] id)) = some (.ok .unit)
    ∧ result (exec (.videoCheck 400 399) (at_ [] id)) = some (.fail .noVideo) := by decide +kernel

/-- V-DET-24: the first of several matches. -/
theorem test_modeLookup : result (execWith hp (.modeLookup 1024 768 10) (at_ [] id))
    = some (.ok (.mode 7 (htFiller 7))) := by decide +kernel

/-- S3. -/
theorem test_modeLookup_none : result (execWith hp (.modeLookup 1920 1080 64) (at_ [] id))
    = some (.fail .noMatchingMode) := by decide +kernel

/-- The answers of a DETECT: the SOT pairs 0, the block, the rate. -/
def detectAnswers (blk : List Byte) (fr : Byte) : List Answer :=
  w 12 ++ w 2 ++ w 1 ++ r blk ++ w 1 ++ r [fr]

/-- V-DET-29: the high nibble is ignored. -/
theorem test_detect : (after (execWith hp .detect
    (at_ (detectAnswers [0x16, 0x80, 0x04, 0x38, 0xFA] 0x3C) id))).map (fun t =>
      (t.ctx.desc, t.ctx.accessCount)) = some (⟨5760, 1080, 1920, 0x0a, 0, 60⟩, 22) := by decide +kernel

/-- V-DET-30. -/
theorem test_detect_noVideo : (after (execWith hp .detect
    (at_ (detectAnswers [0x00, 0x10, 0x00, 0x10, 0x0A] 0x00) id))).map (fun t =>
      (t.ctx.desc, t.results)) = some (⟨16, 16, 5, 0x0a, 0, 0⟩, [.fail .noVideo]) := by decide +kernel

/-- V-SEQ-23. -/
theorem test_stagePrepare : (after (execWith hp .stagePrepare (at_ (w 8) id))).map (fun t =>
      (t.ctx.stage, t.ctx.accessCount, t.results, t.history.filter fun e => !e.isBus))
    = some (1, 8, [.ok (.stageEnd .next)], [.reset .assert, .wait .resetAssert 60, .reset .release,
        .wait .resetSettle 60, .log .chipIdMismatch]) := by decide +kernel

/-- V-SEQ-24. -/
theorem test_stagePrepare_err : (after (execWith hp .stagePrepare (at_ (w 5 ++ [.err]) id))).map (fun t =>
      (t.ctx.stage, t.ctx.accessCount, t.ctx.err, t.results)) = some (0, 6, 0, [.fail .transportError]) := by decide +kernel

/-- V-SEQ-26: no matching mode, the hint clears the counter. -/
theorem test_stageRxtiming_hint : (after (execWith hp .stageRxtiming
    (at_ (detectAnswers [0x16, 0x80, 0x04, 0x38, 0x0A] 0x40) fun c => { c with stage := 1, retry := 4 }))).map
      (fun t => (t.ctx.retry, t.ctx.err, t.ctx.stage, t.history.filter fun e => !e.isBus))
    = some (0, 3, 1, [.log .noMatchingMode, .sched .short 0]) := by decide +kernel

/-- The selection of entry 0 (S2, S6). -/
theorem test_stageRxtiming : (after (execWith hp .stageRxtiming
    (at_ (detectAnswers [0x16, 0x80, 0x04, 0x38, 0x0A] 0x3C) fun c => { c with stage := 1 }))).map
      (fun t => (t.ctx.sel.pclk, t.ctx.selValid, t.ctx.stage, t.ctx.accessCount))
    = some (148500, true, 2, 22) := by decide +kernel

/-- The start state of the RxPllConfig vectors: stage 2, entry 0 selected. -/
def pllStart (answers : List Answer) : State :=
  at_ answers fun c => { c with stage := 2, selValid := true, sel := timingFrom (ht.headD default) }

/-- V-SEQ-9: PCR never stable. -/
theorem test_stageRxpll_pcr : (after (execWith hp .stageRxpll (pllStart (w 109)))).map (fun t =>
      (t.ctx.accessCount, t.ctx.err, t.ctx.stage, t.ctx.pcr, t.results))
    = some (109, 4, 1, ⟨23, 0xBE0000, 24, 22⟩, [.ok (.stageEnd .yield)]) := by decide +kernel

/-- V-SEQ-11: video check never stable, with the Fail parameter. -/
theorem test_stageRxpll_vidchk :
    (after (execWith { hp with vidchkExhaust := .fail } .stageRxpll
      (pllStart (w 10 ++ r [0x08] ++ w 100)))).map (fun t => (t.ctx.accessCount, t.ctx.err, t.ctx.stage))
    = some (111, 6, 1) := by decide +kernel

/-- V-SEQ-14: lock at the third read. -/
theorem test_stageTxvidcfg : (after (execWith hp .stageTxvidcfg
    (at_ (w 1 ++ r [0x02, 0x44, 0x14] ++ w 10 ++ w 5 ++ r [0x80]) fun c => { c with stage := 3 }))).map
      (fun t => (t.ctx.accessCount, t.ctx.txpll, t.ctx.stage, t.history.filter fun e => !e.isBus))
    = some (20, ⟨4, 2, 7, 28⟩, 4,
        [.wait (.pollGap .txlockGap) 20, .wait (.pollGap .txlockGap) 20]) := by decide +kernel

/-- V-SEQ-13. -/
theorem test_stageTxvidcfg_zero : faultOf (execWith hp .stageTxvidcfg (at_ (w 4) id)) = some .divZero := by decide +kernel

/-- V-SEQ-25. -/
theorem test_stageTxvidout : (after (execWith hp .stageTxvidout
    (at_ (w 1 ++ r [0x07, 0x80, 0x08, 0x98, 0x04, 0x38, 0x04, 0x65] ++ w 5)
      fun c => { c with stage := 4, err := 5 }))).map (fun t =>
        (t.ctx.live.hact, t.ctx.live.vtotal, t.ctx.steady, t.ctx.err, t.ctx.pending, t.ctx.accessCount))
    = some (1920, 1125, true, 0, false, 14) := by decide +kernel

/-- The readback of V-SEQ-14 with its bytes the other way round, in an LSB-first set (R77). -/
theorem test_readback_lsbFirst :
    pclkOf { hp with fieldOrder := .lsbFirst } [0x14, 0x44, 0x02] = 148500 := by decide

/-- The measurement of V-SEQ-25 with each field's bytes the other way round, in an LSB-first set (R77). -/
theorem test_measured_lsbFirst : timingOfMeas { hp with fieldOrder := .lsbFirst }
    [0x80, 0x07, 0x98, 0x08, 0x38, 0x04, 0x65, 0x04]
      = timingOfMeas hp [0x07, 0x80, 0x08, 0x98, 0x04, 0x38, 0x04, 0x65] := by decide

/-- R75, column "length", for registers the block reads and for write lists. -/
theorem test_regLength : [ChipReg.chipId, .sotCnt3, .rxBlock, .rxFr, .pclkRb, .meas, .txSwrst, .pcrCoef].map
    (Params.regLength hp) = [.bytes 3, .bytes 2, .bytes 5, .bytes 1, .bytes 3, .bytes 8, .list .seqTxSwRst,
      .list .encPcr] := by decide

/-- V-SEQ-15. -/
theorem test_poll : (after (execWith hp (.poll .txpllLock 4 .txlockGap)
    (at_ (w 1 ++ r [0x00] ++ w 1 ++ r [0x00] ++ w 1 ++ r [0x80]) id))).map (fun t =>
      (t.results, t.ctx.accessCount, (t.history.filter fun e => !e.isBus).length))
    = some ([.ok (.bool true)], 6, 2) := by decide +kernel

/-- V-SEQ-17: no read at all. -/
theorem test_poll_none : (after (execWith hp (.poll .pcrStable 0 .pcrGap) (at_ [] id))).map (fun t =>
    (t.results, t.history)) = some ([.ok (.bool false)], []) := by decide +kernel

/-- V-SEQ-19: the second SCHEDULE emits nothing. -/
theorem test_schedule : (after (execWith hp (.schedule .retry) (at_ [] id))).map (fun t =>
      (t.ctx.pending, t.history)) = some (true, [.sched .retry 0])
    ∧ others (execWith hp (.schedule .short) (at_ [] fun c => { c with pending := true })) = some [] := by decide +kernel

/-- V-SEQ-3, V-SEQ-4. -/
theorem test_retryUpdate_limit :
    field (fun c => (c.retry, c.stage)) (execWith hp (.retryUpdate false .noVideo)
      (at_ [] fun c => { c with retry := 29, stage := 1 })) = some (30, 1)
    ∧ field (fun c => (c.retry, c.stage, c.err)) (execWith hp (.retryUpdate false .noMatchingMode)
      (at_ [] fun c => { c with retry := 30, stage := 1 })) = some (0, 0, 3) := by decide +kernel

/-- V-SEQ-5, V-SEQ-8: without clearing, and the wrap of the counter. -/
theorem test_retryUpdate_keep :
    field (fun c => (c.retry, c.stage)) (execWith { hp with retryClearOnFallback := false }
      (.retryUpdate false .noVideo) (at_ [] fun c => { c with retry := 30, stage := 1 })) = some (31, 0)
    ∧ field (fun c => (c.retry, c.stage)) (execWith { hp with retryClearOnFallback := false }
      (.retryUpdate false .noVideo) (at_ [] fun c => { c with retry := 4294967295, stage := 1 }))
      = some (0, 1) := by decide +kernel

/-- V-SEQ-20. -/
theorem test_invoke_badStage :
    faultOf (execWith hp .invoke (at_ [] fun c => { c with stage := 5 })) = some .badStage := by decide +kernel

/-- V-SEQ-24 under INVOKE: the transport error is taken at its boundary. -/
theorem test_invoke_err : (after (execWith hp .invoke (at_ (w 5 ++ [.err]) id))).map (fun t =>
      (t.ctx.stage, t.ctx.err, t.ctx.pending, t.history.getLast?, t.results))
    = some (0, 1, true, some (.sched .defer 0), [.ok .unit]) := by decide +kernel

/-- The read answers of program P1, each after the writes that come before it. -/
def p1 : List Answer :=
  w 1 ++ r [0x12, 0x34, 0x56] ++ w 4 ++ detectAnswers [0x16, 0x80, 0x04, 0x38, 0x0A] 0x3C
    ++ w 10 ++ r [0x08] ++ w 1 ++ r [0x01] ++ w 2 ++ w 1 ++ r [0x02, 0x44, 0x14] ++ w 11 ++ r [0x80]
    ++ w 1 ++ r [0x07, 0x80, 0x08, 0x98, 0x04, 0x38, 0x04, 0x65] ++ w 5

/-- The TICK of program P1: all five stages in one invocation. -/
theorem test_tick_p1 : (after (execWith hp .tick (at_ p1 fun c => { c with pending := true }))).map (fun t =>
      (t.ctx.stage, t.ctx.steady, t.ctx.accessCount, t.ctx.txpll, t.script))
    = some (4, true, 75, ⟨4, 2, 7, 28⟩, []) := by decide +kernel

/-- V-LC-14, V-LC-15. -/
theorem test_tick_idle :
    field (fun c => c.accessCount) (exec .tick (at_ [] fun c => { c with detached := true, pending := true }))
      = some 0
    ∧ refusal (exec .tick State.unconstructed) = some .notConstructed := by decide +kernel

/-- V-LC-1. -/
theorem test_attach : exec (.attach 7) State.unconstructed = .next State.reset := rfl

/-- V-LC-4, V-LC-5, V-LC-6. -/
theorem test_attach_fails :
    result (exec (.attach 0) State.unconstructed) = some (.fail .missingGpio)
    ∧ result (exec (.attach 3) State.unconstructed) = some (.fail .dsiAttachDefer)
    ∧ refusal (exec (.attach 7) State.reset) = some .alreadyConstructed := by decide +kernel

/-- V-LC-9. -/
theorem test_enable : field (fun c => (c.stage, c.steady, c.pending, c.retry, c.err))
    (execWith hp .enable (at_ [] fun c => { c with stage := 4, steady := true, retry := 3, err := 5 }))
    = some (0, false, true, 3, 5) := by decide +kernel

/-- V-LC-11. -/
theorem test_disable : (after (exec .disable (at_ [] id))).map (fun t => (t.ctx, t.history))
    = some (Ctx.reset, []) := by decide +kernel

/-- V-LC-12. -/
theorem test_detach : (after (exec .detach (at_ [] fun c => { c with pending := true }))).map (fun t =>
    (t.ctx.pending, t.ctx.detached, t.history)) = some (false, true, [.dsiRelease]) := by decide +kernel

/-- A step of a program: the word at its head runs, the rest is left. -/
theorem test_step : (after (step { State.reset with program := [0x03, 0x05] })).map (fun t =>
    (t.program, t.results.length)) = some ([0x05], 2) := by decide +kernel

/-! ## Witnesses: for each statement, states and operands that meet its hypotheses together

`Config.P` is not known: what is known of it (`Config.P_usable`, `Config.P_wellFormed`) gives the reports below. -/

/-- A state whose chip answers a trace as it is recorded. -/
def scripted (T : List Event) (s : State) : State := { s with script := answersOf T }

theorem scripted_gives (T : List Event) (s : State) : gives (scripted T s) T = true :=
  gives_answersOf T [] _ (by simp [scripted])

/-- The reset state with a stage and a pending flag. -/
def staged (c : BitVec 3) (p : Bool) : State := State.reset.modCtx fun x => { x with stage := c, pending := p }

/-- A detached context. -/
def gone : State := State.reset.modCtx fun c => { c with detached := true }

/-- The hypotheses of `refusedDetached`, which every operation but ATTACH and TICK states. -/
theorem witness_refusedDetached : gone.constructed = true ∧ gone.ctx.detached = true := by decide

/-- A cut of a trace and a live state whose chip answers it so, the hypotheses of `failsAtCut`. -/
theorem witness_failsAtCut (T : List Event) (k : Nat) (h : busAt T k = true) :
    ∃ s : State, s.live = true ∧ busAt T k = true ∧ gives s (cutAt T k) = true :=
  ⟨scripted (cutAt T k) State.reset, rfl, h, scripted_gives _ _⟩

/-! ### What is known of the machine's parameters -/

theorem P_bpp : Config.P.bppEntry steadyFmt = some (1, 3)
    ∧ Config.P.bppEntry Config.P.fmtRaw10 = some (5, 4) := by
  have h := Config.P_wellFormed
  simp only [Params.wellFormed, Params.bppWellFormed, Bool.and_eq_true, beq_iff_eq] at h
  exact ⟨h.1.2.2.1.1, h.1.2.2.1.2⟩

theorem fits_of_wraps {a n : Byte} (h : bulkWraps a n = false) : runFits a n = true := by
  cases hf : runFits a n with
  | true => rfl
  | false => rw [bulkWraps_of_passes hf] at h; exact h.symm

/-- The machine's register runs do not pass 0xFF (log 8): the hypotheses of the statements on DETECT and the stages. -/
theorem P_fits : stagesFit Config.P :=
  have h := Config.P_usable
  ⟨⟨fun i => fits_of_wraps (h.sotFits i), fits_of_wraps h.rxBlockFits⟩, fits_of_wraps h.chipIdFits,
    fits_of_wraps h.pclkRbFits, fits_of_wraps h.measFits⟩

/-- Runs that do not pass 0xFF and a detached context: the refusals of DETECT, RDBULK and the stages there. -/
theorem witness_refusedDetached_fits : (stagesFit Config.P ∧ gone.constructed = true
      ∧ gone.ctx.detached = true)
    ∧ (0#8).toNat = 0 ∧ (0xFF#8).toNat + (1#8).toNat - 1 ≤ 255 :=
  ⟨⟨P_fits, by decide⟩, by decide⟩

/-- A block that reports 1920 by 1080 in the steady format. -/
theorem goodBlock : ∃ blk : List Byte, blk.length = 5 ∧ ∀ fr lp : Byte,
    widthFits Config.P (parseRxBlock Config.P blk).1 (parseRxBlock Config.P blk).2.2 = true
    ∧ (descOf Config.P blk fr lp).hact = 1920 ∧ (descOf Config.P blk fr lp).vact = 1080
    ∧ (descOf Config.P blk fr lp).fr = fr := by
  obtain ⟨blk, hl, hp⟩ := Config.P_usable.blockReports
  refine ⟨blk, hl, fun fr lp => ?_⟩
  simp [hp, descOf, widthFits, widthOf, P_bpp.1]

/-- A block of five equal bytes. -/
def flat (b : Byte) : List Byte := [b, b, b, b, b]

theorem flat_getD (b : Byte) {k : Nat} (h : k < 5) : (flat b).getD k 0 = b := by
  interval_cases k <;> rfl

theorem flat_parse (P : Params) (b : Byte) :
    parseRxBlock P (flat b) = (u16Of .msbFirst b b, u16Of .msbFirst b b, b.extractLsb' 0 4) := by
  have h1 := P.rxBlockLayout.oWc.isLt
  have h2 := P.rxBlockLayout.oVact.isLt
  simp only [parseRxBlock]
  rw [flat_getD b (by omega), flat_getD b (by omega), flat_getD b (by omega), flat_getD b (by omega),
    flat_getD b P.rxBlockLayout.oFmt.isLt]
  cases P.fieldOrder with
  | msbFirst => rfl
  | lsbFirst =>
    have h : u16Of .lsbFirst b b = u16Of .msbFirst b b :=
      BitVec.eq_of_toNat_eq (by rw [u16Of_toNat, u16Of_toNat]; exact Nat.add_comm _ _)
    rw [h]

/-- A block of zeros: no video. -/
theorem zeroBlock (P : Params) (fr lp : Byte) :
    widthFits P (parseRxBlock P (flat 0)).1 (parseRxBlock P (flat 0)).2.2 = true
    ∧ (descOf P (flat 0) fr lp).hact.toNat < 400 := by
  have h0 : (u16Of .msbFirst 0#8 0#8).toNat = 0 := by decide
  simp [flat_parse, descOf, widthFits, widthOf, h0]

/-- A block whose width does not fit. -/
theorem wideBlock : ∃ blk : List Byte, blk.length = 5
    ∧ widthFits Config.P (parseRxBlock Config.P blk).1 (parseRxBlock Config.P blk).2.2 = false := by
  refine ⟨flat (0xF#4 ++ Config.P.fmtRaw10), rfl, ?_⟩
  have hf : (0xF#4 ++ Config.P.fmtRaw10).extractLsb' 0 4 = Config.P.fmtRaw10 := by
    generalize Config.P.fmtRaw10 = f; revert f; decide
  have hw : 61440 ≤ (u16Of .msbFirst (0xF#4 ++ Config.P.fmtRaw10) (0xF#4 ++ Config.P.fmtRaw10)).toNat := by
    generalize Config.P.fmtRaw10 = f; revert f; decide
  rw [flat_parse, hf]
  simp [widthFits, widthOf, P_bpp.2]
  omega

/-- The entry the table has for 1920 by 1080 at 60 Hz. -/
theorem goodEntry : ∃ e : TimingEntry, pclkFits e = true
    ∧ Config.P.timingTable.find? (entryMatches 1920 1080 60) = some e := by
  obtain ⟨e, hp, hf⟩ := Config.P_usable.tableHas
  refine ⟨e, by simpa [pclkFits] using hp, ?_⟩
  rw [← hf]; congr 1; funext t
  rw [← modeMatches_eq]; rfl

/-- A read of a status bit that finds it at a level. -/
def statusByte (sb : StatusBit) (set : Bool) : Byte := if sb.level == set then 0xFF else 0x00

theorem statusByte_eq (sb : StatusBit) (set : Bool) :
    ((statusByte sb set).getLsbD sb.bit.val == sb.level) = set := by
  obtain ⟨⟨b, a⟩, ⟨i, hi⟩, l⟩ := sb
  have h1 : (0xFF#8).getLsbD i = true := by interval_cases i <;> rfl
  have h0 : (0x00#8).getLsbD i = false := by interval_cases i <;> rfl
  cases l <;> cases set <;> simp [statusByte, h1, h0]

theorem good_pollSets (P : Params) (i : StatusId) {n : Nat} (h : 0 < n) :
    pollSets P i n [] (statusByte (P.statusBits i) true) = true := by
  simp only [pollSets, statusByte_eq]
  simp [allUnset, h]

theorem good_allUnset (sb : StatusBit) (n : Nat) :
    allUnset sb (List.replicate n (statusByte sb false)) = true := by
  have h := statusByte_eq sb false
  simp only [allUnset, List.all_replicate]
  split
  · rfl
  · simpa [bne] using h

/-- Reports of the machine's chip that let one invocation bring the output up. -/
theorem goodBringUp : ∃ b : BringUp, b.Succeeds Config.P := by
  obtain ⟨blk, hl, hb⟩ := goodBlock
  obtain ⟨e, he, hf⟩ := goodEntry
  obtain ⟨rb, hrl, hrb⟩ := Config.P_usable.readbackReports
  refine ⟨{ id := List.replicate Config.P.chipId.span.len.toNat 0, sot := fun _ => (0, 0), blk := blk,
            fr := 60, lp := 0, entry := e, pcrByte := statusByte (Config.P.statusBits .pcrStable) true,
            vidByte := statusByte (Config.P.statusBits .vidchkStable) true,
            lockByte := statusByte (Config.P.statusBits .txpllLock) true, readback := rb,
            measured := List.replicate Config.P.meas.span.len.toNat 0 }, ?_⟩
  obtain ⟨h1, h2, h3, h4⟩ := hb 60 0
  refine ⟨P_fits, by simp, hl, h1, ?_, ?_, ?_, he, ?_, good_pollSets _ _ (by decide), good_pollSets _ _ (by decide),
    good_pollSets _ _ (by decide), hrl, by simp, ?_, ?_⟩
  · rw [h2]; decide
  · rw [h3]; decide
  · rw [h2, h3, h4]; exact hf
  · refine pcrFits_of_lt _ ?_
    simp only [pclkFits, decide_eq_true_eq] at he
    simp only
    omega
  · simp [BringUp.clock, hrb]
  · simp [BringUp.clock, hrb]

/-! ### Operation words -/

theorem witness_DecodeInvertsEncode : (Instr.wrseq 0x82 (List.replicate 255 (1, 0))).wellFormed = true
    ∧ decode [0x12, 0x82, 0x00, 0x05] = .ok (.wrseq 0x82 []) [0x05] := by decide +kernel

theorem witness_IllegalAndShortWordsAreRefused :
    isOpcode 0x49 = false ∧ ((0x12#8, Format.ts) ∈ opcodeFormats
      ∧ [0x82#8, 0x01#8, 0x00#8].length + 1 < Format.ts.length (countByte [0x82, 0x01, 0x00])) := by
  decide +kernel

/-- The boundary values of each reserved range. -/
theorem witness_ReservedOperandsAreRefused :
    [[0x01, 0x08], [0x30, 0x10], [0x31, 0x00, 0x00, 0x10], [0x45, 0x03, 0x00, 0x00],
      [0x45, 0x00, 0x00, 0x03], [0x46, 0x04], [0x47, 0x02, 0x00], [0x47, 0x00, 0x0A]].all reservedHead
      = true ∧ decode [0x01, 0x08] = .bad .reserved
    ∧ reservedHead { State.reset with program := [0x01, 0x08] }.program = true := by decide +kernel

theorem witness_StepRunsTheDecodedOperation :
    decode { State.reset with program := [0x03, 0x05] }.program = .ok .disable [0x05]
    ∧ (([0x06] : List Byte) ≠ [] ∧ decode [0x06] = .bad .illegal) ∧ State.reset.program = [] := by
  decide +kernel

theorem hp_legal : ParamsLegal hp := by
  refine ⟨by decide, by decide, by decide, by decide, rfl, by decide, ?_, by decide, by decide, by decide,
    by decide, rfl⟩
  intro m d h
  simp [hp, hpBpp] at h
  omega

theorem witness_ParametersAreCheckedBeforeTheRun : ¬ ParamsLegal { hp with timingTable := [] }
    ∧ ParamsLegal hp ∧ decode { State.reset with program := [0x03] }.program = .ok .disable [] :=
  ⟨fun h => absurd h.2.2.2.2.2.2.2.2.2.2.2 (by decide), hp_legal, by decide⟩

/-! ### Reset and the host commands -/

theorem witness_AttachBuildsTheResetRecord : State.unconstructed.live = false ∧ gone.live = false := by
  decide

theorem witness_AttachFollowsItsChecks : State.reset.live = true ∧ gone.live = false
    ∧ (0#3).getLsbD 0 = false ∧ ((1#3).getLsbD 0 = true ∧ (1#3).getLsbD 1 = false)
    ∧ ((3#3).getLsbD 0 = true ∧ (3#3).getLsbD 1 = true ∧ (3#3).getLsbD 2 = false)
    ∧ ((7#3).getLsbD 0 = true ∧ (7#3).getLsbD 1 = true ∧ (7#3).getLsbD 2 = true) := by decide

/-- ENABLE, DISABLE and DETACH: a live context, and none yet. -/
theorem witness_HostCommands : State.reset.live = true ∧ State.unconstructed.constructed = false := by
  decide

theorem witness_TickRunsThePendingInvocation : State.unconstructed.constructed = false
    ∧ (gone.constructed = true ∧ gone.ctx.detached = true)
    ∧ (State.reset.live = true ∧ State.reset.ctx.pending = false)
    ∧ ((staged 0 true).live = true ∧ (staged 0 true).ctx.pending = true) := by decide

theorem witness_DestroyedContextIsRefused :
    (Instr.invoke ≠ .tick ∧ ∀ c : BitVec 3, Instr.invoke ≠ .attach c)
    ∧ (State.unconstructed.constructed = false ∧ isPure .invoke = false) := by decide

theorem witness_DetachedContextIsFrozen :
    (∃ t : State, exec .detach State.reset = .next t)
    ∧ (∃ t : State, gone.constructed = true ∧ gone.ctx.detached = true ∧ exec .tick gone = .next t)
    ∧ ∃ t : State, exec (.attach 7) gone = .next t := ⟨⟨_, rfl⟩, ⟨_, rfl, rfl, rfl⟩, ⟨_, rfl⟩⟩

/-! ### Register transport -/

theorem witness_BankselSelectsTheBank (b : Byte) :
    (∃ s : State, s.live = true ∧ gives s [bankEv Config.P b] = true)
    ∧ busAt [bankEv Config.P b] 0 = true := ⟨⟨_, rfl, scripted_gives _ State.reset⟩, rfl⟩

theorem witness_WrWritesOneRegister (b a v : Byte) :
    (∃ s : State, s.live = true ∧ gives s (wrEv Config.P b a v) = true)
    ∧ busAt (wrEv Config.P b a v) 1 = true := ⟨⟨_, rfl, scripted_gives _ State.reset⟩, rfl⟩

theorem witness_WrseqWritesInOrder (b : Byte) (ps : List (Byte × Byte)) :
    (∃ s : State, s.live = true ∧ gives s (wrSeqEv Config.P b ps) = true)
    ∧ busAt (wrSeqEv Config.P b ps) 0 = true := ⟨⟨_, rfl, scripted_gives _ State.reset⟩, rfl⟩

theorem witness_RdReadsOneRegister (b a v : Byte) :
    (∃ s : State, s.live = true ∧ gives s (rdEv Config.P ⟨b, a⟩ v) = true)
    ∧ busAt (rdEv Config.P ⟨b, a⟩ v) 1 = true := ⟨⟨_, rfl, scripted_gives _ State.reset⟩, rfl⟩

/-- Address 0xFF: one register fits, two wrap; no register at all. -/
theorem witness_RdbulkReadsConsecutive :
    (1 ≤ (2#8).toNat ∧ 255 < (0xFF#8).toNat + (2#8).toNat - 1)
    ∧ (∃ s : State, s.live = true ∧ [(0x42 : Byte)].length = (1#8).toNat
      ∧ (0xFF#8).toNat + (1#8).toNat - 1 ≤ 255 ∧ gives s (bulkEv Config.P 0x85 0xFF [0x42]) = true)
    ∧ ([] : List Byte).length = (0#8).toNat ∧ busAt (bulkEv Config.P 0x85 0xFF [0x42]) 1 = true :=
  ⟨by decide, ⟨_, rfl, rfl, by decide, scripted_gives _ State.reset⟩, rfl, rfl⟩

theorem witness_TransportStopsAtTheFirstErr :
    isTransport (.rdbulk 0x85 0xFF 1) = true ∧ State.reset.live = true
    ∧ (∃ t : State, exec (.banksel 0x85) State.reset = .next t)
    ∧ ∀ b a n : Byte, Instr.rdbulk 0x85 0xFF 1 = .rdbulk b a n → n.toNat = 0 ∨ a.toNat + n.toNat - 1 ≤ 255 := by
  refine ⟨rfl, rfl, ⟨_, rfl⟩, fun b a n h => ?_⟩
  cases h; decide

/-- A step that issues a transaction. -/
def stepping : State := { State.reset with program := [0x10, 0x85] }

theorem witness_stepping : ∃ t : State, step stepping = .next t ∧ step stepping ≠ .next stepping :=
  ⟨_, rfl, fun h => by
    have h' := congrArg (fun o => (after o).map State.program) h
    simp [after, stepping] at h'
    exact absurd h' (by decide)⟩

theorem witness_ContextAgreesWithItsHistory : countAgrees stepping ∧ attachedAgrees stepping := ⟨fun _ => rfl, rfl⟩

theorem witness_EveryAccessHasItsBank : located Config.P stepping := rfl

theorem witness_EveryOperationAppendsItsRecord : ∃ t : State, exec (.banksel 0x85) State.reset = .next t :=
  ⟨_, rfl⟩

/-! ### Clock and PLL calculator -/

/-- A state in which every operation that only computes runs. -/
theorem witness_computes : computes State.reset = true ∧ computes State.unconstructed = true := by decide

/-- Both sides of each threshold. -/
theorem witness_PcrBandSelectsTheDivider : 176000 ≤ (176000#32).toNat
    ∧ (88000 ≤ (88000#32).toNat ∧ (175999#32).toNat < 176000)
    ∧ (44000 ≤ (44000#32).toNat ∧ (87999#32).toNat < 88000)
    ∧ (22000 ≤ (22000#32).toNat ∧ (43999#32).toNat < 44000) ∧ (21999#32).toNat < 22000 := by decide

theorem witness_ComputePcrComputesTheSetting :
    pcrFits Config.P (2147483647#32).toNat = true ∧ pcrFits Config.P (2147483648#32).toNat = false := by
  decide

theorem witness_PcrSettingsStayInRange : (2147483647#32).toNat < 2147483648
    ∧ (22000 ≤ (22000#32).toNat ∧ (351999#32).toNat < 352000) ∧ 352000 ≤ (352000#32).toNat
    ∧ (21999#32).toNat < 22000 := by decide

theorem witness_TxPhyclkIsSevenHalves :
    (613566756#32).toNat < 613566757 ∧ 613566757 ≤ (613566757#32).toNat := by decide

theorem witness_TxPixmuxBucketsTheRatio : (149999#32).toNat < 150000
    ∧ (150000 ≤ (150000#32).toNat ∧ (150000#32).toNat * 7 < 4294967296
      ∧ (150000#32).toNat * 7 / 2 * (255#8).toNat * 2 < 4294967296)
    ∧ 4294967296 ≤ (613566757#32).toNat * 7
    ∧ 4294967296 ≤ (613566756#32).toNat * 7 / 2 * (2#8).toNat * 2 := by decide

theorem witness_TxDivregDividesAndTruncates : 4294967296 ≤ (613566757#32).toNat * 7
    ∧ ((3#32).toNat * 7 < 4294967296 ∧ (3#32).toNat < (4#8).toNat)
    ∧ ((613566756#32).toNat * 7 < 4294967296 ∧ 1 ≤ (1#8).toNat ∧ (1#8).toNat ≤ (613566756#32).toNat
      ∧ 4294967296 ≤ (613566756#32).toNat * 7 / 2 * (3#8).toNat)
    ∧ ((4#8).toNat ≤ (4#32).toNat ∧ (4#32).toNat * 7 / 2 * (255#8).toNat < 4294967296) := by decide

theorem witness_ComputeTxPllComputesTheSetting : (0#32).toNat = 0
    ∧ (1 ≤ (1#32).toNat ∧ txPllFits Config.P (1#32).toNat = true)
    ∧ (1 ≤ (613566757#32).toNat ∧ txPllFits Config.P (613566757#32).toNat = false) :=
  ⟨rfl, ⟨by decide, txPllFits_of_lt _ (by decide)⟩, by decide, by simp [txPllFits]⟩

theorem witness_PclkOfTimingMultiplies :
    (65535#16).toNat * (65535#16).toNat * (1#8).toNat < 4294967296
    ∧ 4294967296 ≤ (65535#16).toNat * (65535#16).toNat * (2#8).toNat := by decide

theorem witness_PureOperationsOnlyCompute : isPure (.txDivreg 0 1 1) = true
    ∧ exec (.txDivreg 0 1 1) State.reset = .fault .divZero
    ∧ exec (.txPhyclk 613566757) State.reset = .refused .overflow
    ∧ ∃ t : State, exec (.txPhyclk 613566756) State.reset = .next t := by
  refine ⟨rfl, by rfl, by rfl, ⟨_, rfl⟩⟩

/-! ### Detector -/

theorem witness_ActiveWidthScalesTheWordCount : widthFits Config.P 5760 0x0a = true
    ∧ widthFits Config.P 65535 Config.P.fmtRaw10 = false := by
  have h := P_bpp
  simp only [steadyFmt] at h
  simp [widthFits, widthOf, h]

theorem witness_VideoCheckNeedsFourHundred :
    400 ≤ (400#16).toNat ∧ 400 ≤ (65535#16).toNat ∧ (399#16).toNat < 400 := by decide

theorem witness_RxBlockParsesByLayout :
    hp.fieldOrder = .msbFirst ∧ { hp with fieldOrder := .lsbFirst }.fieldOrder = .lsbFirst := by decide

/-- The place weights of `assembled`: D6 and the fixture HP, first byte the more significant. -/
theorem test_assembled : assembled .msbFirst [0x02, 0x44, 0x14] = 148500
    ∧ assembled .lsbFirst [0x14, 0x44, 0x02] = 148500 ∧ assembled .msbFirst [] = 0 := by decide

/-- The answers of a DETECT that reads a block at 60 Hz. -/
def detectT (P : Params) (blk : List Byte) : List Event := detectEv P (fun _ => (0, 0)) blk 60 0

theorem witness_DetectAcquiresTheTiming_ok : ∃ (s : State) (blk : List Byte), s.live = true
    ∧ blk.length = 5 ∧ gives s (detectT Config.P blk) = true
    ∧ widthFits Config.P (parseRxBlock Config.P blk).1 (parseRxBlock Config.P blk).2.2 = true
    ∧ 400 ≤ (descOf Config.P blk 60 0).hact.toNat ∧ 400 ≤ (descOf Config.P blk 60 0).vact.toNat := by
  obtain ⟨blk, hl, hb⟩ := goodBlock
  obtain ⟨h1, h2, h3, -⟩ := hb 60 0
  exact ⟨_, blk, rfl, hl, scripted_gives _ State.reset, h1, by rw [h2]; decide, by rw [h3]; decide⟩

theorem witness_DetectAcquiresTheTiming_noVideo : ∃ s : State, s.live = true
    ∧ gives s (detectT Config.P (flat 0)) = true
    ∧ widthFits Config.P (parseRxBlock Config.P (flat 0)).1 (parseRxBlock Config.P (flat 0)).2.2 = true
    ∧ (descOf Config.P (flat 0) 60 0).hact.toNat < 400 :=
  ⟨_, rfl, scripted_gives _ State.reset, (zeroBlock _ 60 0).1, (zeroBlock _ 60 0).2⟩

theorem witness_DetectAcquiresTheTiming_refused : ∃ (s : State) (blk : List Byte), s.live = true
    ∧ blk.length = 5 ∧ gives s (detectT Config.P blk) = true
    ∧ widthFits Config.P (parseRxBlock Config.P blk).1 (parseRxBlock Config.P blk).2.2 = false := by
  obtain ⟨blk, hl, hb⟩ := wideBlock
  exact ⟨_, blk, rfl, hl, scripted_gives _ State.reset, hb⟩

/-- The first, the 20th and the last transaction of a DETECT without a lane-packing register, for `failsAtCut`. -/
theorem witness_DetectAcquiresTheTiming_cut (P : Params) :
    busAt (detectT P (flat 0)) 0 = true ∧ busAt (detectT P (flat 0)) 19 = true
    ∧ busAt (detectT P (flat 0)) 20 = true ∧ busAt (detectT P (flat 0)) 21 = true := ⟨rfl, rfl, rfl, rfl⟩

/-- The fixture with a SOT pair, and with an RX block, that passes 0xFF. -/
def sotP (k : Fin 4) : Params := { hp with sotRegs := fun i => if i = k then ⟨0x85, 0xFF⟩ else ⟨0x85, 0xFE⟩ }

def blockP : Params := { hp with regMap := fun _ => ⟨0x85, 0xFC⟩ }

/-- Each pair at the last address that does not fit, the pairs before it at the last that does; the block likewise. -/
theorem witness_DetectAcquiresTheTiming_wraps :
    (∀ k : Fin 4, ∃ s : State, s.live = true ∧ reachesWrap (sotP k) (fun _ => (0, 0)) s)
    ∧ ∃ s : State, s.live = true ∧ reachesWrap blockP (fun _ => (0, 0)) s :=
  ⟨fun k => ⟨_, rfl, .inl ⟨k, by revert k; decide, by revert k; decide, scripted_gives _ State.reset⟩⟩,
    ⟨_, rfl, .inr ⟨by decide, by decide, scripted_gives _ State.reset⟩⟩⟩

/-- The fixture with its identity, readback and measurement runs at 0xFF, of two registers. -/
def spanP : Params :=
  { hp with chipId := { hp.chipId with span := ⟨0x81, 0xFF, 2⟩ }, pclkRb := { hp.pclkRb with span := ⟨0x86, 0xFF, 2⟩ },
            meas := { hp.meas with span := ⟨0x86, 0xFF, 2⟩ } }

/-- The runs of the stages past 0xFF, and those of the machine within it. -/
theorem witness_stages_wrap : spanFits spanP.chipId.span = false ∧ spanFits spanP.pclkRb.span = false
    ∧ spanFits spanP.meas.span = false ∧ stagesFit Config.P ∧ runFits 0xFF 1 = true :=
  ⟨by decide, by decide, by decide, P_fits, by decide⟩

theorem witness_ModeLookupFindsTheFirstMatch : (∃ (k : Nat) (e : TimingEntry),
      Config.P.timingTable[k]? = some e ∧ entryMatches 1920 1080 60 e = true
      ∧ ∀ (j : Nat) (e' : TimingEntry), j < k → Config.P.timingTable[j]? = some e' →
        entryMatches 1920 1080 60 e' = false)
    ∧ ∀ e ∈ hp.timingTable, entryMatches 1920 1080 75 e = false := by
  refine ⟨?_, by decide +kernel⟩
  obtain ⟨e, -, he⟩ := goodEntry
  rw [List.find?_eq_some_iff_getElem] at he
  obtain ⟨hm, i, hi, hx, hj⟩ := he
  refine ⟨i, e, by rw [List.getElem?_eq_getElem hi, hx], hm, fun j e' hji hj' => ?_⟩
  have h := hj j hji
  rw [List.getElem?_eq_getElem (by omega)] at hj'
  simpa [← Option.some.inj hj'] using h

/-! ### Stages -/

/-- A chip identity of zeros. -/
def zeroId (P : Params) : List Byte := List.replicate P.chipId.span.len.toNat 0

theorem witness_PrepareAlwaysAdvances : (∃ s : State, s.live = true
      ∧ (zeroId Config.P).length = Config.P.chipId.span.len.toNat
      ∧ gives s (prepareEv Config.P (zeroId Config.P)) = true)
    ∧ busAt (prepareEv Config.P (zeroId Config.P)) 4 = true :=
  ⟨⟨_, rfl, by simp [zeroId], scripted_gives _ State.reset⟩, rfl⟩

theorem witness_RxTimingSelectsOrRetries_selects : ∃ (s : State) (blk : List Byte) (e : TimingEntry),
    s.live = true ∧ blk.length = 5 ∧ gives s (detectT Config.P blk) = true
    ∧ widthFits Config.P (parseRxBlock Config.P blk).1 (parseRxBlock Config.P blk).2.2 = true
    ∧ 400 ≤ (descOf Config.P blk 60 0).hact.toNat ∧ 400 ≤ (descOf Config.P blk 60 0).vact.toNat
    ∧ Config.P.timingTable.find? (entryMatches (descOf Config.P blk 60 0).hact
      (descOf Config.P blk 60 0).vact (descOf Config.P blk 60 0).fr) = some e ∧ pclkFits e = true := by
  obtain ⟨blk, hl, hb⟩ := goodBlock
  obtain ⟨e, he, hf⟩ := goodEntry
  obtain ⟨h1, h2, h3, h4⟩ := hb 60 0
  exact ⟨_, blk, e, rfl, hl, scripted_gives _ State.reset, h1, by rw [h2]; decide, by rw [h3]; decide,
    by rw [h2, h3, h4]; exact hf, he⟩

/-- 640 by 480 at 60 Hz, a size the fixture's table does not have. -/
def smallBlock : List Byte := [0x07, 0x80, 0x01, 0xE0, 0x0A]

theorem witness_RxTimingSelectsOrRetries_noMode : (∃ s : State, s.live = true
      ∧ gives s (detectT hp smallBlock) = true) ∧ detectFits hp
    ∧ widthFits hp (parseRxBlock hp smallBlock).1 (parseRxBlock hp smallBlock).2.2 = true
    ∧ 400 ≤ (descOf hp smallBlock 60 0).hact.toNat ∧ 400 ≤ (descOf hp smallBlock 60 0).vact.toNat
    ∧ hp.timingTable.find? (entryMatches (descOf hp smallBlock 60 0).hact
      (descOf hp smallBlock 60 0).vact (descOf hp smallBlock 60 0).fr) = none :=
  ⟨⟨_, rfl, scripted_gives _ State.reset⟩, by unfold detectFits; decide, by decide, by decide, by decide,
    by decide +kernel⟩

/-- A table entry whose pixel clock is not admitted. -/
def hugeEntry : TimingEntry :=
  { hfp := 0, hs := 0, hbp := 0, hact := 640, htotal := 65535, vfp := 0, vs := 0, vbp := 0, vact := 480,
    vtotal := 65535, fr := 60 }

/-- The fixture with that entry in its table. -/
def hugeP : Params := { hp with timingTable := ht ++ [hugeEntry] }

theorem witness_RxTimingSelectsOrRetries_overflow : (∃ s : State, s.live = true
      ∧ gives s (detectT hugeP smallBlock) = true) ∧ detectFits hugeP
    ∧ widthFits hugeP (parseRxBlock hugeP smallBlock).1 (parseRxBlock hugeP smallBlock).2.2 = true
    ∧ 400 ≤ (descOf hugeP smallBlock 60 0).hact.toNat ∧ 400 ≤ (descOf hugeP smallBlock 60 0).vact.toNat
    ∧ hugeP.timingTable.find? (entryMatches (descOf hugeP smallBlock 60 0).hact
      (descOf hugeP smallBlock 60 0).vact (descOf hugeP smallBlock 60 0).fr) = some hugeEntry
    ∧ pclkFits hugeEntry = false :=
  ⟨⟨_, rfl, scripted_gives _ State.reset⟩, by unfold detectFits; decide, by decide, by decide, by decide,
    by decide +kernel, by decide⟩

/-- V-DET-32. -/
theorem witness_RxTimingSelectsOrRetries_width : (∃ s : State, s.live = true
      ∧ gives s (detectT hp [0xCC, 0xCD, 0x04, 0x38, 0x0B]) = true)
    ∧ widthFits hp (parseRxBlock hp [0xCC, 0xCD, 0x04, 0x38, 0x0B]).1
      (parseRxBlock hp [0xCC, 0xCD, 0x04, 0x38, 0x0B]).2.2 = false :=
  ⟨⟨_, rfl, scripted_gives _ State.reset⟩, by decide⟩

/-- The counter below its limit, at it, and the hint. -/
theorem witness_RetryUpdateCountsAndFallsBack : State.reset.live = true
    ∧ (∃ s t : State, execWith hp (.retryUpdate true .noVideo) s = .next t)
    ∧ (∃ s t : State, execWith hp (.retryUpdate false .noVideo) s = .next t ∧ s.ctx.retry.toNat < 30)
    ∧ ∃ s t : State, execWith hp (.retryUpdate false .noVideo) s = .next t ∧ 30 ≤ s.ctx.retry.toNat
      ∧ s.ctx.retry.toNat < 4294967295 :=
  ⟨rfl, ⟨State.reset, _, rfl⟩, ⟨State.reset.modCtx fun c => { c with retry := 29 }, _, rfl, by decide⟩,
    ⟨State.reset.modCtx fun c => { c with retry := 30 }, _, rfl, by decide, by decide⟩⟩

/-- Stage 2 with a selected clock. -/
def selecting (p : U32) : State :=
  State.reset.modCtx fun c => { c with stage := 2, selValid := true, sel := { c.sel with pclk := p } }

theorem witness_RxPllLocksOrGoesBack_stops :
    ((staged 2 false).live = true ∧ (staged 2 false).ctx.selValid = false)
    ∧ ((selecting 2147483648).live = true ∧ (selecting 2147483648).ctx.selValid = true
      ∧ pcrFits Config.P (selecting 2147483648).ctx.sel.pclk.toNat = false) := by decide

/-- A detached context with an admitted selected clock. -/
theorem witness_RxPllLocksOrGoesBack_detached :
    let s := (selecting 148500).modCtx fun c => { c with detached := true }
    s.constructed = true ∧ s.ctx.detached = true ∧ s.ctx.selValid = true
      ∧ pcrFits Config.P s.ctx.sel.pclk.toNat = true :=
  ⟨rfl, rfl, rfl, pcrFits_of_lt _ (show (148500#32).toNat < 134217728 by decide)⟩

/-- Both polls set at their first read. -/
theorem witness_RxPllLocksOrGoesBack_locks : ∃ (s : State) (v u : Byte), s.live = true
    ∧ s.ctx.selValid = true ∧ pcrFits Config.P s.ctx.sel.pclk.toNat = true
    ∧ pollSets Config.P .pcrStable 50 [] v = true ∧ pollSets Config.P .vidchkStable 50 [] u = true
    ∧ gives s (rxPllEv Config.P s [] v [] u) = true :=
  ⟨scripted (rxPllEv Config.P (selecting 148500) [] (statusByte (Config.P.statusBits .pcrStable) true) []
      (statusByte (Config.P.statusBits .vidchkStable) true)) (selecting 148500), _, _, rfl, rfl,
    pcrFits_of_lt _ (show (148500#32).toNat < 134217728 by decide), good_pollSets _ _ (by decide), good_pollSets _ _ (by decide),
    scripted_gives _ (selecting 148500)⟩

/-- A transaction of the polls, after write lists of any length. -/
theorem witness_RxPllLocksOrGoesBack_cut (s : State) (v u : Byte) :
    busAt (rxPllEv Config.P s [] v [] u) (pllWritesEv Config.P s).length = true := by
  rw [rxPllEv, List.append_assoc, List.append_assoc, busAt_ge (Nat.le_refl _), Nat.sub_self]
  rfl

/-- PCR never stable. -/
theorem witness_RxPllLocksOrGoesBack_unstable : ∃ (s : State) (vs : List Byte), s.live = true
    ∧ s.ctx.selValid = true ∧ pcrFits Config.P s.ctx.sel.pclk.toNat = true ∧ vs.length = 50
    ∧ allUnset (Config.P.statusBits .pcrStable) vs = true
    ∧ gives s (pllWritesEv Config.P s ++ unsetEv Config.P (Config.P.statusBits .pcrStable) .pcrGap vs)
      = true :=
  ⟨scripted (pllWritesEv Config.P (selecting 148500) ++ unsetEv Config.P (Config.P.statusBits .pcrStable)
      .pcrGap (List.replicate 50 (statusByte (Config.P.statusBits .pcrStable) false))) (selecting 148500),
    _, rfl, rfl, pcrFits_of_lt _ (show (148500#32).toNat < 134217728 by decide), by simp, good_allUnset _ 50, scripted_gives _ (selecting 148500)⟩

/-- Video check never stable, with either parameter. -/
theorem witness_RxPllLocksOrGoesBack_timeout (P : Params) : ∃ (s : State) (us : List Byte) (v : Byte),
    s.live = true ∧ s.ctx.selValid = true ∧ pcrFits P s.ctx.sel.pclk.toNat = true
    ∧ pollSets P .pcrStable 50 [] v = true ∧ us.length = 50
    ∧ allUnset (P.statusBits .vidchkStable) us = true ∧ gives s (rxPllTimeoutEv P s [] v us) = true :=
  ⟨scripted (rxPllTimeoutEv P (selecting 148500) [] (statusByte (P.statusBits .pcrStable) true)
      (List.replicate 50 (statusByte (P.statusBits .vidchkStable) false))) (selecting 148500), _, _, rfl, rfl,
    pcrFits_of_lt _ (show (148500#32).toNat < 134217728 by decide), good_pollSets _ _ (by decide), by simp, good_allUnset _ 50,
    scripted_gives _ (selecting 148500)⟩

theorem witness_RxPllLocksOrGoesBack_timeoutCut (P : Params) (us : List Byte) (v : Byte) :
    busAt (rxPllTimeoutEv P (selecting 148500) [] v us) (pllWritesEv P (selecting 148500)).length = true := by
  rw [rxPllTimeoutEv, List.append_assoc, List.append_assoc, List.append_assoc, busAt_ge (Nat.le_refl _),
    Nat.sub_self]
  rfl

theorem witness_RxPllLocksOrGoesBack_exhaust :
    hp.vidchkExhaust = .advance ∧ { hp with vidchkExhaust := .fail }.vidchkExhaust = .fail := by decide

theorem witness_RxPllLocksOrGoesBack_fails (P : Params) : ∃ (s : State) (us : List Byte) (v : Byte),
    s.live = true ∧ s.ctx.selValid = true ∧ pcrFits P s.ctx.sel.pclk.toNat = true
    ∧ pollSets P .pcrStable 50 [] v = true ∧ us.length = 50
    ∧ allUnset (P.statusBits .vidchkStable) us = true
    ∧ gives s (pllWritesEv P s ++ pollSetEv P .pcrStable .pcrGap [] v
        ++ unsetEv P (P.statusBits .vidchkStable) .none us) = true :=
  ⟨scripted (pllWritesEv P (selecting 148500)
      ++ pollSetEv P .pcrStable .pcrGap [] (statusByte (P.statusBits .pcrStable) true)
      ++ unsetEv P (P.statusBits .vidchkStable) .none
        (List.replicate 50 (statusByte (P.statusBits .vidchkStable) false))) (selecting 148500), _, _, rfl, rfl,
    pcrFits_of_lt _ (show (148500#32).toNat < 134217728 by decide), good_pollSets _ _ (by decide), by simp, good_allUnset _ 50,
    scripted_gives _ (selecting 148500)⟩

/-- A readback of 148500 kHz, the lock bit set at its first read, and never set. -/
theorem witness_TxVideoConfigLocksOrRetries : ∃ bytes : List Byte,
    bytes.length = Config.P.pclkRb.span.len.toNat ∧ 1 ≤ (pclkOf Config.P bytes).toNat
    ∧ txPllFits Config.P (pclkOf Config.P bytes).toNat = true
    ∧ (∃ (s : State) (v : Byte), s.live = true ∧ pollSets Config.P .txpllLock 4 [] v = true
      ∧ gives s (txCfgWritesEv Config.P bytes (txPllOf Config.P (pclkOf Config.P bytes).toNat)
        ++ pollSetEv Config.P .txpllLock .txlockGap [] v) = true)
    ∧ (∃ (s : State) (vs : List Byte), s.live = true ∧ vs.length = 4
      ∧ allUnset (Config.P.statusBits .txpllLock) vs = true
      ∧ gives s (txCfgWritesEv Config.P bytes (txPllOf Config.P (pclkOf Config.P bytes).toNat)
        ++ unsetEv Config.P (Config.P.statusBits .txpllLock) .txlockGap vs ++ [.warn .pllUnlocked]) = true)
    ∧ ∀ T : List Event, busAt (txCfgWritesEv Config.P bytes
        (txPllOf Config.P (pclkOf Config.P bytes).toNat) ++ T) 0 = true := by
  obtain ⟨bytes, hl, hb⟩ := Config.P_usable.readbackReports
  refine ⟨bytes, hl, by rw [hb]; decide, by rw [hb]; exact txPllFits_of_lt _ (by decide),
    ⟨_, _, rfl, good_pollSets _ _ (by decide), scripted_gives _ State.reset⟩,
    ⟨_, List.replicate 4 (statusByte (Config.P.statusBits .txpllLock) false), rfl, by simp,
      good_allUnset _ 4, scripted_gives _ State.reset⟩, fun T => rfl⟩

/-- The fixture with a readback that gives a clock the calculator does not admit. -/
def fastP : Params :=
  { hp with pclkRb := ⟨⟨0x86, 0x08, 3⟩, fun n => if n = 0 then 613566757 else BitVec.ofNat 32 n⟩ }

theorem witness_TxVideoConfigLocksOrRetries_stops :
    (hp.wellFormed = true ∧ spanFits hp.pclkRb.span = true ∧ (pclkOf hp [0, 0, 0]).toNat = 0)
    ∧ (fastP.wellFormed = true ∧ spanFits fastP.pclkRb.span = true ∧ 1 ≤ (pclkOf fastP [0, 0, 0]).toNat
      ∧ txPllFits fastP (pclkOf fastP [0, 0, 0]).toNat = false)
    ∧ ∀ P : Params, ∃ s : State, s.live = true
      ∧ gives s (bulkEv P P.pclkRb.span.bank P.pclkRb.span.addr [0, 0, 0]) = true :=
  ⟨⟨hp_wellFormed, by decide, by decide⟩, ⟨by decide, by decide, by decide, by decide⟩,
    fun _ => ⟨_, rfl, scripted_gives _ State.reset⟩⟩

/-- A measurement of zeros. -/
def zeroMeas : List Byte := List.replicate Config.P.meas.span.len.toNat 0

theorem witness_TxVideoOutDeclaresSteady : (∃ s : State, s.live = true
      ∧ zeroMeas.length = Config.P.meas.span.len.toNat ∧ gives s (txOutEv Config.P zeroMeas) = true)
    ∧ busAt (txOutEv Config.P zeroMeas) 0 = true :=
  ⟨⟨_, rfl, by simp [zeroMeas], scripted_gives _ State.reset⟩, rfl⟩

theorem witness_PollReadsUntilSet (i : StatusId) (g : Gap) :
    (∃ (s : State) (v : Byte), s.live = true ∧ pollSets Config.P i (1#8).toNat [] v = true
      ∧ gives s (pollSetEv Config.P i g [] v) = true ∧ busAt (pollSetEv Config.P i g [] v) 1 = true)
    ∧ (∃ (s : State) (vs : List Byte), s.live = true ∧ vs.length = (2#8).toNat
      ∧ allUnset (Config.P.statusBits i) vs = true
      ∧ gives s (unsetEv Config.P (Config.P.statusBits i) g vs) = true) :=
  ⟨⟨_, _, rfl, good_pollSets _ _ (by decide), scripted_gives _ State.reset, rfl⟩,
    ⟨_, List.replicate 2 (statusByte (Config.P.statusBits i) false), rfl, by simp, good_allUnset _ 2,
      scripted_gives _ State.reset⟩⟩

theorem witness_ScheduleIsIdempotent :
    ((staged 0 true).live = true ∧ (staged 0 true).ctx.pending = true)
    ∧ (State.reset.live = true ∧ State.reset.ctx.pending = false) := by decide

/-- INVOKE: a stage code that names no stage; a stage that faults; a stage that is refused. -/
theorem witness_InvokeRunsTheControlPoint_stops : 4 < (staged 5 false).ctx.stage.toNat
    ∧ (stageInstr (staged 2 false).ctx.stage = some .stageRxpll
      ∧ exec .stageRxpll (staged 2 false) = .fault .noTiming)
    ∧ (stageInstr (selecting 2147483648).ctx.stage = some .stageRxpll
      ∧ exec .stageRxpll (selecting 2147483648) = .refused .overflow) := by
  refine ⟨by decide, ⟨rfl, ?_⟩, rfl, ?_⟩
  · change onContext (staged 2 false) _ = _
    rw [onContext_live rfl, stageRxPll_noTiming rfl]; rfl
  · change onContext (selecting 2147483648) _ = _
    rw [onContext_live rfl, stageRxPll_refused rfl (by decide)]; rfl

/-- INVOKE: a stage that ends `next`, one that ends `yield`, and one that fails. -/
theorem witness_InvokeRunsTheControlPoint_next :
    (∃ s t : State, s.live = true ∧ stageInstr s.ctx.stage = some .stagePrepare
      ∧ exec .stagePrepare s = .next t ∧ t.results.getLast? = some (.ok (.stageEnd .next)))
    ∧ (∃ s t : State, s.live = true ∧ stageInstr s.ctx.stage = some .stageTxvidout
      ∧ exec .stageTxvidout s = .next t ∧ t.results.getLast? = some (.ok (.stageEnd .yield)))
    ∧ ∃ s t : State, s.live = true ∧ stageInstr s.ctx.stage = some .stageTxvidout
      ∧ exec .stageTxvidout s = .next t ∧ t.results.getLast? = some (.fail .transportError) := by
  refine ⟨⟨scripted (prepareEv Config.P (zeroId Config.P)) State.reset, _, rfl, rfl,
      finish_ok (leaves_stagePrepare P_fits.2.1 (by simp [zeroId])) .stageEnd (scripted_gives _ _), ?_⟩,
    ⟨scripted (txOutEv Config.P zeroMeas) (staged 4 false), _, rfl, rfl,
      finish_ok (leaves_stageTxVidOut P_fits.2.2.2 (by simp [zeroMeas])) .stageEnd (scripted_gives _ _), ?_⟩,
    ⟨scripted (cutAt (txOutEv Config.P zeroMeas) 0) (staged 4 false), _, rfl, rfl,
      finish_fail (fails_stageTxVidOut P_fits.2.2.2 (by simp [zeroMeas]) 0 rfl) .stageEnd
        (scripted_gives _ _), ?_⟩⟩ <;> simp [State.record]

/-! ### The whole machine -/

theorem witness_OneInvocationBringsTheOutputUp : ∃ (b : BringUp) (s : State), b.Succeeds Config.P
    ∧ s.live = true ∧ s.ctx.stage = 0 ∧ gives s (b.trace Config.P s) = true ∧ s.ctx.pending = true := by
  obtain ⟨b, hb⟩ := goodBringUp
  exact ⟨b, scripted (b.trace Config.P (staged 0 true)) (staged 0 true), hb, rfl, rfl,
    scripted_gives _ (staged 0 true), rfl⟩

/-- An invocation that completes. -/
theorem invoking : ∃ s t : State, s.ctx.stage = 4 ∧ exec .invoke s = .next t := by
  have h : exec .invoke (scripted (txOutEv Config.P zeroMeas) (staged 4 false))
      = finish (fun _ => .unit) (invokeLoop Config.P 5 (scripted (txOutEv Config.P zeroMeas)
        (staged 4 false))) := by
    change onContext (scripted (txOutEv Config.P zeroMeas) (staged 4 false)) _ = _
    rw [onContext_live rfl]; rfl
  rw [invokeLoop_yield ((runStage_txVidOut rfl).trans ((leaves_stageTxVidOut P_fits.2.2.2
    (by simp [zeroMeas])).at (scripted_gives _ _)))] at h
  exact ⟨_, _, rfl, h⟩

theorem witness_ControlPointFollowsTheEdges : (∃ s t : State, exec .invoke s = .next t ∧ s.ctx.stage.toNat ≤ 4)
    ∧ (∃ t : State, exec .enable (staged 4 false) = .next t ∧ (staged 4 false).ctx.stage.toNat ≤ 4)
    ∧ (∃ t : State, exec (.attach 7) gone = .next t)
    ∧ ∃ t : State, exec .detach (staged 4 false) = .next t := by
  obtain ⟨s, t, h, he⟩ := invoking
  exact ⟨⟨s, t, he, by rw [h]; decide⟩, ⟨_, rfl, by decide⟩, ⟨_, rfl⟩, ⟨_, rfl⟩⟩

/-- ENABLE from stage 1, and the retry overflow. -/
theorem witness_PrepareIsReenteredOnlyByOverflow :
    (∃ t : State, exec .enable (staged 1 false) = .next t ∧ (staged 1 false).ctx.stage ≠ 0 ∧ t.ctx.stage = 0)
    ∧ (∃ s t : State, exec (.retryUpdate false .noVideo) s = .next t ∧ s.ctx.stage ≠ 0 ∧ t.ctx.stage = 0)
    ∧ ∃ t : State, exec .tick (staged 0 false) = .next t ∧ (staged 0 false).ctx.stage = 0 ∧ t.ctx.stage = 0 := by
  refine ⟨⟨_, rfl, by decide, ?_⟩, ⟨(staged 1 false).modCtx fun c => { c with retry := 30 }, _, rfl,
    by decide, ?_⟩, _, rfl, rfl, rfl⟩
  · rfl
  · simp [retryUpdate_eq, retried, scheduled, retryFalls, retryCounted, staged]

/-- An INVOKE from Prepare whose first transaction returns `Err`. -/
theorem witness_PrepareIsReenteredOnlyByOverflow_err :
    ∃ s t : State, exec .invoke s = .next t ∧ s.ctx.stage = 0 ∧ t.ctx.stage = 0 ∧ t.ctx.err = 1 := by
  have h := invokeLoop_err (m := 4) ((runStage_prepare rfl).trans ((fails_stagePrepare P_fits.2.1
    (ids := zeroId Config.P) (by simp [zeroId]) 4 rfl).at (scripted_gives _ (staged 0 true))))
  have he : exec .invoke (scripted (cutAt (prepareEv Config.P (zeroId Config.P)) 4) (staged 0 true))
      = finish (fun _ => .unit) (invokeLoop Config.P 5
        (scripted (cutAt (prepareEv Config.P (zeroId Config.P)) 4) (staged 0 true))) := by
    change onContext (scripted (cutAt (prepareEv Config.P (zeroId Config.P)) 4) (staged 0 true)) _ = _
    rw [onContext_live rfl]; rfl
  rw [h] at he
  exact ⟨_, _, he, rfl, rfl, rfl⟩

theorem witness_InvocationsNeverLoseTheirStage :
    (codesLegal stepping ∧ timingReady stepping)
    ∧ ∃ s : State, codesLegal s ∧ timingReady s ∧ execWith hp .invoke s = .fault .divZero := by
  refine ⟨⟨by unfold codesLegal; decide, fun h => absurd h (by decide)⟩, at_ (w 4) fun c => { c with stage := 3 },
    by unfold codesLegal; decide, fun h => absurd h (by decide), by rfl⟩

/-- A selected timing, and a step. -/
theorem witness_SelectedTimingIsATableEntry : ∃ s t : State, s.ctx.selValid = true
    ∧ selectedFromTable Config.P s ∧ step s = .next t := by
  obtain ⟨e, he, hf⟩ := goodEntry
  exact ⟨stepping.modCtx fun c => { c with selValid := true, sel := timingFrom e }, _, rfl,
    fun _ => ⟨e, List.mem_of_find?_eq_some hf, he, rfl⟩, rfl⟩

theorem witness_RetryCounterStaysBounded : hp.retryClearOnFallback = true ∧ ∃ s t : State, retryBounded s
    ∧ s.ctx.retry = 30 ∧ execWith hp (.retryUpdate false .noVideo) s = .next t :=
  ⟨rfl, State.reset.modCtx fun c => { c with retry := 30 }, _, by unfold retryBounded; decide, rfl, rfl⟩

theorem witness_AbsentSourceIsRetried :
    (∃ s : State, s.live = true ∧ s.ctx.pending = true ∧ s.ctx.stage = 1
      ∧ gives s (detectT Config.P (flat 0)) = true)
    ∧ (∃ s : State, s.live = true ∧ s.ctx.pending = true ∧ s.ctx.stage = 0
      ∧ gives s (prepareEv Config.P (zeroId Config.P) ++ detectT Config.P (flat 0)) = true)
    ∧ (zeroId Config.P).length = Config.P.chipId.span.len.toNat ∧ (flat 0).length = 5
    ∧ widthFits Config.P (parseRxBlock Config.P (flat 0)).1 (parseRxBlock Config.P (flat 0)).2.2 = true
    ∧ (descOf Config.P (flat 0) 60 0).hact.toNat < 400 :=
  ⟨⟨_, rfl, rfl, rfl, scripted_gives _ (staged 1 true)⟩, ⟨_, rfl, rfl, rfl, scripted_gives _ (staged 0 true)⟩,
    by simp [zeroId], rfl, (zeroBlock _ 60 0).1, (zeroBlock _ 60 0).2⟩

theorem witness_QuiescentRunsStaySilent : quiescent State.reset ∧ Instr.tick.isHost = true
    ∧ Instr.tick ≠ .enable ∧ (∀ c : BitVec 3, Instr.tick ≠ .attach c)
    ∧ ∃ t : State, exec .tick State.reset = .next t :=
  ⟨Or.inl rfl, rfl, by decide, by decide, _, rfl⟩

theorem witness_InstancesAreIndependent : ∃ (f f1 f2 : Fleet), (0 : Nat) ≠ 1 ∧ fleetStep 0 f = .next f1
    ∧ fleetStep 1 f1 = .next f2 ∧ Fleet.wf f = true :=
  ⟨[stepping, { stepping with chip := 1 }], _, _, by decide, rfl, rfl, by decide⟩

end Sys2Proof.Tests
end

