-- ==== Sys2Proof/Proofs/Keeps.lean ====
section
/-! SUPPORT. Facts about what an operation does to the state are proved once, for any relation between states that
the primitive steps of the model keep: a transaction, an event of the block's own, a change of context fields, a draw.
Every operation but ATTACH and DETACH then ends in a state so related to the first, with one result recorded. -/

namespace Sys2Proof.Proofs

open Sys2Proof Sys2Proof.Machine Sys2Proof.Safety

/-- A change of the context that leaves the access counter (only a transaction moves it, R140) and the detached flag
(only ATTACH and DETACH move it, R253, R256). -/
def KeepsAccess (f : Ctx → Ctx) : Prop :=
  ∀ c : Ctx, (f c).accessCount = c.accessCount ∧ (f c).detached = c.detached

/-- A relation between a state and a later one that the primitive steps keep. -/
structure StepRule (R : State → State → Prop) : Prop where
  refl (s : State) : R s s
  trans {s t u : State} : R s t → R t u → R s u
  transact (s : State) {e : Event} : e.isBus = true → R s (s.transact e)
  emit (s : State) {e : Event} : e.isBus = false → e ≠ .dsiAttach → e ≠ .dsiRelease → R s (s.emit e)
  modCtx (s : State) {f : Ctx → Ctx} : KeepsAccess f → R s (s.modCtx f)
  draw (s : State) : R s { s with draws := s.draws + 1 }

/-- A transport operation relates the state it starts in to the one it leaves. -/
def BusKeeps {α : Type} (R : State → State → Prop) (x : BusOp α) : Prop := ∀ s : State, R s (x s).2

/-- An operation relates the state it starts in to the one it leaves. -/
def OpKeeps {α : Type} (R : State → State → Prop) (x : Op α) : Prop := ∀ s : State, R s (x s).2

/-- An operation run by itself ends in a related state, with one result recorded. -/
def EndsIn (R : State → State → Prop) (s t : State) : Prop :=
  ∃ (u : State) (r : Result), R s u ∧ t = u.record r

/-- A transport operation inside another relates what it relates by itself (R141). -/
theorem BusKeeps.ofBus {R : State → State → Prop} {α : Type} {x : BusOp α} (hx : BusKeeps R x) :
    OpKeeps R (Op.ofBus x) := by
  intro s
  have hs := hx s
  unfold Op.ofBus
  split <;> rename_i heq <;> rwa [heq] at hs

namespace StepRule

variable {R : State → State → Prop} (h : StepRule R) {α β : Type}
include h

/-! ## Transport operations (41_transport.md) -/

theorem busPure (v : α) : BusKeeps R (BusOp.pure v) := h.refl

theorem busBind {x : BusOp α} {f : α → BusOp β} (hx : BusKeeps R x) (hf : ∀ v, BusKeeps R (f v)) :
    BusKeeps R (x.bind f) := by
  intro s
  have hs := hx s
  unfold BusOp.bind
  split <;> rename_i heq <;> rw [heq] at hs
  · exact h.trans hs (hf _ _)
  · exact hs

theorem busAndThen {x : BusOp α} {y : BusOp β} (hx : BusKeeps R x) (hy : BusKeeps R y) :
    BusKeeps R (x.andThen y) := h.busBind hx fun _ => hy

theorem busEmit {e : Event} (hb : e.isBus = false) (ha : e ≠ .dsiAttach) (hr : e ≠ .dsiRelease) :
    BusKeeps R (BusOp.emit e) := fun s => h.emit s hb ha hr

theorem busWrite (a v : Byte) : BusKeeps R (busWrite a v) := fun s => h.transact s rfl

theorem busRead (a : Byte) : BusKeeps R (busRead a) := fun s => h.transact s rfl

theorem bankSel (P : Params) (b : Byte) : BusKeeps R (bankSel P b) := h.busWrite _ _

theorem wr (P : Params) (b a v : Byte) : BusKeeps R (wr P b a v) :=
  h.busAndThen (h.bankSel P b) (h.busWrite a v)

theorem writeAll (ps : List (Byte × Byte)) : BusKeeps R (writeAll ps) := by
  induction ps with
  | nil => exact h.busPure ()
  | cons p ps ih => exact h.busAndThen (h.busWrite p.1 p.2) ih

theorem wrSeq (P : Params) (b : Byte) (ps : List (Byte × Byte)) : BusKeeps R (wrSeq P b ps) :=
  h.busAndThen (h.bankSel P b) (h.writeAll ps)

theorem wrList (P : Params) (l : WriteList) : BusKeeps R (wrList P l) := by
  induction l with
  | nil => exact h.busPure ()
  | cons g l ih => exact h.busAndThen (h.wrSeq P g.bank g.entries) ih

theorem rd (P : Params) (b a : Byte) : BusKeeps R (rd P b a) :=
  h.busAndThen (h.bankSel P b) (h.busRead a)

theorem readAll (a : Byte) (n : Nat) : BusKeeps R (readAll a n) := by
  induction n generalizing a with
  | zero => exact h.busPure []
  | succ n ih => exact h.busBind (h.busRead a) fun v => h.busBind (ih _) fun vs => h.busPure (v :: vs)

theorem rdBulk (P : Params) (b a n : Byte) : BusKeeps R (rdBulk P b a n) :=
  h.busAndThen (h.bankSel P b) (h.readAll a n.toNat)

theorem waitGap (g : Gap) : BusKeeps R (waitGap g) := by
  cases g with
  | none => exact h.busPure ()
  | pcrGap => exact h.busEmit rfl nofun nofun
  | txlockGap => exact h.busEmit rfl nofun nofun

theorem pollLoop (P : Params) (sb : StatusBit) (g : Gap) (n : Nat) :
    BusKeeps R (pollLoop P sb g n) := by
  induction n with
  | zero => exact h.busPure false
  | succ n ih =>
    refine h.busBind (h.rd P _ _) fun v => ?_
    split
    · exact h.busPure true
    · exact h.busAndThen (h.waitGap g) ih

theorem poll (P : Params) (i : StatusId) (n : Byte) (g : Gap) : BusKeeps R (poll P i n g) :=
  h.pollLoop P _ g _

/-! ## How operations combine (R311, R313) -/

theorem pure (v : α) : OpKeeps R (Op.pure v) := h.refl

theorem lift (o : Out α) : OpKeeps R (Op.lift o) := h.refl

theorem getCtx : OpKeeps R Op.getCtx := h.refl

theorem drawU32 : OpKeeps R Op.drawU32 := h.draw

theorem bind {x : Op α} {f : α → Op β} (hx : OpKeeps R x) (hf : ∀ v, OpKeeps R (f v)) :
    OpKeeps R (x.bind f) := by
  intro s
  have hs := hx s
  unfold Op.bind
  split <;> rename_i heq <;> rw [heq] at hs
  · exact h.trans hs (hf _ _)
  all_goals exact hs

theorem andThen {x : Op α} {y : Op β} (hx : OpKeeps R x) (hy : OpKeeps R y) :
    OpKeeps R (x.andThen y) := h.bind hx fun _ => hy

theorem opModCtx {f : Ctx → Ctx} (hf : KeepsAccess f) : OpKeeps R (Op.modCtx f) :=
  fun s => h.modCtx s hf

theorem opEmit {e : Event} (hb : e.isBus = false) (ha : e ≠ .dsiAttach) (hr : e ≠ .dsiRelease) :
    OpKeeps R (Op.emit e) := fun s => h.emit s hb ha hr

theorem modDesc (f : RxVideoDescriptor → RxVideoDescriptor) : OpKeeps R (Op.modDesc f) :=
  h.opModCtx fun _ => ⟨rfl, rfl⟩

theorem opWrList (P : Params) (l : WriteList) : OpKeeps R (Op.ofBus (Machine.wrList P l)) :=
  (h.wrList P l).ofBus

theorem opPoll (P : Params) (i : StatusId) (n : Byte) (g : Gap) :
    OpKeeps R (Op.ofBus (Machine.poll P i n g)) := (h.poll P i n g).ofBus

theorem rdBulkOp (P : Params) (b a n : Byte) : OpKeeps R (rdBulkOp P b a n) := by
  unfold Machine.rdBulkOp
  split
  · exact h.lift _
  · exact (h.rdBulk P b a n).ofBus

/-! ## Taking a failure (R245, R250, R257) -/

theorem setErr (e : ErrCode) (s : State) : R s (setErr e s) := h.modCtx s fun _ => ⟨rfl, rfl⟩

theorem setStage (st : Stage) (s : State) : R s (setStage st s) := h.modCtx s fun _ => ⟨rfl, rfl⟩

theorem afterModCtx {f : Ctx → Ctx} {s t : State} (ht : R (s.modCtx f) t) (hf : KeepsAccess f) :
    R s t := h.trans (h.modCtx s hf) ht

theorem ifSetStage {s t : State} (ht : R s t) (b : Bool) (st : Stage) :
    R s (if b then Machine.setStage st t else t) := by
  cases b with
  | false => exact ht
  | true => exact h.trans ht (h.setStage st t)

theorem schedule (P : Params) (d : DelayClass) (s : State) : R s (schedule P d s) := by
  unfold Machine.schedule
  split
  · exact h.refl s
  · exact h.afterModCtx (h.emit _ rfl nofun nofun) fun _ => ⟨rfl, rfl⟩

theorem retryUpdate (P : Params) (k : Bool) (e : ErrCode) (s : State) :
    R s (retryUpdate P k e s) := by
  refine h.trans (h.ifSetStage (h.modCtx s ?_) _ .prepare) <|
    h.trans (h.setErr e _) (h.schedule P .short _)
  exact fun _ => ⟨rfl, rfl⟩

theorem deferTransportError (P : Params) (s : State) : R s (deferTransportError P s) :=
  h.trans (h.setErr .transportError s) (h.schedule P .defer _)

theorem backToRxTiming (P : Params) (e : ErrCode) : OpKeeps R (backToRxTiming P e) :=
  h.andThen (h.setErr e) <| h.andThen (h.setStage .rxTimingConfig) <|
    h.andThen (h.schedule P .retry) (h.pure _)

theorem continueTo (st : Stage) : OpKeeps R (continueTo st) := h.andThen (h.setStage st) (h.pure _)

/-! ## COMPUTE_PCR and DETECT (R162, R204) -/

theorem computePcr (P : Params) (p : U32) : OpKeeps R (computePcr P p) := by
  refine h.bind (h.lift _) fun t => h.bind ?_ fun lo => h.pure _
  unfold pcrMLo
  split
  · exact h.pure _
  · exact h.drawU32

theorem readSot (P : Params) (is : List (Fin 4)) : OpKeeps R (readSot P is) := by
  induction is with
  | nil => exact h.pure ()
  | cons i is ih => exact h.andThen (h.rdBulkOp P _ _ 2) ih

theorem readLanepack (P : Params) : OpKeeps R (readLanepack P) := by
  unfold Machine.readLanepack
  split
  · exact h.pure ()
  · exact h.bind (h.rd P _ _).ofBus fun v => h.modDesc _

theorem detect (P : Params) : OpKeeps R (detect P) :=
  h.andThen (h.modDesc _) <| h.andThen (h.readSot P _) <| h.andThen (h.wr P _ _ _).ofBus <|
  h.bind (h.rdBulkOp P _ _ 5) fun _ => h.andThen (h.modDesc _) <|
  h.bind (h.rd P _ _).ofBus fun _ => h.andThen (h.modDesc _) <|
  h.andThen (h.readLanepack P) <| h.bind (h.lift _) fun _ => h.andThen (h.modDesc _) <|
  h.andThen (h.lift _) <| h.bind h.getCtx fun _ => h.pure _

/-! ## The stages (R243, R244, R246 to R248) -/

theorem resetPulse : OpKeeps R resetPulse :=
  h.andThen (h.opEmit rfl nofun nofun) <| h.andThen (h.opEmit rfl nofun nofun) <|
    h.andThen (h.opEmit rfl nofun nofun) (h.opEmit rfl nofun nofun)

theorem stagePrepare (P : Params) : OpKeeps R (stagePrepare P) := by
  refine h.andThen h.resetPulse <| h.bind (h.rdBulkOp P _ _ _) fun id => h.andThen ?_ <|
    h.andThen (h.opWrList P _) <| h.andThen (h.opWrList P _) (h.continueTo _)
  split
  · exact h.pure ()
  · exact h.opEmit rfl nofun nofun

theorem rxTimingFailed (P : Params) (e : ErrCode) : OpKeeps R (rxTimingFailed P e) :=
  fun s => h.retryUpdate P _ e s

theorem rxTimingSelect (P : Params) (d : RxVideoDescriptor) : OpKeeps R (rxTimingSelect P d) := by
  unfold Machine.rxTimingSelect
  split
  · exact h.bind (h.lift _) fun t => h.andThen (h.opModCtx fun _ => ⟨rfl, rfl⟩) (h.continueTo _)
  · exact h.andThen (h.opEmit rfl nofun nofun) (h.rxTimingFailed P _)
  · exact h.lift _
  · exact h.lift _

theorem stageRxTiming (P : Params) : OpKeeps R (stageRxTiming P) := by
  intro s
  have hs := h.detect P s
  unfold Machine.stageRxTiming
  split <;> rename_i heq <;> rw [heq] at hs
  · exact h.trans hs (h.rxTimingSelect P _ _)
  · exact h.trans hs (h.rxTimingFailed P _ _)
  all_goals exact hs

theorem rxPllDone (P : Params) : OpKeeps R (rxPllDone P) :=
  h.andThen (h.opWrList P _) (h.continueTo _)

theorem rxPllVideoCheck (P : Params) (stable : Bool) : OpKeeps R (rxPllVideoCheck P stable) := by
  unfold Machine.rxPllVideoCheck
  split
  · exact h.rxPllDone P
  · split
    · exact h.backToRxTiming P _
    · exact h.andThen (h.opEmit rfl nofun nofun) (h.rxPllDone P)

theorem stageRxPll (P : Params) : OpKeeps R (stageRxPll P) := by
  refine h.bind h.getCtx fun c => ?_
  split
  · refine h.bind (h.computePcr P _) fun r => h.andThen (h.opModCtx fun _ => ⟨rfl, rfl⟩) <|
      h.andThen (h.opWrList P _) <| h.andThen (h.opWrList P _) <|
      h.bind (h.opPoll P _ _ _) fun ok1 => ?_
    split
    · exact h.bind (h.opPoll P _ _ _) fun ok2 => h.rxPllVideoCheck P ok2
    · exact h.backToRxTiming P _
  · exact h.lift _

theorem txUnlocked (P : Params) : OpKeeps R (txUnlocked P) :=
  h.andThen (h.opEmit rfl nofun nofun) <| h.andThen (h.setErr _) <|
    h.andThen (h.schedule P .retry) (h.pure _)

theorem stageTxVidCfg (P : Params) : OpKeeps R (stageTxVidCfg P) := by
  refine h.bind (h.rdBulkOp P _ _ _) fun bytes => h.andThen (h.opModCtx fun _ => ⟨rfl, rfl⟩) <|
    h.bind (h.lift _) fun t => h.andThen (h.opModCtx fun _ => ⟨rfl, rfl⟩) <|
    h.andThen (h.opWrList P _) <| h.andThen (h.opWrList P _) <| h.andThen (h.opWrList P _) <|
    h.bind (h.opPoll P _ _ _) fun ok => ?_
  split
  · exact h.continueTo _
  · exact h.txUnlocked P

theorem stageTxVidOut (P : Params) : OpKeeps R (stageTxVidOut P) :=
  h.bind (h.rdBulkOp P _ _ _) fun _ => h.andThen (h.opModCtx fun _ => ⟨rfl, rfl⟩) <|
    h.andThen (h.opWrList P _) <| h.andThen (h.opWrList P _) <|
    h.andThen (h.opModCtx fun _ => ⟨rfl, rfl⟩) (h.pure _)

/-! ## INVOKE (R251) -/

theorem runStage (P : Params) : OpKeeps R (runStage P) := by
  intro s
  unfold Machine.runStage
  split
  · exact h.stagePrepare P s
  · exact h.stageRxTiming P s
  · exact h.stageRxPll P s
  · exact h.stageTxVidCfg P s
  · exact h.stageTxVidOut P s
  · exact h.refl s

theorem invokeLoop (P : Params) (n : Nat) : OpKeeps R (invokeLoop P n) := by
  induction n with
  | zero => exact h.pure ()
  | succ n ih =>
    intro s
    have hs := h.runStage P s
    unfold Machine.invokeLoop
    split <;> rename_i heq <;> rw [heq] at hs
    · exact h.trans hs (ih _)
    · exact hs
    · exact h.trans hs (h.deferTransportError P _)
    all_goals exact hs

theorem invoke (P : Params) : OpKeeps R (invoke P) := h.invokeLoop P 5

theorem enableEffect (P : Params) (s : State) : R s (enableEffect P s) :=
  h.afterModCtx (h.schedule P .now _) fun _ => ⟨rfl, rfl⟩

end StepRule

/-! ## How an operation ends (R19, R260) -/

variable {R : State → State → Prop} {s t u : State} {α : Type}

/-- An operation that answers a next state recorded one result in the state its steps left. -/
theorem finish_next {val : α → Value} {r : Out α × State} (he : finish val r = .next t) :
    ∃ q : Result, t = r.2.record q := by
  unfold finish at he
  split at he
  · exact ⟨_, (Host.Outcome.next.inj he).symm⟩
  · exact ⟨_, (Host.Outcome.next.inj he).symm⟩
  · cases he
  · cases he

/-- An operation that only computes answers a next state as its outcome says. -/
theorem unlessDetached_next {k : Host.Outcome State Fault Refusal}
    (he : unlessDetached s k = .next t) : k = .next t := by
  unfold unlessDetached at he
  split at he
  · cases he
  · exact he

theorem endsIn_finish {val : α → Value} {r : Out α × State} (hr : R s r.2)
    (he : finish val r = .next t) : EndsIn R s t := by
  obtain ⟨q, hq⟩ := finish_next he
  exact ⟨_, q, hr, hq⟩

theorem endsIn_record {r : Result} (hu : R s u)
    (he : Host.Outcome.next (u.record r) = (.next t : Host.Outcome State Fault Refusal)) :
    EndsIn R s t := ⟨u, r, hu, (Host.Outcome.next.inj he).symm⟩

theorem endsIn_onContext_record {r : Result} (hu : R s u)
    (he : onContext s (.next (u.record r)) = .next t) : EndsIn R s t :=
  endsIn_record hu (onContext_next he).2

theorem endsIn_onContext_bus {x : BusOp α} {val : α → Value} (hx : BusKeeps R x)
    (he : onContext s (.next (finishBus val (x s))) = .next t) : EndsIn R s t :=
  endsIn_onContext_record (hx s) he

theorem endsIn_onContext_op {x : Op α} {val : α → Value} (hx : OpKeeps R x)
    (he : onContext s (finish val (x s)) = .next t) : EndsIn R s t :=
  endsIn_finish (hx s) (onContext_next he).2

theorem endsIn_unlessDetached_op {x : Op α} {val : α → Value} (hx : OpKeeps R x)
    (he : unlessDetached s (finish val (x s)) = .next t) : EndsIn R s t :=
  endsIn_finish (hx s) (unlessDetached_next he)

theorem endsIn_unlessDetached_pure (h : StepRule R) {o : Out α} {val : α → Value}
    (he : unlessDetached s (finishPure val o s) = .next t) : EndsIn R s t :=
  endsIn_unlessDetached_op (h.lift o) he

/-- RDBULK run by itself: a wrapping run answers no next state (R146). -/
theorem endsIn_runRdbulk (h : StepRule R) {P : Params} {b a n : Byte}
    (he : runRdbulk P b a n s = .next t) : EndsIn R s t := by
  have hk := (onContext_next he).2
  split at hk
  · cases hk
  · exact endsIn_record (h.rdBulk P b a n s) hk

/-- TICK does nothing on a detached context or with nothing pending; else one invocation runs (R252). -/
theorem endsIn_runTick (h : StepRule R) {P : Params} (he : runTick P s = .next t) : EndsIn R s t := by
  unfold runTick at he
  split at he
  · cases he
  · split at he
    · exact endsIn_record (h.refl s) he
    · split at he
      · exact endsIn_record (h.refl s) he
      · refine endsIn_finish (h.afterModCtx (h.invoke P _) ?_) he
        exact fun _ => ⟨rfl, rfl⟩

/-- What ATTACH can do: record a failed condition, or construct (R253). -/
theorem execAttach_next {c : BitVec 3} (he : execAttach c s = .next t) :
    s.live = false
      ∧ ((∃ e : ErrCode, t = s.record (.fail e)) ∨ t = (construct s).record (.ok .unit)) := by
  unfold execAttach at he
  split at he
  · cases he
  · rename_i hl
    refine ⟨by simpa using hl, ?_⟩
    split at he
    · exact .inl ⟨_, (Host.Outcome.next.inj he).symm⟩
    · split at he
      · exact .inl ⟨_, (Host.Outcome.next.inj he).symm⟩
      · split at he
        · exact .inl ⟨_, (Host.Outcome.next.inj he).symm⟩
        · exact .inr (Host.Outcome.next.inj he).symm

/-- ATTACH keeps what construction keeps. -/
theorem endsIn_execAttach (h : StepRule R) (hc : R s (construct s)) {c : BitVec 3}
    (he : execAttach c s = .next t) : EndsIn R s t := by
  obtain ⟨-, ⟨e, rfl⟩ | rfl⟩ := execAttach_next he
  · exact ⟨s, _, h.refl s, rfl⟩
  · exact ⟨construct s, _, hc, rfl⟩

/-- Every operation that answers a next state recorded one result in a state related to the one it began in, for
every relation that the primitive steps, construction and detachment keep. -/
theorem endsIn_execWith (h : StepRule R) {P : Params} {i : Instr}
    (hattach : (∃ c : BitVec 3, i = .attach c) → R s (construct s))
    (hdetach : i = .detach → R s (detachEffect s))
    (he : execWith P i s = .next t) : EndsIn R s t := by
  cases i with
  | attach c => exact endsIn_execAttach h (hattach ⟨c, rfl⟩) he
  | enable => exact endsIn_onContext_record (h.enableEffect P s) he
  | disable => exact endsIn_onContext_record (h.refl s) he
  | detach => exact endsIn_onContext_record (hdetach rfl) he
  | tick => exact endsIn_runTick h he
  | banksel b => exact endsIn_onContext_bus (h.bankSel P b) he
  | wr b a v => exact endsIn_onContext_bus (h.wr P b a v) he
  | wrseq b ps => exact endsIn_onContext_bus (h.wrSeq P b ps) he
  | rd b a => exact endsIn_onContext_bus (h.rd P b a) he
  | rdbulk b a n => exact endsIn_runRdbulk h he
  | pcrBand p => exact endsIn_unlessDetached_pure h he
  | computePcr p => exact endsIn_unlessDetached_op (h.computePcr P p) he
  | txPrediv p => exact endsIn_unlessDetached_pure h he
  | txPhyclk p => exact endsIn_unlessDetached_pure h he
  | txSerdiv phy => exact endsIn_unlessDetached_pure h he
  | txPixmux p sd => exact endsIn_unlessDetached_pure h he
  | txDivreg p q sd => exact endsIn_unlessDetached_pure h he
  | computeTxPll p => exact endsIn_unlessDetached_pure h he
  | pclkOfTiming ht vt fr => exact endsIn_unlessDetached_pure h he
  | bppLookup f => exact endsIn_unlessDetached_pure h he
  | activeWidth wc f => exact endsIn_unlessDetached_pure h he
  | videoCheck w ht => exact endsIn_unlessDetached_pure h he
  | detect => exact endsIn_onContext_op (h.detect P) he
  | modeLookup w ht r => exact endsIn_unlessDetached_pure h he
  | stagePrepare => exact endsIn_onContext_op (h.stagePrepare P) he
  | stageRxtiming => exact endsIn_onContext_op (h.stageRxTiming P) he
  | stageRxpll => exact endsIn_onContext_op (h.stageRxPll P) he
  | stageTxvidcfg => exact endsIn_onContext_op (h.stageTxVidCfg P) he
  | stageTxvidout => exact endsIn_onContext_op (h.stageTxVidOut P) he
  | poll j n g => exact endsIn_onContext_bus (h.poll P j n g) he
  | schedule d => exact endsIn_onContext_record (h.schedule P d s) he
  | retryUpdate k e => exact endsIn_onContext_record (h.retryUpdate P k e s) he
  | invoke => exact endsIn_onContext_op (h.invoke P) he

end Sys2Proof.Proofs
end

