-- ==== Sys2Proof/Proofs/Record.lean ====
section
/-! The history, the results and the script along an operation (R20, R82, R260, R318). -/

namespace Sys2Proof.Proofs

open Sys2Proof Sys2Proof.Machine Sys2Proof.Safety

/-- `t` is `s` after the events `T`: they are appended, each transaction among them took its answer, and nothing is
taken back. -/
structure Follows (T : List Event) (s t : State) : Prop where
  history : t.history = s.history ++ T
  results : t.results = s.results
  script : t.script = s.script.drop (T.countP Event.isBus)
  program : t.program = s.program
  chip : t.chip = s.chip
  draws : s.draws ≤ t.draws
  constructed : s.constructed = true → t.constructed = true

/-- `t` is `s` after some events. -/
def Extends (s t : State) : Prop := ∃ T : List Event, Follows T s t

theorem Follows.append {T U : List Event} {s t u : State} (h : Follows T s t) (g : Follows U t u) :
    Follows (T ++ U) s u where
  history := by rw [g.history, h.history, List.append_assoc]
  results := g.results.trans h.results
  script := by rw [g.script, h.script, List.drop_drop, List.countP_append]
  program := g.program.trans h.program
  chip := g.chip.trans h.chip
  draws := h.draws.trans g.draws
  constructed := g.constructed ∘ h.constructed

/-- A change that leaves all fields but the context and the draw counter appends no event. -/
theorem follows_nil {s t : State} (hh : t.history = s.history) (hr : t.results = s.results)
    (hs : t.script = s.script) (hp : t.program = s.program) (hc : t.chip = s.chip)
    (hd : s.draws ≤ t.draws) (hk : t.constructed = s.constructed) : Follows [] s t :=
  ⟨by simp [hh], hr, by simp [hs], hp, hc, hd, by simp [hk]⟩

theorem follows_emit {e : Event} (he : e.isBus = false) (s : State) : Follows [e] s (s.emit e) :=
  ⟨rfl, rfl, by simp [he], rfl, rfl, le_rfl, id⟩

theorem follows_transact {e : Event} (he : e.isBus = true) (s : State) :
    Follows [e] s (s.transact e) :=
  ⟨rfl, rfl, by simp [he], rfl, rfl, le_rfl, id⟩

theorem follows_modCtx (f : Ctx → Ctx) (s : State) : Follows [] s (s.modCtx f) :=
  follows_nil rfl rfl rfl rfl rfl le_rfl rfl

theorem follows_construct (s : State) : Follows [.dsiAttach] s (construct s) :=
  ⟨rfl, rfl, rfl, rfl, rfl, le_rfl, fun _ => rfl⟩

theorem follows_detachEffect (s : State) : Follows [.dsiRelease] s (detachEffect s) :=
  (follows_modCtx _ s).append ((follows_modCtx _ _).append (follows_emit rfl _))

theorem stepRule_extends : StepRule Extends where
  refl _ := ⟨[], follows_nil rfl rfl rfl rfl rfl le_rfl rfl⟩
  trans := fun ⟨_, h⟩ ⟨_, g⟩ => ⟨_, h.append g⟩
  transact s _ he := ⟨_, follows_transact he s⟩
  emit s _ he _ _ := ⟨_, follows_emit he s⟩
  modCtx s f _ := ⟨[], follows_modCtx f s⟩
  draw s := ⟨[], follows_nil rfl rfl rfl rfl rfl (Nat.le_succ s.draws) rfl⟩

/-- Settles O24: an operation is made of primitive steps, construction and detachment, each of which appends its
events and uses up its answers; its end records one result. The script and the results list are the model's
(log 5, log 10). -/
theorem everyOperationAppendsItsRecord : Obligations.EveryOperationAppendsItsRecord := by
  intro i s t he
  rw [exec_eq_execWith] at he
  obtain ⟨u, r, ⟨T, h⟩, rfl⟩ := endsIn_execWith stepRule_extends
    (fun _ => ⟨_, follows_construct s⟩) (fun _ => ⟨_, follows_detachEffect s⟩) he
  exact ⟨T, r, h.history, by simp [h.results], h.script, h.program, h.chip, h.draws, h.constructed⟩

end Sys2Proof.Proofs
end

