-- ==== Sys2Proof/Proofs/Agreement.lean ====
section
/-! The context against its history (R45, R140, R31), and the detached context (R44, R116). -/

namespace Sys2Proof.Proofs

open Sys2Proof Sys2Proof.Machine Sys2Proof.Safety

/-! ## What one more event does to the views over the history -/

theorem accesses_append_bus {e : Event} (he : e.isBus = true) (h : List Event) :
    Hist.accesses (h ++ [e]) = Hist.accesses h + 1 := by
  cases e <;> simp_all [Hist.accesses, Event.isBus]

theorem accesses_append_own {e : Event} (he : e.isBus = false) (ha : e ≠ .dsiAttach) (h : List Event) :
    Hist.accesses (h ++ [e]) = Hist.accesses h := by
  cases e <;> simp_all [Hist.accesses, Event.isBus]

@[simp] theorem accesses_append_dsiAttach (h : List Event) :
    Hist.accesses (h ++ [.dsiAttach]) = 0 := by
  simp [Hist.accesses]

theorem dsiAttached_append_other {e : Event} (ha : e ≠ .dsiAttach) (hr : e ≠ .dsiRelease)
    (h : List Event) : Hist.dsiAttached (h ++ [e]) = Hist.dsiAttached h := by
  cases e <;> simp_all [Hist.dsiAttached]

@[simp] theorem dsiAttached_append_dsiAttach (h : List Event) :
    Hist.dsiAttached (h ++ [.dsiAttach]) = true := by
  simp [Hist.dsiAttached]

@[simp] theorem dsiAttached_append_dsiRelease (h : List Event) :
    Hist.dsiAttached (h ++ [.dsiRelease]) = false := by
  simp [Hist.dsiAttached]

/-! ## From the operations to the step -/

/-- A step leaves the state, with no word left to run, or runs one operation past its word (log 1). -/
theorem step_next {s t : State} (he : step s = .next t) :
    t = s ∨ ∃ (i : Instr) (rest : List Byte), exec i (s.advance rest) = .next t := by
  unfold step at he
  split at he
  · exact .inl (Host.Outcome.next.inj he).symm
  · split at he
    · exact .inr ⟨_, _, he⟩
    · cases he

/-- `I` passes from a state to a later one. -/
def Carries (I : State → Prop) (s t : State) : Prop := I s → I t

/-- What the primitive steps, construction, detachment, the record of a result and the move past a word carry, every
step carries. -/
theorem step_carries {I : State → Prop} (h : StepRule (Carries I))
    (hconstruct : ∀ s : State, I s → I (construct s))
    (hdetach : ∀ s : State, I s → I (detachEffect s))
    (hrecord : ∀ (r : Result) (s : State), I s → I (s.record r))
    (hadvance : ∀ (rest : List Byte) (s : State), I s → I (s.advance rest))
    {s t : State} (hs : I s) (he : step s = .next t) : I t := by
  obtain rfl | ⟨i, rest, hx⟩ := step_next he
  · exact hs
  · rw [exec_eq_execWith] at hx
    obtain ⟨u, r, hu, rfl⟩ := endsIn_execWith h (fun _ => hconstruct _) (fun _ => hdetach _) hx
    exact hrecord r u (hu (hadvance rest s hs))

/-! ## The access counter (R45, R140) -/

theorem stepRule_countAgrees : StepRule (Carries countAgrees) where
  refl _ := id
  trans h g := g ∘ h
  transact s e he hs hc := by simp [accesses_append_bus he, hs hc]
  emit s e he ha _ hs hc := (hs hc).trans (accesses_append_own he ha s.history).symm
  modCtx s f hf hs hc := (hf s.ctx).1.trans (hs hc)
  draw _ := id

theorem countAgrees_construct (s : State) : countAgrees (construct s) :=
  fun _ => (accesses_append_dsiAttach s.history).symm

theorem countAgrees_detachEffect {s : State} (hs : countAgrees s) : countAgrees (detachEffect s) :=
  fun hc => (hs hc).trans (accesses_append_own (e := .dsiRelease) rfl nofun s.history).symm

/-! ## The attachment of the DSI host (R31, R253, R256) -/

theorem stepRule_attachedAgrees : StepRule (Carries attachedAgrees) where
  refl _ := id
  trans h g := g ∘ h
  transact s e he hs := hs.trans
    (dsiAttached_append_other (by rintro rfl; cases he) (by rintro rfl; cases he) s.history).symm
  emit s e _ ha hr hs := hs.trans (dsiAttached_append_other ha hr s.history).symm
  modCtx s f hf hs := (State.modCtx_live (hf s.ctx).2).trans hs
  draw _ := id

theorem attachedAgrees_construct (s : State) : attachedAgrees (construct s) :=
  (dsiAttached_append_dsiAttach s.history).symm

theorem live_detachEffect (s : State) : (detachEffect s).live = false := by
  simp [detachEffect, State.live]

theorem attachedAgrees_detachEffect (s : State) : attachedAgrees (detachEffect s) :=
  (live_detachEffect s).trans (dsiAttached_append_dsiRelease s.history).symm

/-- Settles O22: a transaction adds one to the counter and to the count of the history, construction restarts both;
only construction and detachment change whether the context is live, each with its event. -/
theorem contextAgreesWithItsHistory : Obligations.ContextAgreesWithItsHistory := by
  refine ⟨fun s t hs he => ?_, fun s t hs he => ?_⟩
  · exact step_carries stepRule_countAgrees (fun s _ => countAgrees_construct s)
      (fun _ => countAgrees_detachEffect) (fun _ _ => id) (fun _ _ => id) hs he
  · exact step_carries stepRule_attachedAgrees (fun s _ => attachedAgrees_construct s)
      (fun s _ => attachedAgrees_detachEffect s) (fun _ _ => id) (fun _ _ => id) hs he

/-! ## The detached context (R44, R116, R252) -/

/-- A detached context refuses every operation but TICK and ATTACH, whatever the operation's own checks say (log 33). -/
theorem refusedDetached_of_ne {i : Instr} (ht : i ≠ .tick) (ha : ∀ c : BitVec 3, i ≠ .attach c) :
    refusedDetached i := by
  intro s hc hd
  cases i with
  | attach c => exact absurd rfl (ha c)
  | tick => exact absurd rfl ht
  | pcrBand | computePcr | txPrediv | txPhyclk | txSerdiv | txPixmux | txDivreg | computeTxPll
  | pclkOfTiming | bppLookup | activeWidth | videoCheck | modeLookup =>
    exact unlessDetached_detached hc hd _
  | _ => exact onContext_detached hc hd _

theorem exec_tick_detached {s : State} (hc : s.constructed = true) (hd : s.ctx.detached = true) :
    exec .tick s = .next (s.record (.ok .unit)) := by
  simp [exec, execTick, runTick, hc, hd]

theorem exec_detach_next {s t : State} (he : exec .detach s = .next t) :
    t = (detachEffect s).record (.ok .unit) :=
  (Host.Outcome.next.inj (onContext_next he).2).symm

/-- Settles O15: on a detached context TICK records its result and every other operation but ATTACH is refused;
ATTACH constructs, with the attachment event alone, or records a failed condition. -/
theorem detachedContextIsFrozen : Obligations.DetachedContextIsFrozen := by
  refine ⟨fun s t he => ?_, fun i s t hc hd he ha => ?_, fun c s t he => ?_⟩
  · rw [exec_detach_next he]; rfl
  · by_cases ht : i = .tick
    · subst ht
      rw [exec_tick_detached hc hd] at he
      cases he
      exact ⟨rfl, rfl⟩
    · rw [refusedDetached_of_ne ht ha s hc hd] at he
      cases he
  · obtain ⟨-, ⟨e, rfl⟩ | rfl⟩ := execAttach_next he
    · exact .inl rfl
    · exact .inr rfl

end Sys2Proof.Proofs
end

