-- ==== Sys2Proof/Proofs/Readbacks.lean ====
section
/-! The byte order of chip fields against the place weights of R77. -/

namespace Sys2Proof.Proofs

open Sys2Proof Sys2Proof.Machine Sys2Proof.Safety

/-- Least significant first: one more byte in front weighs 1 and moves every other byte up one place. -/
theorem assembled_lsb_cons (b : Byte) (bs : List Byte) :
    assembled .lsbFirst (b :: bs) = b.toNat + 256 * assembled .lsbFirst bs := by
  simp [assembled, List.range_succ_eq_map, Function.comp_def, pow_succ, ← List.sum_map_mul_left,
    Nat.mul_assoc, Nat.mul_comm]

/-- Most significant first: one more byte at the end weighs 1 and moves every other byte up one place. -/
theorem assembled_msb_snoc (bs : List Byte) (b : Byte) :
    assembled .msbFirst (bs ++ [b]) = 256 * assembled .msbFirst bs + b.toNat := by
  have moved : ∀ i ∈ List.range bs.length,
      ((bs ++ [b]).getD i 0).toNat * 256 ^ (bs.length - i)
        = 256 * ((bs.getD i 0).toNat * 256 ^ (bs.length - 1 - i)) := by
    intro i hi
    have hlt : i < bs.length := List.mem_range.1 hi
    have hexp : bs.length - i = bs.length - 1 - i + 1 := by omega
    rw [List.getD_append _ _ _ _ hlt, hexp, pow_succ]
    ring
  simp only [assembled, List.length_append, List.length_singleton, Nat.add_sub_cancel,
    List.range_succ, List.map_append, List.sum_append, List.map_congr_left moved,
    List.sum_map_mul_left]
  simp

/-- The number the model reads from consecutive registers is the one their place weights spell (R77). -/
theorem fieldValue_eq_assembled (o : FieldOrder) (bs : List Byte) : fieldValue o bs = assembled o bs := by
  cases o with
  | lsbFirst =>
    induction bs with
    | nil => rfl
    | cons b bs ih => rw [fieldValue_lsb_cons, assembled_lsb_cons, ih]
  | msbFirst =>
    induction bs using List.reverseRecOn with
    | nil => rfl
    | append_singleton bs b ih => rw [fieldValue_msb_snoc, assembled_msb_snoc, ih]

/-- Settles O39: the readback and each measured field are assembled by `fieldValue`, which is the sum by place
weights. -/
theorem readbacksAssembleInFieldOrder : Obligations.ReadbacksAssembleInFieldOrder := by
  intro P bs
  simp only [pclkOf, timingOfMeas, fieldValue_eq_assembled, and_self]

end Sys2Proof.Proofs
end

