-- ==== Sys2Proof/Proofs/Located.lean ====
section
/-! Every transaction has a bank (R73, R84, R345). A transport operation selects its bank first, and from then on any
transaction has one; the operations above it are made of transport operations and of steps without a transaction. -/

namespace Sys2Proof.Proofs

open Sys2Proof Sys2Proof.Machine Sys2Proof.Safety

/-! ## What one more event does to the bank and to the locations -/

theorem bank_append_event (P : Params) (h : List Event) (e : Event) :
    Hist.bank P (h ++ [e]) = bankAfter P (Hist.bank P h) e := by
  simp [Hist.bank]

theorem locatedFrom_append_event (P : Params) (bank : Option Byte) (h : List Event) (e : Event) :
    locatedFrom P bank (h ++ [e])
      = (locatedFrom P bank h && eventLocated P (h.foldl (bankAfter P) bank) e) := by
  induction h generalizing bank with
  | nil => simp [locatedFrom]
  | cons x h ih => simp [locatedFrom, ih, Bool.and_assoc]

/-- One more event is located when it has a bank to be in (R73). -/
theorem located_append_event (P : Params) (h : List Event) (e : Event) :
    Hist.located P (h ++ [e]) = (Hist.located P h && eventLocated P (Hist.bank P h) e) :=
  locatedFrom_append_event P none h e

theorem eventLocated_own {e : Event} (he : e.isBus = false) (P : Params) (bank : Option Byte) :
    eventLocated P bank e = true := by
  cases e with
  | busW a v ok => cases he
  | busR a r => cases he
  | _ => rfl

theorem eventLocated_of_bank {P : Params} {bank : Option Byte} (hb : bank.isSome = true) (e : Event) :
    eventLocated P bank e = true := by
  cases e <;> simp [eventLocated, hb]

/-- A transaction selects a bank or leaves the selected one (R72, log 21). -/
theorem bankAfter_bus_isSome {P : Params} {bank : Option Byte} {e : Event} (he : e.isBus = true)
    (hb : bank.isSome = true) : (bankAfter P bank e).isSome = true := by
  cases e with
  | busW a v ok => simp only [bankAfter]; split <;> simp [hb]
  | busR a r => exact hb
  | _ => cases he

section

variable {P : Params} {α β : Type} {I J : State → Prop}

/-- Every transaction so far has a bank, and a bank is selected for the next one. -/
def Selected (P : Params) (s : State) : Prop := located P s ∧ (Hist.bank P s.history).isSome = true

theorem located_emit {e : Event} (he : e.isBus = false) {s : State} (hs : located P s) :
    located P (s.emit e) := by
  rw [located, State.emit_history, located_append_event, eventLocated_own he, Bool.and_true]
  exact hs

theorem selected_transact {e : Event} (he : e.isBus = true) {s : State} (hs : Selected P s) :
    Selected P (s.transact e) := by
  obtain ⟨hl, hb⟩ := hs
  constructor
  · rw [located, State.transact_history, located_append_event, eventLocated_of_bank hb, Bool.and_true]
    exact hl
  · rw [State.transact_history, bank_append_event]
    exact bankAfter_bus_isSome he hb

/-- A write to the bank-select register needs no bank and selects one, whatever the oracle answers (R72, log 21). -/
theorem selected_transact_bankSel {s : State} (hs : located P s) (b : Byte) (ok : Bool) :
    Selected P (s.transact (.busW P.bankSelAddr b ok)) := by
  have hl : Hist.located P s.history = true := hs
  constructor
  · simp [located, located_append_event, hl, eventLocated]
  · simp [bank_append_event, bankAfter]

/-! ## Transport operations (41_transport.md) -/

/-- Where `I` holds in a state, `J` holds in a later one. -/
def Leads (I J : State → Prop) (s t : State) : Prop := I s → J t

theorem busBind_leads {x : BusOp α} {f : α → BusOp β} (hx : BusKeeps (Leads I J) x)
    (hf : ∀ v, BusKeeps (Carries J) (f v)) : BusKeeps (Leads I J) (x.bind f) := by
  intro s hs
  have hj := hx s hs
  unfold BusOp.bind
  split <;> rename_i heq <;> rw [heq] at hj
  · exact hf _ _ hj
  · exact hj

theorem busBind_carries {x : BusOp α} {f : α → BusOp β} (hx : BusKeeps (Carries I) x)
    (hf : ∀ v, BusKeeps (Carries I) (f v)) : BusKeeps (Carries I) (x.bind f) :=
  busBind_leads hx hf

theorem busPure_carries (v : α) : BusKeeps (Carries I) (BusOp.pure v) := fun _ => id

/-- Whatever follows a bank select has a bank (R142). -/
theorem bankSel_andThen_located (b : Byte) {y : BusOp α} (hy : BusKeeps (Carries (Selected P)) y) :
    BusKeeps (Carries (located P)) ((bankSel P b).andThen y) := by
  have hsel : BusKeeps (Leads (located P) (Selected P)) ((bankSel P b).andThen y) :=
    busBind_leads (fun s hs => selected_transact_bankSel hs b _) fun _ => hy
  exact fun s hs => (hsel s hs).1

theorem busWrite_selected (a v : Byte) : BusKeeps (Carries (Selected P)) (busWrite a v) :=
  fun _ => selected_transact rfl

theorem busRead_selected (a : Byte) : BusKeeps (Carries (Selected P)) (busRead a) :=
  fun _ => selected_transact rfl

theorem writeAll_selected (ps : List (Byte × Byte)) :
    BusKeeps (Carries (Selected P)) (writeAll ps) := by
  induction ps with
  | nil => exact busPure_carries ()
  | cons p ps ih => exact busBind_carries (busWrite_selected p.1 p.2) fun _ => ih

theorem readAll_selected (a : Byte) (n : Nat) : BusKeeps (Carries (Selected P)) (readAll a n) := by
  induction n generalizing a with
  | zero => exact busPure_carries []
  | succ n ih =>
    exact busBind_carries (busRead_selected a) fun v =>
      busBind_carries (ih _) fun vs => busPure_carries (v :: vs)

theorem bankSel_located (b : Byte) : BusKeeps (Carries (located P)) (bankSel P b) :=
  fun _ hs => (selected_transact_bankSel hs b _).1

theorem wr_located (b a v : Byte) : BusKeeps (Carries (located P)) (wr P b a v) :=
  bankSel_andThen_located b (busWrite_selected a v)

theorem wrSeq_located (b : Byte) (ps : List (Byte × Byte)) :
    BusKeeps (Carries (located P)) (wrSeq P b ps) :=
  bankSel_andThen_located b (writeAll_selected ps)

theorem rd_located (b a : Byte) : BusKeeps (Carries (located P)) (rd P b a) :=
  bankSel_andThen_located b (busRead_selected a)

theorem rdBulk_located (b a n : Byte) : BusKeeps (Carries (located P)) (rdBulk P b a n) :=
  bankSel_andThen_located b (readAll_selected a n.toNat)

theorem wrList_located (l : WriteList) : BusKeeps (Carries (located P)) (wrList P l) := by
  induction l with
  | nil => exact busPure_carries ()
  | cons g l ih => exact busBind_carries (wrSeq_located g.bank g.entries) fun _ => ih

theorem waitGap_located (g : Gap) : BusKeeps (Carries (located P)) (waitGap g) := by
  cases g with
  | none => exact busPure_carries ()
  | pcrGap => exact fun _ => located_emit rfl
  | txlockGap => exact fun _ => located_emit rfl

theorem pollLoop_located (sb : StatusBit) (g : Gap) (n : Nat) :
    BusKeeps (Carries (located P)) (pollLoop P sb g n) := by
  induction n with
  | zero => exact busPure_carries false
  | succ n ih =>
    refine busBind_carries (rd_located _ _) fun v => ?_
    split
    · exact busPure_carries true
    · exact busBind_carries (waitGap_located g) fun _ => ih

theorem poll_located (i : StatusId) (n : Byte) (g : Gap) :
    BusKeeps (Carries (located P)) (poll P i n g) := pollLoop_located _ g _

/-! ## How operations combine (R311, R313) -/

theorem bind_carries {x : Op α} {f : α → Op β} (hx : OpKeeps (Carries I) x)
    (hf : ∀ v, OpKeeps (Carries I) (f v)) : OpKeeps (Carries I) (x.bind f) := by
  intro s hs
  have hi := hx s hs
  unfold Op.bind
  split <;> rename_i heq <;> rw [heq] at hi
  · exact hf _ _ hi
  all_goals exact hi

theorem andThen_carries {x : Op α} {y : Op β} (hx : OpKeeps (Carries I) x)
    (hy : OpKeeps (Carries I) y) : OpKeeps (Carries I) (x.andThen y) := bind_carries hx fun _ => hy

/-- An operation that adds no event leaves the locations as they are. -/
theorem silent_located {x : Op α} (hx : ∀ s, (x s).2.history = s.history) :
    OpKeeps (Carries (located P)) x := by
  intro s hs
  rw [located, hx]
  exact hs

theorem opEmit_located {e : Event} (he : e.isBus = false) :
    OpKeeps (Carries (located P)) (Op.emit e) := fun _ => located_emit he

theorem opWrList_located (l : WriteList) : OpKeeps (Carries (located P)) (Op.ofBus (wrList P l)) :=
  (wrList_located l).ofBus

theorem opPoll_located (i : StatusId) (n : Byte) (g : Gap) :
    OpKeeps (Carries (located P)) (Op.ofBus (poll P i n g)) := (poll_located i n g).ofBus

theorem rdBulkOp_located (b a n : Byte) : OpKeeps (Carries (located P)) (rdBulkOp P b a n) := by
  unfold rdBulkOp
  split
  · exact silent_located fun _ => rfl
  · exact (rdBulk_located b a n).ofBus

/-! ## Taking a failure (R245, R250, R257): at most an event of the block's own -/

theorem schedule_located (d : DelayClass) {s : State} (hs : located P s) :
    located P (schedule P d s) := by
  unfold schedule
  split
  · exact hs
  · exact located_emit rfl hs

theorem retryUpdate_located (k : Bool) (e : ErrCode) {s : State} (hs : located P s) :
    located P (retryUpdate P k e s) := by
  rw [retryUpdate_eq, retried, ← schedule_eq]
  exact schedule_located .short hs

theorem deferTransportError_located {s : State} (hs : located P s) :
    located P (deferTransportError P s) := schedule_located (s := setErr _ s) .defer hs

theorem backToRxTiming_located (e : ErrCode) :
    OpKeeps (Carries (located P)) (backToRxTiming P e) :=
  andThen_carries (silent_located fun _ => rfl) <| andThen_carries (silent_located fun _ => rfl) <|
    andThen_carries (fun _ => schedule_located .retry) (silent_located fun _ => rfl)

theorem continueTo_located (st : Stage) : OpKeeps (Carries (located P)) (continueTo st) :=
  silent_located fun _ => rfl

/-! ## COMPUTE_PCR and DETECT (R162, R204) -/

theorem computePcr_located (p : U32) : OpKeeps (Carries (located P)) (computePcr P p) := by
  refine bind_carries (silent_located fun _ => rfl) fun t =>
    bind_carries ?_ fun lo => silent_located fun _ => rfl
  unfold pcrMLo
  split
  · exact silent_located fun _ => rfl
  · exact silent_located fun _ => rfl

theorem readSot_located (is : List (Fin 4)) : OpKeeps (Carries (located P)) (readSot P is) := by
  induction is with
  | nil => exact silent_located fun _ => rfl
  | cons i is ih => exact andThen_carries (rdBulkOp_located _ _ 2) ih

theorem readLanepack_located : OpKeeps (Carries (located P)) (readLanepack P) := by
  unfold readLanepack
  split
  · exact silent_located fun _ => rfl
  · exact bind_carries (rd_located _ _).ofBus fun v => silent_located fun _ => rfl

theorem detect_located : OpKeeps (Carries (located P)) (detect P) :=
  andThen_carries (silent_located fun _ => rfl) <| andThen_carries (readSot_located _) <|
  andThen_carries (wr_located _ _ _).ofBus <| bind_carries (rdBulkOp_located _ _ 5) fun _ =>
  andThen_carries (silent_located fun _ => rfl) <| bind_carries (rd_located _ _).ofBus fun _ =>
  andThen_carries (silent_located fun _ => rfl) <| andThen_carries readLanepack_located <|
  bind_carries (silent_located fun _ => rfl) fun _ =>
  andThen_carries (silent_located fun _ => rfl) <| andThen_carries (silent_located fun _ => rfl) <|
  silent_located fun _ => rfl

/-! ## The stages (R243, R244, R246 to R248) -/

/-- The reset edges leave no bank selected; the bulk read after them selects its own (R243, R345). -/
theorem resetPulse_located : OpKeeps (Carries (located P)) resetPulse :=
  andThen_carries (opEmit_located rfl) <| andThen_carries (opEmit_located rfl) <|
    andThen_carries (opEmit_located rfl) (opEmit_located rfl)

theorem stagePrepare_located : OpKeeps (Carries (located P)) (stagePrepare P) := by
  refine andThen_carries resetPulse_located <| bind_carries (rdBulkOp_located _ _ _) fun id =>
    andThen_carries ?_ <| andThen_carries (opWrList_located _) <|
    andThen_carries (opWrList_located _) (continueTo_located _)
  split
  · exact silent_located fun _ => rfl
  · exact opEmit_located rfl

theorem rxTimingFailed_located (e : ErrCode) :
    OpKeeps (Carries (located P)) (rxTimingFailed P e) := fun _ => retryUpdate_located _ e

theorem rxTimingSelect_located (d : RxVideoDescriptor) :
    OpKeeps (Carries (located P)) (rxTimingSelect P d) := by
  unfold rxTimingSelect
  split
  · exact bind_carries (silent_located fun _ => rfl) fun t =>
      andThen_carries (silent_located fun _ => rfl) (continueTo_located _)
  · exact andThen_carries (opEmit_located rfl) (rxTimingFailed_located _)
  all_goals exact silent_located fun _ => rfl

theorem stageRxTiming_located : OpKeeps (Carries (located P)) (stageRxTiming P) := by
  intro s hs
  have hd := detect_located s hs
  unfold stageRxTiming
  split <;> rename_i heq <;> rw [heq] at hd
  · exact rxTimingSelect_located _ _ hd
  · exact rxTimingFailed_located _ _ hd
  all_goals exact hd

theorem rxPllDone_located : OpKeeps (Carries (located P)) (rxPllDone P) :=
  andThen_carries (opWrList_located _) (continueTo_located _)

theorem rxPllVideoCheck_located (stable : Bool) :
    OpKeeps (Carries (located P)) (rxPllVideoCheck P stable) := by
  unfold rxPllVideoCheck
  split
  · exact rxPllDone_located
  · split
    · exact backToRxTiming_located _
    · exact andThen_carries (opEmit_located rfl) rxPllDone_located

theorem stageRxPll_located : OpKeeps (Carries (located P)) (stageRxPll P) := by
  refine bind_carries (silent_located fun _ => rfl) fun c => ?_
  split
  · refine bind_carries (computePcr_located _) fun r =>
      andThen_carries (silent_located fun _ => rfl) <| andThen_carries (opWrList_located _) <|
      andThen_carries (opWrList_located _) <| bind_carries (opPoll_located _ _ _) fun ok1 => ?_
    split
    · exact bind_carries (opPoll_located _ _ _) fun ok2 => rxPllVideoCheck_located ok2
    · exact backToRxTiming_located _
  · exact silent_located fun _ => rfl

theorem txUnlocked_located : OpKeeps (Carries (located P)) (txUnlocked P) :=
  andThen_carries (opEmit_located rfl) <| andThen_carries (silent_located fun _ => rfl) <|
    andThen_carries (fun _ => schedule_located .retry) (silent_located fun _ => rfl)

theorem stageTxVidCfg_located : OpKeeps (Carries (located P)) (stageTxVidCfg P) := by
  refine bind_carries (rdBulkOp_located _ _ _) fun bytes =>
    andThen_carries (silent_located fun _ => rfl) <| bind_carries (silent_located fun _ => rfl) fun t =>
    andThen_carries (silent_located fun _ => rfl) <| andThen_carries (opWrList_located _) <|
    andThen_carries (opWrList_located _) <| andThen_carries (opWrList_located _) <|
    bind_carries (opPoll_located _ _ _) fun ok => ?_
  split
  · exact continueTo_located _
  · exact txUnlocked_located

theorem stageTxVidOut_located : OpKeeps (Carries (located P)) (stageTxVidOut P) :=
  bind_carries (rdBulkOp_located _ _ _) fun _ => andThen_carries (silent_located fun _ => rfl) <|
    andThen_carries (opWrList_located _) <| andThen_carries (opWrList_located _) <|
    silent_located fun _ => rfl

/-! ## INVOKE (R251) -/

theorem runStage_located : OpKeeps (Carries (located P)) (runStage P) := by
  intro s
  unfold runStage
  split
  · exact stagePrepare_located s
  · exact stageRxTiming_located s
  · exact stageRxPll_located s
  · exact stageTxVidCfg_located s
  · exact stageTxVidOut_located s
  · exact id

theorem invokeLoop_located (n : Nat) : OpKeeps (Carries (located P)) (invokeLoop P n) := by
  induction n with
  | zero => exact silent_located fun _ => rfl
  | succ n ih =>
    intro s hs
    have hr := runStage_located s hs
    unfold invokeLoop
    split <;> rename_i heq <;> rw [heq] at hr
    · exact ih _ hr
    · exact hr
    · exact deferTransportError_located hr
    all_goals exact hr

theorem invoke_located : OpKeeps (Carries (located P)) (invoke P) := invokeLoop_located 5

/-! ## The operations and the step -/

variable {s t : State}

theorem enableEffect_located (hs : located P s) : located P (enableEffect P s) :=
  schedule_located (s := s.modCtx _) .now hs

theorem detachEffect_located (hs : located P s) : located P (detachEffect s) :=
  located_emit (s := (s.modCtx _).modCtx _) rfl hs

theorem construct_located (hs : located P s) : located P (construct s) :=
  located_emit (s := { s with constructed := true, ctx := Ctx.reset }) rfl hs

theorem located_of_endsIn (hs : located P s) (he : EndsIn (Carries (located P)) s t) :
    located P t := by
  obtain ⟨u, r, hu, rfl⟩ := he
  exact hu hs

theorem runTick_endsIn_located (he : runTick P s = .next t) :
    EndsIn (Carries (located P)) s t := by
  unfold runTick at he
  split at he
  · cases he
  · split at he
    · exact endsIn_record id he
    · split at he
      · exact endsIn_record id he
      · exact endsIn_finish (R := Carries (located P)) (invoke_located (s.modCtx _)) he

theorem runRdbulk_endsIn_located {b a n : Byte} (he : runRdbulk P b a n s = .next t) :
    EndsIn (Carries (located P)) s t := by
  have hk := (onContext_next he).2
  split at hk
  · cases hk
  · exact endsIn_record (rdBulk_located b a n s) hk

theorem execAttach_endsIn_located {c : BitVec 3} (he : execAttach c s = .next t) :
    EndsIn (Carries (located P)) s t := by
  obtain ⟨-, ⟨e, rfl⟩ | rfl⟩ := execAttach_next he
  · exact ⟨s, _, id, rfl⟩
  · exact ⟨construct s, _, construct_located, rfl⟩

theorem execWith_endsIn_located {i : Instr} (he : execWith P i s = .next t) :
    EndsIn (Carries (located P)) s t := by
  cases i with
  | attach c => exact execAttach_endsIn_located he
  | enable => exact endsIn_onContext_record enableEffect_located he
  | disable => exact endsIn_onContext_record id he
  | detach => exact endsIn_onContext_record detachEffect_located he
  | tick => exact runTick_endsIn_located he
  | banksel b => exact endsIn_onContext_bus (bankSel_located b) he
  | wr b a v => exact endsIn_onContext_bus (wr_located b a v) he
  | wrseq b ps => exact endsIn_onContext_bus (wrSeq_located b ps) he
  | rd b a => exact endsIn_onContext_bus (rd_located b a) he
  | rdbulk b a n => exact runRdbulk_endsIn_located he
  | computePcr p => exact endsIn_unlessDetached_op (computePcr_located p) he
  | pcrBand | txPrediv | txPhyclk | txSerdiv | txPixmux | txDivreg | computeTxPll | pclkOfTiming
  | bppLookup | activeWidth | videoCheck | modeLookup =>
    exact endsIn_finish id (unlessDetached_next he)
  | detect => exact endsIn_onContext_op detect_located he
  | stagePrepare => exact endsIn_onContext_op stagePrepare_located he
  | stageRxtiming => exact endsIn_onContext_op stageRxTiming_located he
  | stageRxpll => exact endsIn_onContext_op stageRxPll_located he
  | stageTxvidcfg => exact endsIn_onContext_op stageTxVidCfg_located he
  | stageTxvidout => exact endsIn_onContext_op stageTxVidOut_located he
  | poll j n g => exact endsIn_onContext_bus (poll_located j n g) he
  | schedule d => exact endsIn_onContext_record (schedule_located d) he
  | retryUpdate k e => exact endsIn_onContext_record (retryUpdate_located k e) he
  | invoke => exact endsIn_onContext_op invoke_located he

end

/-- Settles O23: every transport operation begins with a bank select, which needs no bank and after which a bank is
selected until the next reset edge; the reset edges are events of Prepare alone, between transport operations. -/
theorem everyAccessHasItsBank : Obligations.EveryAccessHasItsBank := by
  intro s t hs he
  obtain rfl | ⟨i, rest, hx⟩ := step_next he
  · exact hs
  · rw [exec_eq_execWith] at hx
    exact located_of_endsIn (s := s.advance rest) hs (execWith_endsIn_located hx)

end Sys2Proof.Proofs
end

