-- ==== Sys2Proof/Proofs/OperandFields.lean ====
section
/-! The operand fields of a word (R107 to R109): each reads back what the encoder writes, and the bytes that stand for
no value are the reserved ones (R112). -/

namespace Sys2Proof.Proofs

open Sys2Proof

/-! ## Multi-byte operands, MSB-first (R107) -/

@[simp] theorem u16Be_byteOf (x : U16) : u16Be (byteOf x 1) (byteOf x 0) = x :=
  BitVec.extractLsb'_append_extractLsb' (w := 8) (len := 8)

@[simp] theorem u32Be_byteOf (x : U32) :
    u32Be (byteOf x 3) (byteOf x 2) (byteOf x 1) (byteOf x 0) = x := by
  have hhigh : byteOf x 3 ++ byteOf x 2 = x.extractLsb' 16 16 :=
    BitVec.extractLsb'_append_extractLsb'_eq_extractLsb' rfl
  have hlow : byteOf x 1 ++ byteOf x 0 = x.extractLsb' 0 16 :=
    BitVec.extractLsb'_append_extractLsb'_eq_extractLsb' rfl
  rw [u32Be, hhigh, hlow]
  exact BitVec.extractLsb'_append_extractLsb' (w := 16) (len := 16)

@[simp] theorem bytes16_u16Be (b1 b0 : Byte) : bytes16 (u16Be b1 b0) = [b1, b0] := by
  simp only [bytes16, byteOf, u16Be, List.cons.injEq, and_true]
  constructor <;> · ext i hi; simp; grind

@[simp] theorem bytes32_u32Be (b3 b2 b1 b0 : Byte) :
    bytes32 (u32Be b3 b2 b1 b0) = [b3, b2, b1, b0] := by
  simp only [bytes32, byteOf, u32Be, List.cons.injEq, and_true]
  refine ⟨?_, ?_, ?_, ?_⟩ <;> · ext i hi; simp; grind

/-! ## One-byte operands with reserved values (R109, R112) -/

/-- An operand byte stands for the value whose `code` it is, and the bytes from `bound` on stand for none. -/
structure CodedBy {α : Type} (code : α → Byte) (bound : Nat) (ofByte : Byte → Option α) : Prop where
  none_iff (b : Byte) : ofByte b = none ↔ bound ≤ b.toNat
  some_iff (b : Byte) (x : α) : ofByte b = some x ↔ b = code x

/-- The byte written for a value is read back as that value. -/
theorem CodedBy.ofByte_code {α : Type} {code : α → Byte} {bound : Nat} {ofByte : Byte → Option α}
    (h : CodedBy code bound ofByte) (x : α) : ofByte (code x) = some x := (h.some_iff _ x).2 rfl

/-- An operand whose high bits are fixed to zero stands for the number in its low bits (R108). -/
theorem codedBy_of_lowBits {k : Nat} (hk : k ≤ 8) :
    CodedBy (fun x : BitVec k => x.setWidth 8) (2 ^ k)
      fun b => if b.extractLsb' k (8 - k) = 0#(8 - k) then some (b.extractLsb' 0 k) else none := by
  have hhigh (b : Byte) : b.extractLsb' k (8 - k) = 0#(8 - k) ↔ b.toNat < 2 ^ k := by
    have hquot : b.toNat / 2 ^ k < 2 ^ (8 - k) := by
      rw [Nat.div_lt_iff_lt_mul (by positivity), ← pow_add, Nat.sub_add_cancel hk]
      exact b.isLt
    simp [← BitVec.toNat_inj, Nat.shiftRight_eq_div_pow, Nat.mod_eq_of_lt hquot]
  refine ⟨fun b => by simp [hhigh], fun b x => ?_⟩
  have hcode : (x.setWidth 8).toNat = x.toNat := by
    rw [BitVec.toNat_setWidth, Nat.mod_eq_of_lt]
    exact x.isLt.trans_le (Nat.pow_le_pow_right (by decide) hk)
  have hlow : b.extractLsb' 0 k = x ↔ b.toNat % 2 ^ k = x.toNat := by simp [← BitVec.toNat_inj]
  simp only [hhigh, Option.ite_none_right_eq_some, Option.some.injEq, hlow]
  rw [← BitVec.toNat_inj, hcode]
  constructor
  · rintro ⟨hb, hx⟩
    rwa [Nat.mod_eq_of_lt hb] at hx
  · intro hx
    have hb : b.toNat < 2 ^ k := hx ▸ x.isLt
    exact ⟨hb, (Nat.mod_eq_of_lt hb).trans hx⟩

/-- A decoder that compares the byte with the codes 0, 1, ... of the values in turn (R109, R300). -/
theorem codedBy_of_chain {α : Type} {code : α → Byte} {bound : Nat} {ofByte : Byte → Option α}
    (values : List α) (hall : ∀ x, x ∈ values)
    (hcodes : (values.map fun x => (code x).toNat) = List.range bound)
    (hchain : ∀ b, ofByte b = values.foldr (fun x o => if b = code x then some x else o) none) :
    CodedBy code bound ofByte := by
  have hfind (b : Byte) : ofByte b = values.find? fun x => b = code x := by
    rw [hchain]
    clear hall hcodes hchain
    induction values with
    | nil => rfl
    | cons y ys ih => by_cases hy : b = code y <;> simp [hy, ih]
  have hinj {x y : α} (h : code x = code y) : x = y :=
    List.inj_on_of_nodup_map (hcodes ▸ List.nodup_range) (hall x) (hall y) (congrArg BitVec.toNat h)
  have hrange (b : Byte) : b.toNat < bound ↔ ∃ x, b = code x := by
    rw [← List.mem_range, ← hcodes]
    simp [hall, ← BitVec.toNat_inj, eq_comm]
  have hnone (b : Byte) : ofByte b = none ↔ bound ≤ b.toNat := by
    rw [hfind, ← not_lt, hrange]
    simp [hall]
  have hcode {b : Byte} {x : α} (h : ofByte b = some x) : b = code x := by
    rw [hfind] at h
    simpa using List.find?_some h
  refine ⟨hnone, fun b x => ⟨hcode, ?_⟩⟩
  rintro rfl
  cases h : ofByte (code x) with
  | none => exact absurd ((hrange (code x)).2 ⟨x, rfl⟩) (((hnone _).1 h).not_gt)
  | some y => rw [hinj (hcode h)]

theorem flagsOfByte_coded : CodedBy (fun c : BitVec 3 => c.setWidth 8) 8 flagsOfByte :=
  codedBy_of_lowBits (k := 3) (by decide)

theorem nibbleOfByte_coded : CodedBy (fun f : BitVec 4 => f.setWidth 8) 16 nibbleOfByte :=
  codedBy_of_lowBits (k := 4) (by decide)

theorem statusOfByte_coded : CodedBy StatusId.code 3 statusOfByte :=
  codedBy_of_chain [.pcrStable, .vidchkStable, .txpllLock] (fun x => by cases x <;> decide) rfl
    fun _ => rfl

theorem gapOfByte_coded : CodedBy Gap.code 3 gapOfByte :=
  codedBy_of_chain [.none, .pcrGap, .txlockGap] (fun x => by cases x <;> decide) rfl fun _ => rfl

theorem delayOfByte_coded : CodedBy DelayClass.code 4 delayOfByte :=
  codedBy_of_chain [.now, .short, .defer, .retry] (fun x => by cases x <;> decide) rfl fun _ => rfl

theorem errOfByte_coded : CodedBy ErrCode.code 10 errOfByte :=
  codedBy_of_chain [.none, .transportError, .noVideo, .noMatchingMode, .pcrUnstable, .pllUnlocked,
    .vidChkUnstable, .missingGpio, .missingClock, .dsiAttachDefer] (fun x => by cases x <;> decide)
    rfl fun _ => rfl

theorem hintOfByte_coded : CodedBy (fun k : Bool => if k then 0x01#8 else 0x00#8) 2 hintOfByte :=
  codedBy_of_chain [false, true] (fun x => by cases x <;> decide) rfl fun _ => rfl

/-! ## The pairs of a WRSEQ (R113) -/

@[simp] theorem pairBytes_cons (p : Byte × Byte) (ps : List (Byte × Byte)) :
    pairBytes (p :: ps) = p.1 :: p.2 :: pairBytes ps := rfl

theorem takePairs_pairBytes (ps : List (Byte × Byte)) (rest : List Byte) :
    takePairs ps.length (pairBytes ps ++ rest) = some (ps, rest) := by
  induction ps with
  | nil => rfl
  | cons p ps ih => simp [takePairs, ih]

/-- `takePairs` finds too few bytes, or the bytes of as many pairs as it was asked for. -/
theorem takePairs_cases (n : Nat) (tl : List Byte) :
    (takePairs n tl = none ∧ tl.length < 2 * n)
    ∨ ∃ (ps : List (Byte × Byte)) (rest : List Byte), takePairs n tl = some (ps, rest)
        ∧ ps.length = n ∧ tl = pairBytes ps ++ rest := by
  induction n generalizing tl with
  | zero => exact .inr ⟨[], tl, rfl, rfl, rfl⟩
  | succ n ih =>
    match tl with
    | [] => exact .inl ⟨rfl, by simp⟩
    | [_] => exact .inl ⟨rfl, by simp; omega⟩
    | a :: v :: tl =>
      obtain ⟨hnone, hlen⟩ | ⟨ps, rest, hsome, hn, rfl⟩ := ih tl
      · exact .inl ⟨by simp [takePairs, hnone], by simp; omega⟩
      · exact .inr ⟨(a, v) :: ps, rest, by simp [takePairs, hsome], by simp [hn], rfl⟩

end Sys2Proof.Proofs
end

