-- ==== Sys2Proof/Proofs/Words.lean ====
section
/-! Operation words: the decoder reads what the encoder writes, and what it can answer on an opcode of R110 is said
once for each word format (R108). The refusals of R111 and R112 and the step follow. -/

namespace Sys2Proof.Proofs

open Sys2Proof Sys2Proof.Machine Sys2Proof.Safety

/-! ## Reading a word the encoder wrote (R107) -/

theorem decTS_pairBytes (b : Byte) {ps : List (Byte × Byte)} (hps : ps.length ≤ 255) (rest : List Byte) :
    decTS (b :: BitVec.ofNat 8 ps.length :: pairBytes ps ++ rest) = .ok (.wrseq b ps) rest := by
  have hcount : (BitVec.ofNat 8 ps.length).toNat = ps.length := by
    rw [BitVec.toNat_ofNat]
    omega
  simp [decTS, hcount, takePairs_pairBytes]

/-- R107, R113: the decoder reads the operation whose word comes first, and leaves the bytes after it. -/
theorem decode_encode {i : Instr} (hi : i.wellFormed = true) (rest : List Byte) :
    decode (encode i ++ rest) = .ok i rest := by
  cases i with
  | wrseq b ps => exact decTS_pairBytes b (by simpa [Instr.wellFormed] using hi) rest
  | pcrBand | computePcr | txPrediv | txPhyclk | txSerdiv | txPixmux | txDivreg | computeTxPll
  | pclkOfTiming | videoCheck | modeLookup =>
    simp [encode, Instr.opcode, Instr.operands, bytes16, bytes32, decode, decodeOp, decC32, decC32S,
      decC32QS, decCT, decDWH, decDWHR]
  | attach | bppLookup | activeWidth | poll | schedule | retryUpdate =>
    simp [encode, Instr.opcode, Instr.operands, bytes16, decode, decodeOp, decH8, decDF, decDWF, decSP,
      decSD, decSR, reservedOr, flagsOfByte_coded.ofByte_code, nibbleOfByte_coded.ofByte_code,
      statusOfByte_coded.ofByte_code, gapOfByte_coded.ofByte_code, delayOfByte_coded.ofByte_code,
      hintOfByte_coded.ofByte_code, errOfByte_coded.ofByte_code]
  | _ => rfl

/-! ## What the decoder can answer (R111 to R113) -/

/-- What the decoder may answer on the opcode `op` of a format `f` with the bytes `tl` after it: too few bytes, a
reserved operand value, or a well-formed operation whose word comes first. -/
inductive Reads (f : Format) (op : Byte) (tl : List Byte) : Decoded → Prop
  | truncated (hshort : tl.length + 1 < f.length (countByte tl))
      (hlegal : reservedHead (op :: tl) = false) : Reads f op tl (.bad .truncated)
  | reserved (hlong : f.length (countByte tl) ≤ tl.length + 1)
      (hreserved : reservedHead (op :: tl) = true) : Reads f op tl (.bad .reserved)
  | ok {i : Instr} {rest : List Byte} (hlong : f.length (countByte tl) ≤ tl.length + 1)
      (hlegal : reservedHead (op :: tl) = false) (hwf : i.wellFormed = true)
      (hword : op :: tl = encode i ++ rest) : Reads f op tl (.ok i rest)

section

variable {f : Format} {op : Byte} {tl : List Byte} {d : Decoded}

theorem Reads.eq_truncated (h : Reads f op tl d) (hshort : tl.length + 1 < f.length (countByte tl)) :
    d = .bad .truncated := by
  cases h with
  | truncated => rfl
  | reserved hlong | ok hlong => omega

theorem Reads.eq_reserved_iff (h : Reads f op tl d) :
    d = .bad .reserved ↔ reservedHead (op :: tl) = true := by
  cases h with
  | truncated _ hlegal | ok _ hlegal => simp [hlegal]
  | reserved _ hreserved => simp [hreserved]

theorem Reads.of_ok {i : Instr} {rest : List Byte} (h : Reads f op tl (.ok i rest)) :
    i.wellFormed = true ∧ op :: tl = encode i ++ rest := by
  cases h with
  | ok _ _ hwf hword => exact ⟨hwf, hword⟩

end

/-- A word with one coded operand `b`: the operand is reserved, or the operation is the one it makes. -/
theorem reads_oneCoded {α : Type} {code : α → Byte} {bound : Nat} {ofByte : Byte → Option α}
    (h : CodedBy code bound ofByte) {mk : α → Instr} {f : Format} {op b : Byte} {tl rest : List Byte}
    (hlong : f.length (countByte tl) ≤ tl.length + 1)
    (hreserved : reservedHead (op :: tl) = decide (bound ≤ b.toNat))
    (hwf : ∀ x, (mk x).wellFormed = true)
    (hword : ∀ x, b = code x → op :: tl = encode (mk x) ++ rest) :
    Reads f op tl (reservedOr ((ofByte b).map mk) rest) := by
  cases hb : ofByte b with
  | none => exact .reserved hlong (by simp [hreserved, (h.none_iff b).1 hb])
  | some x =>
    have hlegal : ¬bound ≤ b.toNat := by simp [← h.none_iff, hb]
    exact .ok hlong (by simp [hreserved, hlegal]) (hwf x) (hword x ((h.some_iff b x).1 hb))

/-- A word with two coded operands `b` and `c`: one is reserved, or the operation is the one they make. -/
theorem reads_twoCoded {α β : Type} {code : α → Byte} {bound : Nat} {ofByte : Byte → Option α}
    (h : CodedBy code bound ofByte) {code' : β → Byte} {bound' : Nat} {ofByte' : Byte → Option β}
    (h' : CodedBy code' bound' ofByte') {mk : α → β → Instr} {f : Format} {op b c : Byte}
    {tl rest : List Byte} (hlong : f.length (countByte tl) ≤ tl.length + 1)
    (hreserved : reservedHead (op :: tl) = decide (bound ≤ b.toNat ∨ bound' ≤ c.toNat))
    (hwf : ∀ x y, (mk x y).wellFormed = true)
    (hword : ∀ x y, b = code x → c = code' y → op :: tl = encode (mk x y) ++ rest) :
    Reads f op tl (reservedOr ((ofByte b).bind fun x => (ofByte' c).map fun y => mk x y) rest) := by
  cases hb : ofByte b with
  | none => exact .reserved hlong (by simp [hreserved, (h.none_iff b).1 hb])
  | some x =>
    refine reads_oneCoded h' hlong ?_ (hwf x) fun y => hword x y ((h.some_iff b x).1 hb)
    have hlegal : ¬bound ≤ b.toNat := by simp [← h.none_iff, hb]
    simp [hreserved, hlegal]

section

variable (tl : List Byte)

/-! ### Formats without reserved values -/

theorem reads_z {op : Byte} {i : Instr} (hlegal : reservedHead (op :: tl) = false)
    (hwf : i.wellFormed = true) (hword : encode i = [op]) : Reads .z op tl (.ok i tl) :=
  .ok (by simp [Format.length]) hlegal hwf (by simp [hword])

theorem reads_t1 : Reads .t1 0x10 tl (decT1 tl) :=
  match tl with
  | _ :: _ => .ok (by simp [Format.length]) rfl rfl rfl
  | [] => .truncated (by simp [Format.length]) rfl

theorem reads_t2 : Reads .t2 0x13 tl (decT2 tl) :=
  match tl with
  | _ :: _ :: _ => .ok (by simp [Format.length]) rfl rfl rfl
  | [] | [_] => .truncated (by simp [Format.length]) rfl

theorem reads_t3 {f : Format} {op : Byte} {mk : Byte → Byte → Byte → Instr} (hf : ∀ n, f.length n = 4)
    (hlegal : reservedHead (op :: tl) = false) (hwf : ∀ b a v, (mk b a v).wellFormed = true)
    (hword : ∀ b a v, encode (mk b a v) = [op, b, a, v]) : Reads f op tl (decT3 mk tl) :=
  match tl with
  | b :: a :: v :: _ => .ok (by simp [hf]) hlegal (hwf b a v) (by simp [hword])
  | [] | [_] | [_, _] => .truncated (by simp [hf]) hlegal

theorem reads_ts : Reads .ts 0x12 tl (decTS tl) :=
  match tl with
  | b :: n :: rest => by
    obtain ⟨hnone, hlen⟩ | ⟨ps, rest', hsome, hn, rfl⟩ := takePairs_cases n.toNat rest
    · simp only [decTS, hnone]
      exact .truncated (by simp [Format.length, countByte]; omega) rfl
    · simp only [decTS, hsome]
      refine .ok ?_ rfl ?_ ?_
      · simp [Format.length, countByte, Laws.WordShape.pairBytes_length]
        omega
      · simp [Instr.wellFormed]
        omega
      · simp [encode, Instr.opcode, Instr.operands, hn]
  | [] | [_] => .truncated (by simp [Format.length, countByte]) rfl

theorem reads_c32 {op : Byte} {mk : U32 → Instr} (hlegal : reservedHead (op :: tl) = false)
    (hwf : ∀ p, (mk p).wellFormed = true) (hword : ∀ p, encode (mk p) = op :: bytes32 p) :
    Reads .c32 op tl (decC32 mk tl) :=
  match tl with
  | _ :: _ :: _ :: _ :: _ => .ok (by simp [Format.length]) hlegal (hwf _) (by simp [hword])
  | [] | [_] | [_, _] | [_, _, _] => .truncated (by simp [Format.length]) hlegal

theorem reads_c32s : Reads .c32s 0x25 tl (decC32S tl) :=
  match tl with
  | _ :: _ :: _ :: _ :: _ :: _ =>
    .ok (by simp [Format.length]) rfl rfl (by simp [encode, Instr.opcode, Instr.operands])
  | [] | [_] | [_, _] | [_, _, _] | [_, _, _, _] => .truncated (by simp [Format.length]) rfl

theorem reads_c32qs : Reads .c32qs 0x26 tl (decC32QS tl) :=
  match tl with
  | _ :: _ :: _ :: _ :: _ :: _ :: _ =>
    .ok (by simp [Format.length]) rfl rfl (by simp [encode, Instr.opcode, Instr.operands])
  | [] | [_] | [_, _] | [_, _, _] | [_, _, _, _] | [_, _, _, _, _] =>
    .truncated (by simp [Format.length]) rfl

theorem reads_ct : Reads .ct 0x28 tl (decCT tl) :=
  match tl with
  | _ :: _ :: _ :: _ :: _ :: _ =>
    .ok (by simp [Format.length]) rfl rfl (by simp [encode, Instr.opcode, Instr.operands])
  | [] | [_] | [_, _] | [_, _, _] | [_, _, _, _] => .truncated (by simp [Format.length]) rfl

theorem reads_dwh : Reads .dwh 0x32 tl (decDWH tl) :=
  match tl with
  | _ :: _ :: _ :: _ :: _ =>
    .ok (by simp [Format.length]) rfl rfl (by simp [encode, Instr.opcode, Instr.operands])
  | [] | [_] | [_, _] | [_, _, _] => .truncated (by simp [Format.length]) rfl

theorem reads_dwhr : Reads .dwhr 0x34 tl (decDWHR tl) :=
  match tl with
  | _ :: _ :: _ :: _ :: _ :: _ =>
    .ok (by simp [Format.length]) rfl rfl (by simp [encode, Instr.opcode, Instr.operands])
  | [] | [_] | [_, _] | [_, _, _] | [_, _, _, _] => .truncated (by simp [Format.length]) rfl

/-! ### Formats with reserved values (R112) -/

theorem reads_h8 : Reads .h8 0x01 tl (decH8 tl) :=
  match tl with
  | _ :: _ => reads_oneCoded flagsOfByte_coded (by simp [Format.length]) rfl (fun _ => rfl)
      (by rintro _ rfl; rfl)
  | [] => .truncated (by simp [Format.length]) rfl

theorem reads_df : Reads .df 0x30 tl (decDF tl) :=
  match tl with
  | _ :: _ => reads_oneCoded nibbleOfByte_coded (by simp [Format.length]) rfl (fun _ => rfl)
      (by rintro _ rfl; rfl)
  | [] => .truncated (by simp [Format.length]) rfl

theorem reads_dwf : Reads .dwf 0x31 tl (decDWF tl) :=
  match tl with
  | _ :: _ :: _ :: _ => reads_oneCoded nibbleOfByte_coded (by simp [Format.length]) rfl (fun _ => rfl)
      (by rintro _ rfl; simp [encode, Instr.opcode, Instr.operands])
  | [] | [_] | [_, _] => .truncated (by simp [Format.length]) rfl

theorem reads_sd : Reads .sd 0x46 tl (decSD tl) :=
  match tl with
  | _ :: _ => reads_oneCoded delayOfByte_coded (by simp [Format.length]) rfl (fun _ => rfl)
      (by rintro _ rfl; rfl)
  | [] => .truncated (by simp [Format.length]) rfl

theorem reads_sp : Reads .sp 0x45 tl (decSP tl) :=
  match tl with
  | _ :: n :: _ :: _ =>
    reads_twoCoded statusOfByte_coded gapOfByte_coded (mk := fun i g => .poll i n g)
      (by simp [Format.length]) rfl (fun _ _ => rfl) (by rintro _ _ rfl rfl; rfl)
  | [] | [_] | [_, _] => .truncated (by simp [Format.length]) rfl

theorem reads_sr : Reads .sr 0x47 tl (decSR tl) :=
  match tl with
  | _ :: _ :: _ => reads_twoCoded hintOfByte_coded errOfByte_coded (by simp [Format.length]) rfl
      (fun _ _ => rfl) (by rintro _ _ rfl rfl; rfl)
  | [] | [_] => .truncated (by simp [Format.length]) rfl

/-! ### The opcode map (R110) -/

theorem reads_lifecycle : ∀ r ∈ lifecycleFormats, Reads r.2 r.1 tl (decodeOp r.1 tl) := by
  simp only [lifecycleFormats, List.forall_mem_cons]
  exact ⟨reads_h8 tl, reads_z tl rfl rfl rfl, reads_z tl rfl rfl rfl, reads_z tl rfl rfl rfl,
    reads_z tl rfl rfl rfl, List.forall_mem_nil _⟩

theorem reads_transport : ∀ r ∈ transportFormats, Reads r.2 r.1 tl (decodeOp r.1 tl) := by
  simp only [transportFormats, List.forall_mem_cons]
  exact ⟨reads_t1 tl, reads_t3 tl (fun _ => rfl) rfl (fun _ _ _ => rfl) (fun _ _ _ => rfl), reads_ts tl,
    reads_t2 tl, reads_t3 tl (fun _ => rfl) rfl (fun _ _ _ => rfl) (fun _ _ _ => rfl),
    List.forall_mem_nil _⟩

theorem reads_calculator : ∀ r ∈ calculatorFormats, Reads r.2 r.1 tl (decodeOp r.1 tl) := by
  simp only [calculatorFormats, List.forall_mem_cons]
  exact ⟨reads_c32 tl rfl (fun _ => rfl) fun _ => rfl, reads_c32 tl rfl (fun _ => rfl) fun _ => rfl,
    reads_c32 tl rfl (fun _ => rfl) fun _ => rfl, reads_c32 tl rfl (fun _ => rfl) fun _ => rfl,
    reads_c32 tl rfl (fun _ => rfl) fun _ => rfl, reads_c32s tl, reads_c32qs tl,
    reads_c32 tl rfl (fun _ => rfl) fun _ => rfl, reads_ct tl, List.forall_mem_nil _⟩

theorem reads_detector : ∀ r ∈ detectorFormats, Reads r.2 r.1 tl (decodeOp r.1 tl) := by
  simp only [detectorFormats, List.forall_mem_cons]
  exact ⟨reads_df tl, reads_dwf tl, reads_dwh tl, reads_z tl rfl rfl rfl, reads_dwhr tl,
    List.forall_mem_nil _⟩

theorem reads_sequencer : ∀ r ∈ sequencerFormats, Reads r.2 r.1 tl (decodeOp r.1 tl) := by
  simp only [sequencerFormats, List.forall_mem_cons]
  exact ⟨reads_z tl rfl rfl rfl, reads_z tl rfl rfl rfl, reads_z tl rfl rfl rfl, reads_z tl rfl rfl rfl,
    reads_z tl rfl rfl rfl, reads_sp tl, reads_sd tl, reads_sr tl, reads_z tl rfl rfl rfl,
    List.forall_mem_nil _⟩

/-- What the decoder answers on an opcode of R110. -/
theorem decodeOp_reads {op : Byte} {f : Format} (h : (op, f) ∈ opcodeFormats) :
    Reads f op tl (decodeOp op tl) := by
  simp only [opcodeFormats, List.mem_append] at h
  obtain (((h | h) | h) | h) | h := h
  · exact reads_lifecycle tl _ h
  · exact reads_transport tl _ h
  · exact reads_calculator tl _ h
  · exact reads_detector tl _ h
  · exact reads_sequencer tl _ h

/-- An opcode that is not in R110 is illegal, whatever follows it (R111). -/
theorem decodeOp_illegal {op : Byte} (h : isOpcode op = false) : decodeOp op tl = .bad .illegal := by
  unfold decodeOp
  split
  case h_34 => rfl
  all_goals exact absurd h (by decide)

end

theorem isOpcode_iff {op : Byte} : isOpcode op = true ↔ ∃ f : Format, (op, f) ∈ opcodeFormats := by
  simp [isOpcode]

/-- Only opcodes of R110 have reserved operand values. -/
theorem isOpcode_of_reservedHead {op : Byte} {tl : List Byte} (h : reservedHead (op :: tl) = true) :
    isOpcode op = true := by
  unfold reservedHead at h
  split at h
  case h_7 => cases h
  all_goals next heq => cases heq; rfl

/-- Everything the decoder can answer on a first byte and the bytes after it. -/
theorem decode_cons_cases (op : Byte) (tl : List Byte) :
    (isOpcode op = false ∧ decode (op :: tl) = .bad .illegal)
    ∨ ∃ f : Format, (op, f) ∈ opcodeFormats ∧ Reads f op tl (decode (op :: tl)) := by
  cases hop : isOpcode op with
  | false => exact .inl ⟨rfl, decodeOp_illegal tl hop⟩
  | true =>
    obtain ⟨f, hf⟩ := isOpcode_iff.1 hop
    exact .inr ⟨f, hf, decodeOp_reads tl hf⟩

/-- R112: the decoder answers Reserved exactly where the first word is long enough and has a reserved operand. -/
theorem decode_reserved_iff (bytes : List Byte) :
    decode bytes = .bad .reserved ↔ reservedHead bytes = true := by
  match bytes with
  | [] => exact ⟨nofun, nofun⟩
  | op :: tl =>
    obtain ⟨hop, hd⟩ | ⟨f, -, hr⟩ := decode_cons_cases op tl
    · rw [hd]
      exact ⟨nofun, fun h => absurd (isOpcode_of_reservedHead h) (by simp [hop])⟩
    · exact hr.eq_reserved_iff

/-- A byte string that decodes begins with the word of the well-formed operation it decodes to. -/
theorem wellFormed_and_word_of_decode {bytes rest : List Byte} {i : Instr}
    (h : decode bytes = .ok i rest) : i.wellFormed = true ∧ bytes = encode i ++ rest := by
  match bytes with
  | [] => cases h
  | op :: tl =>
    obtain ⟨-, hd⟩ | ⟨f, -, hr⟩ := decode_cons_cases op tl
    · rw [hd] at h
      cases h
    · rw [h] at hr
      exact hr.of_ok

/-! ## The step (log 1) -/

/-- A step runs the operation the program decodes to, on the bytes after its word. -/
theorem step_of_decode_ok {s : State} {i : Instr} {rest : List Byte} (h : decode s.program = .ok i rest) :
    step s = exec i (s.advance rest) := by
  cases hp : s.program with
  | nil => rw [hp] at h; cases h
  | cons op tl =>
    rw [hp] at h
    simp only [step, hp, h]

/-- A step is refused by the decoder's name on a program that does not decode. -/
theorem step_of_decode_bad {s : State} {e : DecodeError} (hne : s.program ≠ [])
    (h : decode s.program = .bad e) : step s = .refused (decodeRefusal e) := by
  cases hp : s.program with
  | nil => exact absurd hp hne
  | cons op tl =>
    rw [hp] at h
    simp only [step, hp, h]

/-- With no byte left a step changes nothing. -/
theorem step_of_program_nil {s : State} (h : s.program = []) : step s = .next s := by
  simp only [step, h]

/-! ## The statements -/

/-- Settles O1: every operation's word is read back field by field, and on an opcode of R110 the decoder answers an
operation only where its word comes first. -/
theorem decodeInvertsEncode : Obligations.DecodeInvertsEncode :=
  ⟨fun _ rest hi => decode_encode hi rest, fun _ _ _ h => wellFormed_and_word_of_decode h⟩

/-- Settles O2: a step refuses by the decoder's name, and the decoder names these two errors. -/
theorem illegalAndShortWordsAreRefused : Obligations.IllegalAndShortWordsAreRefused := by
  refine ⟨fun s op tl hp hop => ?_, fun s op tl f hp hf hshort => ?_, by decide +kernel⟩
  · have hd : decode s.program = .bad .illegal := hp ▸ decodeOp_illegal tl hop
    exact step_of_decode_bad (by simp [hp]) hd
  · have hd : decode s.program = .bad .truncated := hp ▸ (decodeOp_reads tl hf).eq_truncated hshort
    exact step_of_decode_bad (by simp [hp]) hd

/-- Settles O3: on an opcode of R110 the decoder answers Reserved exactly for an operand outside its codes, and on no
other byte is an operand reserved. That a short word is Truncated and not Reserved is the model's reading
(log 11). -/
theorem reservedOperandsAreRefused : Obligations.ReservedOperandsAreRefused := by
  refine ⟨decode_reserved_iff, fun s h => step_of_decode_bad ?_ ((decode_reserved_iff _).2 h)⟩
  intro hp
  rw [hp] at h
  cases h

/-- Settles O4: each word is the encoding of its operation, with nothing after it. -/
theorem sampleWordsDecode : Obligations.SampleWordsDecode :=
  ⟨decode_encode (i := .attach 7) rfl [], decode_encode (i := .wr 0x81 0x10 0x3C) rfl [],
    decode_encode (i := .wrseq 0x82 [(0x01, 0x00), (0x01, 0x80)]) rfl [],
    decode_encode (i := .computePcr 148500) rfl [],
    decode_encode (i := .pclkOfTiming 2200 1125 60) rfl [],
    decode_encode (i := .activeWidth 5760 0x0a) rfl [],
    decode_encode (i := .poll .pcrStable 50 .pcrGap) rfl [],
    decode_encode (i := .retryUpdate true .noVideo) rfl []⟩

/-- Settles O5: what a step does is decided by what the decoder reads at the head of the program, the list of words to
run being the model's (log 1). -/
theorem stepRunsTheDecodedOperation : Obligations.StepRunsTheDecodedOperation :=
  fun _ => ⟨fun _ _ h => step_of_decode_ok h, fun _ hne h => step_of_decode_bad hne h,
    step_of_program_nil⟩

end Sys2Proof.Proofs
end

