-- ==== Sys2Proof/Proofs/NeedsContext.lean ====
section
/-! Operations that need a context are refused before there is one and after it is detached (R116, R310). -/

namespace Sys2Proof.Proofs

open Sys2Proof Sys2Proof.Machine Sys2Proof.Safety

/-- An operation on the context is refused before there is one (R310, log 4). -/
theorem onContext_unconstructed {s : State} (hc : s.constructed = false)
    (k : Host.Outcome State Fault Refusal) : onContext s k = .refused .notConstructed := by
  simp [onContext, hc]

theorem exec_tick_unconstructed {s : State} (hc : s.constructed = false) :
    exec .tick s = .refused .notConstructed := by
  simp [exec, execTick, runTick, hc]

/-- Before construction every operation that is not pure, ATTACH aside, is refused (R310, log 4). -/
theorem exec_unconstructed {i : Instr} {s : State} (hc : s.constructed = false) (hp : isPure i = false)
    (ha : ∀ c : BitVec 3, i ≠ .attach c) : exec i s = .refused .notConstructed := by
  cases i with
  | attach c => exact absurd rfl (ha c)
  | tick => exact exec_tick_unconstructed hc
  | pcrBand | computePcr | txPrediv | txPhyclk | txSerdiv | txPixmux | txDivreg | computeTxPll
  | pclkOfTiming | bppLookup | activeWidth | videoCheck | modeLookup => cases hp
  | _ => exact onContext_unconstructed hc _

/-- Settles O14: both checks stand before anything else the operation does, also for the unit operations before
construction (log 4) and before any stop of the operation's own (log 33). -/
theorem destroyedContextIsRefused : Obligations.DestroyedContextIsRefused :=
  ⟨fun _ ht ha => refusedDetached_of_ne ht ha, fun _ _ hc hp ha => exec_unconstructed hc hp ha⟩

end Sys2Proof.Proofs
end

