-- ==== Sys2Proof/Proofs/Assembly.lean ====
section
/-! Pseudo-operations and assembly lines (R114, R115). -/

namespace Sys2Proof.Proofs

open Sys2Proof Sys2Proof.Machine

/-- Settles O60: the expansions are the definition's, for all operands; each line is read word by word, between the
separators that are the model's (log 23). -/
theorem pseudoOperationsExpand : Obligations.PseudoOperationsExpand :=
  ⟨fun _ _ => rfl, fun _ _ _ => rfl, fun _ => rfl, fun _ _ => rfl, rfl, rfl, rfl⟩

end Sys2Proof.Proofs
end

