-- ==== Sys2Proof/Proofs/Transport.lean ====
section
/-! The transport operations run by themselves (41_transport.md): each issues its trace, stops at the first `Err`, and
records its result. -/

namespace Sys2Proof.Proofs

open Sys2Proof Sys2Proof.Machine Sys2Proof.Safety

section

variable {α β : Type} {i : Instr} {x : BusOp α} {val : α → Value} {s t : State} {T : List Event}

/-! ## An operation that is one transport operation -/

/-- On a live context the operation `i` is the transport operation `x` and the record of its result. -/
def RunsBus (i : Instr) (x : BusOp α) (val : α → Value) : Prop :=
  ∀ s : State, s.live = true → exec i s = .next (finishBus val (x s))

/-- All transactions completing, the operation issues its trace, records its value and does nothing else. -/
theorem RunsBus.completes (h : RunsBus i x val) (hl : s.live = true) {v : α} (hx : Issues x T (some v))
    (hg : gives s T = true) : exec i s = .next ((play T s).record (.ok (val v))) := by
  rw [h s hl, finishBus_ok hx hg]

/-- At an `Err` the operation stops and records a TransportError; what the trace did before stands. -/
theorem RunsBus.failsAtCut (h : RunsBus i x val) (hl : s.live = true) (hx : StopsAtCuts x T) :
    failsAtCut i s s T (fun _ c => c) := by
  intro k hk hg
  rw [h s hl, finishBus_cut hx hk hg]
  rfl

theorem runsBus_banksel (b : Byte) :
    RunsBus (.banksel b) (bankSel Config.P b) fun _ => .unit := fun _ hl => onContext_live hl _

theorem runsBus_wr (b a v : Byte) : RunsBus (.wr b a v) (wr Config.P b a v) fun _ => .unit :=
  fun _ hl => onContext_live hl _

theorem runsBus_wrseq (b : Byte) (ps : List (Byte × Byte)) :
    RunsBus (.wrseq b ps) (wrSeq Config.P b ps) fun _ => .unit := fun _ hl => onContext_live hl _

theorem runsBus_rd (b a : Byte) : RunsBus (.rd b a) (rd Config.P b a) .u8 :=
  fun _ hl => onContext_live hl _

theorem exec_rdbulk_live (hl : s.live = true) (b a n : Byte) :
    exec (.rdbulk b a n) s = if bulkWraps a n then .refused .bulkWrap
      else .next (finishBus .bytes (rdBulk Config.P b a n s)) := onContext_live hl _

theorem exec_rdbulk_wraps {b a n : Byte} (hl : s.live = true) (hw : bulkWraps a n = true) :
    exec (.rdbulk b a n) s = .refused .bulkWrap := by
  rw [exec_rdbulk_live hl, if_pos hw]

theorem runsBus_rdbulk {b a n : Byte} (hw : bulkWraps a n = false) :
    RunsBus (.rdbulk b a n) (rdBulk Config.P b a n) .bytes := by
  intro s hl
  rw [exec_rdbulk_live hl, hw]
  rfl

/-- A bulk read that answers a next state did not wrap (R146). -/
theorem not_bulkWraps_of_next {b a n : Byte} (hl : s.live = true)
    (he : exec (.rdbulk b a n) s = .next t) : bulkWraps a n = false := by
  by_contra hw
  rw [exec_rdbulk_wraps hl (by simpa using hw)] at he
  cases he

/-- The range check of R146, as the statements write it. -/
theorem bulkWraps_eq_false_iff {a n : Byte} :
    bulkWraps a n = false ↔ n.toNat = 0 ∨ a.toNat + n.toNat - 1 ≤ 255 := by
  simp only [bulkWraps, decide_eq_false_iff_not]
  omega

/-! ## Stopping at the first `Err` (R141) -/

/-- The last event of the trace, and no other, is a transaction that returned `Err`. -/
def ErrLast (T : List Event) : Prop :=
  ∃ (T' : List Event) (e : Event), T = T' ++ [e] ∧ T'.any isErr = false ∧ isErr e = true

/-- After transactions that completed, a trace still ends with its only `Err`. -/
theorem ErrLast.prepend {U : List Event} (hU : ErrLast U) (hT : T.any isErr = false) :
    ErrLast (T ++ U) := by
  obtain ⟨U', e, rfl, hU', he⟩ := hU
  exact ⟨T ++ U', e, by simp, by simp [List.any_append, hT, hU'], he⟩

/-- Whatever the oracle answers, `x` issues transactions only, and either all complete and it has a value, or the last
alone returns `Err` and it has none. -/
def StopsAtFirstErr (x : BusOp α) : Prop :=
  ∀ s : State, ∃ T : List Event, T.all Event.isBus = true
    ∧ ((∃ v : α, x s = (some v, play T s) ∧ T.any isErr = false)
      ∨ (x s = (none, play T s) ∧ ErrLast T))

theorem StopsAtFirstErr.pure (v : α) : StopsAtFirstErr (BusOp.pure v) :=
  fun s => ⟨[], rfl, .inl ⟨v, Issues.pure v s rfl, rfl⟩⟩

theorem StopsAtFirstErr.busWrite (a v : Byte) : StopsAtFirstErr (busWrite a v) := by
  intro s
  have hx := Issues.busWrite a v (oracleWrite s a v) s (by simp [gives, answersAs])
  refine ⟨[.busW a v (oracleWrite s a v)], rfl, ?_⟩
  cases hok : oracleWrite s a v with
  | true => exact .inl ⟨(), by simpa [hok] using hx, rfl⟩
  | false => exact .inr ⟨by simpa [hok] using hx, [], _, rfl, rfl, rfl⟩

theorem StopsAtFirstErr.busRead (a : Byte) : StopsAtFirstErr (busRead a) := by
  intro s
  have hx := Issues.busRead a (oracleRead s a) s (by simp [gives, answersAs])
  refine ⟨[.busR a (oracleRead s a)], rfl, ?_⟩
  cases hr : oracleRead s a with
  | some v => exact .inl ⟨v, by simpa [hr] using hx, rfl⟩
  | none => exact .inr ⟨by simpa [hr] using hx, [], _, rfl, rfl, rfl⟩

theorem StopsAtFirstErr.bind {f : α → BusOp β} (hx : StopsAtFirstErr x)
    (hf : ∀ v : α, StopsAtFirstErr (f v)) : StopsAtFirstErr (x.bind f) := by
  intro s
  obtain ⟨T, hT, ⟨v, hv, hok⟩ | ⟨hnone, herr⟩⟩ := hx s
  · obtain ⟨U, hU, hend⟩ := hf v (play T s)
    have hbind : x.bind f s = f v (play T s) := by simp only [BusOp.bind, hv]
    refine ⟨T ++ U, by rw [List.all_append, hT, hU, Bool.and_self], ?_⟩
    rw [hbind, play_append, List.any_append, hok, Bool.false_or]
    exact hend.imp_right fun ⟨hw, hlast⟩ => ⟨hw, hlast.prepend hok⟩
  · exact ⟨T, hT, .inr ⟨by simp only [BusOp.bind, hnone], herr⟩⟩

theorem StopsAtFirstErr.andThen {y : BusOp β} (hx : StopsAtFirstErr x) (hy : StopsAtFirstErr y) :
    StopsAtFirstErr (x.andThen y) := hx.bind fun _ => hy

theorem StopsAtFirstErr.bankSel (P : Params) (b : Byte) : StopsAtFirstErr (bankSel P b) := .busWrite _ _

theorem StopsAtFirstErr.wr (P : Params) (b a v : Byte) : StopsAtFirstErr (wr P b a v) :=
  .andThen (.bankSel P b) (.busWrite a v)

theorem StopsAtFirstErr.writeAll (ps : List (Byte × Byte)) : StopsAtFirstErr (writeAll ps) := by
  induction ps with
  | nil => exact .pure ()
  | cons p ps ih => exact .andThen (.busWrite p.1 p.2) ih

theorem StopsAtFirstErr.wrSeq (P : Params) (b : Byte) (ps : List (Byte × Byte)) :
    StopsAtFirstErr (wrSeq P b ps) := .andThen (.bankSel P b) (.writeAll ps)

theorem StopsAtFirstErr.rd (P : Params) (b a : Byte) : StopsAtFirstErr (rd P b a) :=
  .andThen (.bankSel P b) (.busRead a)

theorem StopsAtFirstErr.readAll (a : Byte) (n : Nat) : StopsAtFirstErr (readAll a n) := by
  induction n generalizing a with
  | zero => exact .pure []
  | succ n ih => exact .bind (.busRead a) fun v => .bind (ih _) fun vs => .pure (v :: vs)

theorem StopsAtFirstErr.rdBulk (P : Params) (b a n : Byte) : StopsAtFirstErr (rdBulk P b a n) :=
  .andThen (.bankSel P b) (.readAll a n.toNat)

/-- What an operation of one transport operation leaves, for every answer of the oracle. -/
theorem RunsBus.next_stopsAtFirstErr (h : RunsBus i x val) (hx : StopsAtFirstErr x) (hl : s.live = true)
    (he : exec i s = .next t) : ∃ T : List Event,
      t.history = s.history ++ T ∧ T.all Event.isBus = true
      ∧ ((∃ v : Value, t.results = s.results ++ [.ok v] ∧ T.any isErr = false)
        ∨ (t.results = s.results ++ [.fail .transportError] ∧ ErrLast T)) := by
  rw [h s hl] at he
  cases he
  obtain ⟨T, hT, ⟨v, hv, hok⟩ | ⟨hnone, herr⟩⟩ := hx s
  · exact ⟨T, by simp [finishBus, hv], hT, .inl ⟨val v, by simp [finishBus, hv], hok⟩⟩
  · exact ⟨T, by simp [finishBus, hnone], hT, .inr ⟨by simp [finishBus, hnone], herr⟩⟩

/-- Every transport operation but a wrapping RDBULK is one that stops at its first `Err`. -/
theorem runsBus_of_isTransport (hi : isTransport i = true)
    (hfit : ∀ b a n : Byte, i = .rdbulk b a n → bulkWraps a n = false) :
    ∃ (α : Type) (x : BusOp α) (val : α → Value), RunsBus i x val ∧ StopsAtFirstErr x := by
  cases i with
  | banksel b => exact ⟨_, _, _, runsBus_banksel b, .bankSel _ b⟩
  | wr b a v => exact ⟨_, _, _, runsBus_wr b a v, .wr _ b a v⟩
  | wrseq b ps => exact ⟨_, _, _, runsBus_wrseq b ps, .wrSeq _ b ps⟩
  | rd b a => exact ⟨_, _, _, runsBus_rd b a, .rd _ b a⟩
  | rdbulk b a n => exact ⟨_, _, _, runsBus_rdbulk (hfit b a n rfl), .rdBulk _ b a n⟩
  | _ => cases hi

end

/-- Settles O21: each transport operation is a chain of transactions that an `Err` cuts, and only a wrapping RDBULK is
refused. -/
theorem transportStopsAtTheFirstErr : Obligations.TransportStopsAtTheFirstErr := by
  intro i s hi hl
  refine ⟨fun t he => ?_, fun hfit => ?_⟩
  · obtain ⟨_, _, _, hrun, hstop⟩ := runsBus_of_isTransport hi fun _ _ _ h =>
      not_bulkWraps_of_next hl (h ▸ he)
    exact hrun.next_stopsAtFirstErr hstop hl he
  · obtain ⟨_, _, _, hrun, -⟩ := runsBus_of_isTransport hi fun b a n h =>
      bulkWraps_eq_false_iff.2 (hfit b a n h)
    exact ⟨_, hrun s hl⟩

/-! ## The selected bank (R73) -/

/-- A bank select leaves its bank selected (R142). -/
theorem bank_append_bankEv (P : Params) (h : List Event) (b : Byte) :
    Hist.bank P (h ++ [bankEv P b]) = some b := by
  simp [bank_append_event, bankEv, bankAfter]

/-- A write after a bank select leaves that bank selected, unless it writes the bank-select register (R143). -/
theorem bank_append_wrEv (P : Params) (h : List Event) (b a v : Byte) :
    Hist.bank P (h ++ wrEv P b a v) = some (if a = P.bankSelAddr then v else b) := by
  have hsplit : h ++ wrEv P b a v = h ++ [bankEv P b] ++ [.busW a v true] := by simp [wrEv]
  rw [hsplit, bank_append_event, bank_append_bankEv, bankAfter]
  split <;> rfl

/-! ## The statements (R142 to R146) -/

/-- Settles O16: BANKSEL is one write of the bank-select register. -/
theorem bankselSelectsTheBank : Obligations.BankselSelectsTheBank := fun b =>
  ⟨rfl, refusedDetached_of_ne nofun nofun, fun _ hl =>
    ⟨(runsBus_banksel b).completes hl (issues_bankSel _ b),
      (runsBus_banksel b).failsAtCut hl (stops_bankSel _ b), bank_append_bankEv _ _ b⟩⟩

/-- Settles O17: WR is a bank select and one write, which selects once more where it writes the bank-select
register. -/
theorem wrWritesOneRegister : Obligations.WrWritesOneRegister := fun b a v =>
  ⟨rfl, refusedDetached_of_ne nofun nofun, fun _ hl =>
    ⟨(runsBus_wr b a v).completes hl (issues_wr _ b a v),
      (runsBus_wr b a v).failsAtCut hl (stops_wr _ b a v), bank_append_wrEv _ _ b a v⟩⟩

/-- Settles O18: WRSEQ is a bank select and the writes of its pairs, by induction on their list. -/
theorem wrseqWritesInOrder : Obligations.WrseqWritesInOrder := fun b ps =>
  ⟨rfl, refusedDetached_of_ne nofun nofun, fun _ hl =>
    ⟨(runsBus_wrseq b ps).completes hl (issues_wrSeq _ b ps),
      (runsBus_wrseq b ps).failsAtCut hl (stops_wrSeq _ b ps)⟩⟩

/-- Settles O19: RD is a bank select and one read, whose answer it returns. -/
theorem rdReadsOneRegister : Obligations.RdReadsOneRegister := fun b a =>
  ⟨rfl, refusedDetached_of_ne nofun nofun, fun _ v hl =>
    ⟨(runsBus_rd b a).completes hl (issues_rd _ ⟨b, a⟩ v),
      (runsBus_rd b a).failsAtCut hl (stops_rd _ ⟨b, a⟩ v)⟩⟩

/-- Settles O20: a wrapping RDBULK is refused before its bank select; any other is a bank select and one read for each
byte, by induction on the bytes. -/
theorem rdbulkReadsConsecutive : Obligations.RdbulkReadsConsecutive := by
  refine fun b a n => ⟨rfl, fun _ => refusedDetached_of_ne nofun nofun, fun s hl =>
    ⟨fun hn hpast => ?_, fun bs hlen hfit => ?_⟩⟩
  · exact exec_rdbulk_wraps hl (decide_eq_true ⟨hn, hpast⟩)
  · have hrun := runsBus_rdbulk (b := b) (bulkWraps_eq_false_iff.2 hfit)
    exact ⟨hrun.completes hl (issues_rdBulk _ b a n bs hlen),
      hrun.failsAtCut hl (stops_rdBulk _ b a n bs hlen)⟩

end Sys2Proof.Proofs
end

