-- ==== Sys2Proof/Proofs/Calculator.lean ====
section
/-! The operations that only compute (42_calculator.md): what each answers is what its computation in
`Laws/Calculator` answers, and the state is as before but for the result and the draw of `M_lo`. -/

namespace Sys2Proof.Proofs

open Sys2Proof Sys2Proof.Machine Sys2Proof.Safety

section

variable {α : Type} {i : Instr} {o : Out α} {val : α → Value} {s s' t : State} {p : U32}

/-! ## An operation that is one computation (R174) -/

/-- Unless the context is detached, the operation `i` is the computation `o` and the record of its result. -/
def RunsPure (i : Instr) (o : Out α) (val : α → Value) : Prop :=
  ∀ s : State, exec i s = unlessDetached s (finishPure val o s)

theorem RunsPure.of_computes (h : RunsPure i o val) (hs : computes s = true) :
    exec i s = finishPure val o s := by
  rw [h s, unlessDetached_computes hs]

/-- A computation with a value records it and does nothing else. -/
theorem RunsPure.ok (h : RunsPure i o val) (hs : computes s = true) {v : α} (ho : o = .ok v) :
    exec i s = .next (s.record (.ok (val v))) := by
  rw [h.of_computes hs, ho]; rfl

theorem RunsPure.fault (h : RunsPure i o val) (hs : computes s = true) {f : Fault} (ho : o = .fault f) :
    exec i s = .fault f := by
  rw [h.of_computes hs, ho]; rfl

theorem RunsPure.refused (h : RunsPure i o val) (hs : computes s = true) {q : Refusal}
    (ho : o = .refuse q) : exec i s = .refused q := by
  rw [h.of_computes hs, ho]; rfl

theorem runsPure_pcrBand (p : U32) : RunsPure (.pcrBand p) (.ok (pcrBand p)) .dessc := fun _ => rfl

theorem runsPure_txPrediv (p : U32) : RunsPure (.txPrediv p) (.ok (txPrediv Config.P p)) .u8 :=
  fun _ => rfl

theorem runsPure_txPhyclk (p : U32) : RunsPure (.txPhyclk p) (txPhyclk p) .u32 := fun _ => rfl

theorem runsPure_txSerdiv (phy : U32) : RunsPure (.txSerdiv phy) (.ok (txSerdiv Config.P phy)) .u8 :=
  fun _ => rfl

theorem runsPure_txPixmux (p : U32) (sd : Byte) : RunsPure (.txPixmux p sd) (txPixmux p sd) .u8 :=
  fun _ => rfl

theorem runsPure_txDivreg (p : U32) (q sd : Byte) :
    RunsPure (.txDivreg p q sd) (txDivreg p q sd) .u8 := fun _ => rfl

theorem runsPure_computeTxPll (p : U32) :
    RunsPure (.computeTxPll p) (computeTxPll Config.P p) .txpll := fun _ => rfl

theorem runsPure_pclkOfTiming (ht vt : U16) (fr : Byte) :
    RunsPure (.pclkOfTiming ht vt fr) (pclkOfTiming ht vt fr) .u32 := fun _ => rfl

/-- Every operation that only computes is one computation, but for COMPUTE_PCR, which may draw (R166, R174). -/
theorem runsPure_of_isPure (hi : isPure i = true) (hpcr : ∀ p : U32, i ≠ .computePcr p) :
    ∃ (α : Type) (o : Out α) (val : α → Value), RunsPure i o val := by
  cases i with
  | computePcr p => exact absurd rfl (hpcr p)
  | pcrBand p => exact ⟨_, _, _, runsPure_pcrBand p⟩
  | txPrediv p => exact ⟨_, _, _, runsPure_txPrediv p⟩
  | txPhyclk p => exact ⟨_, _, _, runsPure_txPhyclk p⟩
  | txSerdiv phy => exact ⟨_, _, _, runsPure_txSerdiv phy⟩
  | txPixmux p sd => exact ⟨_, _, _, runsPure_txPixmux p sd⟩
  | txDivreg p q sd => exact ⟨_, _, _, runsPure_txDivreg p q sd⟩
  | computeTxPll p => exact ⟨_, _, _, runsPure_computeTxPll p⟩
  | pclkOfTiming ht vt fr => exact ⟨_, _, _, runsPure_pclkOfTiming ht vt fr⟩
  | bppLookup | activeWidth | videoCheck | modeLookup => exact ⟨_, _, _, fun _ => rfl⟩
  | _ => cases hi

/-! ## COMPUTE_PCR (R162, R163) -/

theorem exec_computePcr (hs : computes s = true) :
    exec (.computePcr p) s = finish (fun r => .pcr r.1 r.2) (computePcr Config.P p s) :=
  unlessDetached_computes hs _

theorem exec_computePcr_fits (hs : computes s = true) (hp : pcrFits Config.P p.toNat = true) :
    exec (.computePcr p) s = .next ({ s with draws := s.draws + pcrDraws Config.P p.toNat }.record
      (.ok (.pcr (desscOf p.toNat) (pcrIn Config.P s p.toNat)))) := by
  rw [exec_computePcr hs, computePcr_ok _ hp]; rfl

theorem exec_computePcr_overflow (hs : computes s = true) (hp : pcrFits Config.P p.toNat = false) :
    exec (.computePcr p) s = .refused .overflow := by
  rw [exec_computePcr hs, computePcr_refused _ hp]; rfl

/-- From 176000 kHz on the divider of M is 2 (R161). -/
theorem mDivOf_top (P : Params) {p : Nat} (hp : 176000 ≤ p) : mDivOf P p = 2 := if_pos hp

/-- Below 22000 kHz the divider of M is the parameter's (R165). -/
theorem mDivOf_low (P : Params) {p : Nat} (hp : p < 22000) : mDivOf P p = lowMDivValue P.pcrLowMDiv := by
  rw [mDivOf, if_neg (by omega), if_neg (by omega), if_neg (by omega), if_neg (by omega)]
  rfl

/-- COMPUTE_PCR admits every clock below 2^31: from 134217728 on the divider of M is 2 (R162). -/
theorem pcrFits_of_lt_half (P : Params) {p : Nat} (hp : p < 2147483648) : pcrFits P p = true := by
  by_cases hlow : p < 134217728
  · exact pcrFits_of_lt P hlow
  · simp only [pcrFits, mDivOf_top P (show 176000 ≤ p by omega), decide_eq_true_eq]
    omega

/-- In each band from 22000 kHz to the lower bound of the top one, M is between 14 and 28 (R163). -/
theorem mFullOf_bands (P : Params) {p : Nat} (hlow : 22000 ≤ p) (hhigh : p < 352000) :
    14000 ≤ mFullOf P p ∧ mFullOf P p < 29000 := by
  unfold mFullOf mDivOf
  split_ifs <;> omega

theorem mFullOf_top (P : Params) {p : Nat} (hp : 352000 ≤ p) : 28000 ≤ mFullOf P p := by
  rw [mFullOf, mDivOf_top P (by omega)]; omega

theorem mFullOf_low_div16 {P : Params} {p : Nat} (hp : p < 22000) (hd : P.pcrLowMDiv = .div16) :
    mFullOf P p < 15000 := by
  rw [mFullOf, mDivOf_low P hp, hd, lowMDivValue]; omega

theorem mFullOf_low (P : Params) {p : Nat} (hp : p < 22000) : mFullOf P p < 29000 := by
  rw [mFullOf, mDivOf_low P hp]
  cases P.pcrLowMDiv <;> simp only [lowMDivValue] <;> omega

/-- An admitted clock gives a quotient below 2^32 / 25. -/
theorem mFullOf_lt {P : Params} {p : Nat} (hp : pcrFits P p = true) : mFullOf P p < 171798692 := by
  simp only [pcrFits, decide_eq_true_eq] at hp
  rw [mFullOf]; omega

section

variable {P : Params} {n : Nat} (lo : U32)

theorem pcrOf_k_toNat : (pcrOf P n lo).k.toNat = mFullOf P n % 1000 * 16384 := by
  simp only [pcrOf, BitVec.toNat_ofNat]; omega

theorem pcrOf_m_toNat (hn : pcrFits P n = true) : (pcrOf P n lo).m.toNat = mFullOf P n / 1000 := by
  have := mFullOf_lt hn
  simp only [pcrOf, BitVec.toNat_ofNat]; omega

theorem pcrOf_mHi_toNat (hn : pcrFits P n = true) :
    (pcrOf P n lo).mHi.toNat = mFullOf P n / 1000 + 1 := by
  have := mFullOf_lt hn
  simp only [pcrOf, BitVec.toNat_ofNat]; omega

/-- Where M is not 0, `M_lo` is no draw (R166). -/
theorem pcrOf_mLo (hm : mFullOf P n / 1000 ≠ 0) :
    (pcrOf P n lo).mLo = BitVec.ofNat 32 (mFullOf P n / 1000 - 1) := if_neg hm

theorem pcrOf_mLo_toNat (hn : pcrFits P n = true) (hm : 1 ≤ mFullOf P n / 1000) :
    (pcrOf P n lo).mLo.toNat + 1 = mFullOf P n / 1000 := by
  have := mFullOf_lt hn
  rw [pcrOf_mLo lo (by omega), BitVec.toNat_ofNat]; omega

/-- Two draws give the same setting but for `M_lo` where M is 0 (R166). -/
theorem sameResult_pcrOf (lo' : U32) (d : DesscSetting) :
    sameResult (.ok (.pcr d (pcrOf P n lo))) (.ok (.pcr d (pcrOf P n lo'))) := by
  refine ⟨rfl, rfl, fun hm => ?_⟩
  have hfull : mFullOf P n / 1000 ≠ 0 := fun h0 => hm (by simp [pcrOf, h0])
  simp only [pcrOf, if_neg hfull]

end

/-! ## The same answer in every state (R174) -/

theorem sameResult_refl (r : Result) : sameResult r r := by
  cases r with
  | fail e => rfl
  | ok v =>
    cases v with
    | pcr d c => exact ⟨rfl, rfl, fun _ => rfl⟩
    | _ => rfl

/-- `i` answers in `s'` as in `s`: the same fault or refusal, or a next state that differs from the first in its
result and its draws only, with the same result but for the draw of `M_lo`. -/
def AnswersAlike (i : Instr) (s s' : State) : Prop :=
  (∀ t : State, exec i s = .next t → ∃ (r r' : Result) (n : Nat),
    t = { s with results := s.results ++ [r], draws := s.draws + n }
    ∧ exec i s' = .next { s' with results := s'.results ++ [r'], draws := s'.draws + n }
    ∧ sameResult r r')
  ∧ (∀ f : Fault, exec i s = .fault f → exec i s' = .fault f)
  ∧ ∀ q : Refusal, exec i s = .refused q → exec i s' = .refused q

/-- A next state in both states, with the same draws and the same result. -/
theorem AnswersAlike.of_next {r r' : Result} {n : Nat}
    (h : exec i s = .next ({ s with draws := s.draws + n }.record r))
    (h' : exec i s' = .next ({ s' with draws := s'.draws + n }.record r')) (hr : sameResult r r') :
    AnswersAlike i s s' := by
  refine ⟨fun t he => ?_, fun f he => ?_, fun q he => ?_⟩
  · cases h.symm.trans he
    exact ⟨r, r', n, rfl, h', hr⟩
  · cases h.symm.trans he
  · cases h.symm.trans he

theorem AnswersAlike.of_fault {f : Fault} (h : exec i s = .fault f) (h' : exec i s' = .fault f) :
    AnswersAlike i s s' := by
  refine ⟨fun t he => ?_, fun g he => ?_, fun q he => ?_⟩
  · cases h.symm.trans he
  · cases h.symm.trans he
    exact h'
  · cases h.symm.trans he

theorem AnswersAlike.of_refused {q : Refusal} (h : exec i s = .refused q) (h' : exec i s' = .refused q) :
    AnswersAlike i s s' := by
  refine ⟨fun t he => ?_, fun f he => ?_, fun q' he => ?_⟩
  · cases h.symm.trans he
  · cases h.symm.trans he
  · cases h.symm.trans he
    exact h'

/-- A computation has its outcome from the operands alone. -/
theorem RunsPure.answersAlike (h : RunsPure i o val) (hs : computes s = true) (hs' : computes s' = true) :
    AnswersAlike i s s' := by
  cases o with
  | ok v => exact .of_next (n := 0) (h.ok hs rfl) (h.ok hs' rfl) (sameResult_refl _)
  | fail e => exact .of_next (n := 0) (h.of_computes hs) (h.of_computes hs') (sameResult_refl (.fail e))
  | fault f => exact .of_fault (h.fault hs rfl) (h.fault hs' rfl)
  | refuse q => exact .of_refused (h.refused hs rfl) (h.refused hs' rfl)

/-- COMPUTE_PCR has its outcome from the clock, but for the draw. -/
theorem answersAlike_computePcr (p : U32) (hs : computes s = true) (hs' : computes s' = true) :
    AnswersAlike (.computePcr p) s s' := by
  cases hp : pcrFits Config.P p.toNat with
  | true =>
    exact .of_next (exec_computePcr_fits hs hp) (exec_computePcr_fits hs' hp) (sameResult_pcrOf _ _ _)
  | false => exact .of_refused (exec_computePcr_overflow hs hp) (exec_computePcr_overflow hs' hp)

end

/-! ## The statements (R161 to R174) -/

/-- Settles O25: the band's setting is `desscOf`, whose thresholds are tried from the top. -/
theorem pcrBandSelectsTheDivider : Obligations.PcrBandSelectsTheDivider := by
  refine ⟨refusedDetached_of_ne nofun nofun, fun p s hs => ?_⟩
  rw [(runsPure_pcrBand p).ok hs rfl, pcrBand_eq]
  refine ⟨rfl, fun h => ?_, fun h _ => ?_, fun h _ => ?_, fun h _ => ?_, fun _ => ?_⟩
  · rw [desscOf, if_pos h]
  · rw [desscOf, if_neg (by omega), if_pos h]
  · rw [desscOf, if_neg (by omega), if_neg (by omega), if_pos h]
  · rw [desscOf, if_neg (by omega), if_neg (by omega), if_neg (by omega), if_pos h]
  · rw [desscOf, if_neg (by omega), if_neg (by omega), if_neg (by omega), if_neg (by omega)]

/-- Settles O26: COMPUTE_PCR is admitted where its one product is below 2^32. -/
theorem computePcrComputesTheSetting : Obligations.ComputePcrComputesTheSetting :=
  fun _ _ hs => ⟨rfl, exec_computePcr_fits hs, exec_computePcr_overflow hs⟩

/-- Settles O27: the fields are read off `mFullOf`, and its bounds are those of the clock's band. -/
theorem pcrSettingsStayInRange : Obligations.PcrSettingsStayInRange := by
  intro p s hs hp
  have hfits := pcrFits_of_lt_half Config.P hp
  refine ⟨_, _, _, exec_computePcr_fits hs hfits, rfl, ?_⟩
  rw [pcrIn, pcrOf_k_toNat, pcrOf_m_toNat _ hfits, pcrOf_mHi_toNat _ hfits]
  refine ⟨by omega, by omega, fun hlow hhigh => ?_, fun h => ?_, fun h hd => ?_, fun h => ?_, rfl,
    pcrOf_mLo_toNat _ hfits⟩
  · have := mFullOf_bands Config.P hlow hhigh
    omega
  · have := mFullOf_top Config.P h
    omega
  · have := mFullOf_low_div16 h hd
    omega
  · have := mFullOf_low Config.P h
    omega

/-- Settles O28: 613566757 is the first clock whose product with 7 reaches 2^32. -/
theorem txPhyclkIsSevenHalves : Obligations.TxPhyclkIsSevenHalves := fun p _ hs =>
  ⟨rfl, fun h => (runsPure_txPhyclk p).ok hs (txPhyclk_ok (by omega)),
    fun h => (runsPure_txPhyclk p).refused hs (txPhyclk_refused (by omega))⟩

/-- Settles O29: both dividers are the band selections the statement writes out. -/
theorem txDividersSelectTheBand : Obligations.TxDividersSelectTheBand := fun p _ hs =>
  ⟨⟨rfl, (runsPure_txPrediv p).ok hs rfl⟩, rfl, (runsPure_txSerdiv p).ok hs rfl⟩

/-- Settles O30: the fixed 7, the bucket of the ratio, and the refusal are the three cases of TX_PIXMUX. -/
theorem txPixmuxBucketsTheRatio : Obligations.TxPixmuxBucketsTheRatio := by
  intro p sd s hs
  have hrun := runsPure_txPixmux p sd
  exact ⟨rfl, fun h => hrun.ok hs (txPixmux_fixed h),
    fun h0 h7 h2 => hrun.ok hs (txPixmux_ok h0 h7 h2),
    fun h0 h => hrun.refused hs (txPixmux_refused h0 h)⟩

/-- Settles O31: the checks of TX_DIVREG in their order: 7 times the clock, the two divisors, the product. -/
theorem txDivregDividesAndTruncates : Obligations.TxDivregDividesAndTruncates := by
  intro p q sd s hs
  have hrun := runsPure_txDivreg p q sd
  refine ⟨rfl, fun h7 => hrun.refused hs ?_, fun h7 hq => hrun.fault hs (txDivreg_fault h7 hq),
    fun h7 hq hp h => hrun.refused hs ?_, fun h7 hq hp h => hrun.ok hs ?_⟩
  · rw [txDivreg, txPhyclk_refused h7]; rfl
  · rw [txDivreg_divides h7 hq hp, mul32_refused h]; rfl
  · rw [txDivreg_divides h7 hq hp, mul32_ok h]; rfl

/-- Settles O32: the machine's parameters are well-formed, so the pre-divider divides every clock from 1 on. -/
theorem computeTxPllComputesTheSetting : Obligations.ComputeTxPllComputesTheSetting := by
  intro p s hs
  have hrun := runsPure_computeTxPll p
  exact ⟨rfl, fun h0 => hrun.fault hs (computeTxPll_zero _ h0),
    fun h1 h => hrun.ok hs (computeTxPll_ok Config.P_wellFormed h1 h),
    fun h1 h => hrun.refused hs (computeTxPll_refused Config.P_wellFormed h1 h)⟩

/-- Settles O33: the product of the totals never reaches 2^32, so the product with the rate decides. -/
theorem pclkOfTimingMultiplies : Obligations.PclkOfTimingMultiplies := by
  intro ht vt fr s hs
  have hrun := runsPure_pclkOfTiming ht vt fr
  exact ⟨rfl, fun h => hrun.ok hs (pclkOfTiming_ok h), fun h => hrun.refused hs (pclkOfTiming_refused h)⟩

/-- Settles O34: twelve of the operations are one computation from the operands; COMPUTE_PCR is one but for its draw
(log 6). -/
theorem pureOperationsOnlyCompute : Obligations.PureOperationsOnlyCompute := by
  intro i s s' hi hs hs'
  by_cases hpcr : ∃ p : U32, i = .computePcr p
  · obtain ⟨p, rfl⟩ := hpcr
    exact answersAlike_computePcr p hs hs'
  · obtain ⟨_, _, _, hrun⟩ := runsPure_of_isPure hi fun p h => hpcr ⟨p, h⟩
    exact hrun.answersAlike hs hs'

end Sys2Proof.Proofs
end

