-- ==== Sys2Proof/Proofs/Detector.lean ====
section
/-! The detector's operations (43_detector.md): the pure ones answer what `Laws/Detector` says of their computation,
DETECT what it says of DETECT's trace. -/

namespace Sys2Proof.Proofs

open Sys2Proof Sys2Proof.Machine Sys2Proof.Safety

section

variable {α : Type} {i : Instr} {o : Out α} {val : α → Value} {s : State}

/-! ## The operations that only compute (R200 to R202, R205) -/

/-- A computation that fails records its failure and does nothing else. -/
theorem RunsPure.fails (h : RunsPure i o val) (hs : computes s = true) {e : ErrCode} (ho : o = .fail e) :
    exec i s = .next (s.record (.fail e)) := by
  rw [h.of_computes hs, ho]; rfl

theorem runsPure_bppLookup (f : BitVec 4) :
    RunsPure (.bppLookup f) (.ok (bppLookup Config.P f)) fun r => .ratio r.1 r.2 := fun _ => rfl

theorem runsPure_activeWidth (wc : U16) (f : BitVec 4) :
    RunsPure (.activeWidth wc f) (activeWidth Config.P wc f) .u16 := fun _ => rfl

theorem runsPure_videoCheck (w h : U16) :
    RunsPure (.videoCheck w h) (videoCheck w h) fun _ => .unit := fun _ => rfl

theorem runsPure_modeLookup (w h : U16) (r : Byte) :
    RunsPure (.modeLookup w h r) (modeLookup Config.P w h r) fun x => .mode x.1 x.2 := fun _ => rfl

end

/-! ## The ratios of the format codes (R200) -/

/-- What R200 asks of the table of ratios and of the three codes the source gives. -/
structure BppLegal (P : Params) : Prop where
  length : P.bpp.length = 16
  known : P.bpp.countP Option.isSome = 13
  divisor {r : Nat × Nat} : some r ∈ P.bpp → 1 ≤ r.2
  steady : P.bppEntry steadyFmt = some (1, 3)
  raw10 : P.bppEntry P.fmtRaw10 = some (5, 4)
  yuv422 : P.bppEntry P.fmtYuv422 = some (5, 2)

theorem bppLegal_of_wellFormed {P : Params} (h : P.wellFormed = true) : BppLegal P := by
  simp only [Params.wellFormed, Params.bppWellFormed, Bool.and_eq_true, decide_eq_true_eq, beq_iff_eq,
    List.all_eq_true, bppKnown, ← List.countP_eq_length_filter] at h
  obtain ⟨⟨-, ⟨⟨⟨hlength, hknown⟩, hdivisor⟩, -⟩, ⟨hsteady, hraw10⟩, hyuv422⟩, -⟩ := h
  exact ⟨hlength, hknown, fun hr => by simpa using hdivisor _ hr, hsteady, hraw10, hyuv422⟩

/-- An entry a code finds is in the table. -/
theorem mem_bpp_of_bppEntry {P : Params} {f : BitVec 4} {r : Nat × Nat} (h : P.bppEntry f = some r) :
    some r ∈ P.bpp :=
  List.mem_of_getElem? (Option.join_eq_some_iff.1 h)

/-- No code has a ratio with divisor 0. -/
theorem one_le_divisor {P : Params} (hP : BppLegal P) (f : BitVec 4) :
    1 ≤ ((P.bppEntry f).getD (1, 3)).2 := by
  cases h : P.bppEntry f with
  | none => decide
  | some r => exact hP.divisor (mem_bpp_of_bppEntry h)

/-- Counting the known entries by their place in the table. -/
theorem countP_range_join (l : List (Option (Nat × Nat))) :
    ((List.range l.length).countP fun n => (l[n]?.join).isSome) = l.countP Option.isSome := by
  induction l with
  | nil => rfl
  | cons x l ih =>
    simp [List.range_succ_eq_map, List.countP_cons, List.countP_map, Function.comp_def, ih]

theorem countP_bppEntry {P : Params} (hP : BppLegal P) :
    ((List.range 16).countP fun n => (P.bppEntry (BitVec.ofNat 4 n)).isSome) = 13 := by
  rw [← hP.known, ← countP_range_join, hP.length]
  refine List.countP_congr fun n hn => ?_
  have hcode : (BitVec.ofNat 4 n).toNat = n := by
    rw [BitVec.toNat_ofNat, Nat.mod_eq_of_lt (List.mem_range.1 hn)]
  rw [Params.bppEntry, hcode]

/-! ## The mode lookup (R205) -/

/-- The first entry that matches is found, with its place. -/
theorem findMode_first {w h : U16} {r : Byte} {l : List TimingEntry} {k : Nat} {e : TimingEntry}
    (i : Nat) (hk : l[k]? = some e) (hm : entryMatches w h r e = true)
    (hfirst : ∀ (j : Nat) (e' : TimingEntry), j < k → l[j]? = some e' → entryMatches w h r e' = false) :
    findMode w h r i l = some (i + k, e) := by
  induction l generalizing i k with
  | nil => cases hk
  | cons x l ih =>
    rw [findMode, modeMatches_eq]
    cases k with
    | zero =>
      cases hk
      exact if_pos hm
    | succ k =>
      rw [if_neg (by simp [hfirst 0 x (by omega) rfl]),
        ih (i + 1) hk fun j e' hj he' => hfirst (j + 1) e' (by omega) he']
      simp only [Option.some.injEq, Prod.mk.injEq, and_true]
      omega

theorem modeLookup_first {P : Params} {w h : U16} {r : Byte} {k : Nat} {e : TimingEntry}
    (hk : P.timingTable[k]? = some e) (hm : entryMatches w h r e = true)
    (hfirst : ∀ (j : Nat) (e' : TimingEntry), j < k → P.timingTable[j]? = some e' →
      entryMatches w h r e' = false) : modeLookup P w h r = .ok (k, e) := by
  rw [modeLookup, findMode_first 0 hk hm hfirst, Nat.zero_add]

theorem execWith_modeLookup_fails {P : Params} {w h : U16} {r : Byte} {s : State}
    (hs : computes s = true) (hnone : ∀ e ∈ P.timingTable, entryMatches w h r e = false) :
    execWith P (.modeLookup w h r) s = .next (s.record (.fail .noMatchingMode)) := by
  have hfind : P.timingTable.find? (entryMatches w h r) = none := by simpa using hnone
  rw [execWith, runModeLookup, unlessDetached_computes hs, modeLookup_fail hfind]
  rfl

/-! ## DETECT (R204) -/

theorem exec_detect_live {s : State} (hl : s.live = true) :
    exec .detect s = finish .desc (detect Config.P s) := onContext_live hl _

theorem execWith_detect_wraps {P : Params} {s : State} {sot : Fin 4 → Byte × Byte} (hl : s.live = true)
    (h : reachesWrap P sot s) : execWith P .detect s = .refused .bulkWrap := by
  obtain ⟨s', hd⟩ := detect_wraps h
  rw [execWith, runDetect, onContext_live hl, hd]
  rfl

theorem detect_failsAtCut (hP : detectFits Config.P) (sot : Fin 4 → Byte × Byte) {blk : List Byte}
    (hb : blk.length = 5) (fr lp : Byte) {s : State} (hl : s.live = true) :
    failsAtCut .detect s s (detectEv Config.P sot blk fr lp)
      (fun k c => { c with desc := descCut Config.P blk fr k }) := by
  intro k hk hg
  rw [exec_detect_live hl]
  exact finish_fail (fails_detect hP sot hb fr lp k hk) _ hg

/-! ## The statements (R200 to R205) -/

/-- Settles O35: the machine's parameters are well-formed, which gives the divisors, the three ratios and the number
of known codes. -/
theorem bppLookupGivesTheRatio : Obligations.BppLookupGivesTheRatio := by
  have hP := bppLegal_of_wellFormed Config.P_wellFormed
  exact ⟨fun f _ hs => ⟨rfl, one_le_divisor hP f, (runsPure_bppLookup f).ok hs rfl⟩, hP.steady, hP.raw10,
    hP.yuv422, countP_bppEntry hP⟩

/-- Settles O36: ACTIVE_WIDTH has a width where the product and the quotient fit, and else the refusal of the first
that does not. -/
theorem activeWidthScalesTheWordCount : Obligations.ActiveWidthScalesTheWordCount := by
  intro wc f s hs
  have hrun := runsPure_activeWidth wc f
  exact ⟨rfl, fun h => hrun.ok hs (activeWidth_ok h), fun h => hrun.refused hs (activeWidth_refused h)⟩

/-- Settles O37: VIDEO_CHECK compares both sizes with 400. -/
theorem videoCheckNeedsFourHundred : Obligations.VideoCheckNeedsFourHundred := by
  intro w h s hs
  have hrun := runsPure_videoCheck w h
  exact ⟨rfl, fun hw hh => hrun.ok hs (videoCheck_ok hw hh), fun hlow => hrun.fails hs (videoCheck_fail hlow)⟩

/-- Settles O38: each count is two bytes in the field order, and the format code the low four bits of its byte. -/
theorem rxBlockParsesByLayout : Obligations.RxBlockParsesByLayout := by
  intro P b0 b1 b2 b3 b4
  refine ⟨fun ho => ?_, fun ho => ?_, ?_⟩
  · simp only [parseRxBlock, u16Of_toNat, ho, and_self]
  · simp only [parseRxBlock, u16Of_toNat, ho, and_self]
  · simp [parseRxBlock]

/-- Settles O41: the lookup runs through the table from its head, with its match within 3 Hz written without wrap. -/
theorem modeLookupFindsTheFirstMatch : Obligations.ModeLookupFindsTheFirstMatch := fun w h r _ hs =>
  ⟨rfl, fun _ _ hk hm hfirst => (runsPure_modeLookup w h r).ok hs (modeLookup_first hk hm hfirst),
    fun _ hnone => execWith_modeLookup_fails hs hnone⟩

/-- Settles O40: DETECT issues its trace and leaves its descriptor, and ends by the width and the check of it; a cut
keeps the fields written before it. That the machine's runs do not pass 0xFF is the statement's hypothesis (log 8). -/
theorem detectAcquiresTheTiming : Obligations.DetectAcquiresTheTiming := by
  refine ⟨rfl, fun _ => refusedDetached_of_ne nofun nofun, fun _ _ _ => execWith_detect_wraps, ?_⟩
  intro s sot blk fr lp hl hP hb
  refine ⟨fun hg hw hact vact => ?_, fun hg hw hlow => ?_, fun hg hw => ?_,
    detect_failsAtCut hP sot hb fr lp hl⟩
  · rw [exec_detect_live hl]
    exact finish_ok (leaves_detect_ok hP sot hb fr lp hw hact vact) _ hg
  · rw [exec_detect_live hl]
    exact finish_fail (leaves_detect_noVideo hP sot hb fr lp hw hlow) _ hg
  · rw [exec_detect_live hl]
    exact finish_refuse (leaves_detect_refused hP sot hb fr lp hw) _ hg

end Sys2Proof.Proofs
end

