-- ==== Sys2Proof/Proofs/Writes.lean ====
section
/-! Every change the block makes to its context is one of a few writes. A property of the context that these writes
keep is kept by every operation (10_state.md, 44_sequencer.md). -/

namespace Sys2Proof.Proofs

open Sys2Proof Sys2Proof.Machine Sys2Proof.Safety

/-- One write of the block to its context. RxPllConfig becomes the control point only together with a selected timing,
that of a table entry whose pixel clock is admitted (R207, R244). -/
inductive Write (P : Params) (c : Ctx) : Ctx → Prop
  | construct : Write P c Ctx.reset
  | count (n : Nat) : Write P c { c with accessCount := n }
  | pending (b : Bool) : Write P c { c with pending := b }
  | detached (b : Bool) : Write P c { c with detached := b }
  | steady (b : Bool) : Write P c { c with steady := b }
  | err (e : ErrCode) : Write P c { c with err := e.code }
  | stage {st : Stage} (h : st ≠ .rxPllConfig) : Write P c { c with stage := stageCode st }
  | retry {n : U32} (h : P.retryClearOnFallback = true → n.toNat ≤ retryLimit) :
      Write P c { c with retry := n }
  | desc (d : RxVideoDescriptor) : Write P c { c with desc := d }
  | select {e : TimingEntry} (hmem : e ∈ P.timingTable) (hfits : pclkFits e = true) :
      Write P c { c with sel := timingFrom e, selValid := true, stage := stageCode .rxPllConfig }
  | pll (d : DesscSetting) (r : PcrSetting) : Write P c { c with dsc := d, pcr := r }
  | pclkRb (p : U32) : Write P c { c with pclkRb := p }
  | txpll (t : TxPllSetting) : Write P c { c with txpll := t }
  | live (t : VideoTiming) : Write P c { c with live := t }

/-- Every write keeps the property `J` of contexts. -/
def KeptByWrites (P : Params) (J : Ctx → Prop) : Prop := ∀ c c' : Ctx, Write P c c' → J c → J c'

/-- The context of a state has the property `J`. -/
def OnCtx (J : Ctx → Prop) (s : State) : Prop := J s.ctx

/-- A fallback that clears the counter leaves at most the limit in it (R245, D25). -/
theorem clearedCount_le (counted : U32) :
    (if decide (retryLimit < counted.toNat) then 0 else counted).toNat ≤ retryLimit := by
  split
  · exact Nat.zero_le _
  · next hle => simpa using hle

/-- The entry MODE_LOOKUP answers is one of the table (R205). -/
theorem mem_of_modeLookup {P : Params} {w h : U16} {r : Byte} {x : Nat × TimingEntry}
    (hx : modeLookup P w h r = .ok x) : x.2 ∈ P.timingTable := by
  have hfind := findMode_find w h r 0 P.timingTable
  unfold modeLookup at hx
  split at hx
  · cases hx
    rename_i hsome
    rw [hsome] at hfind
    exact List.mem_of_find?_eq_some hfind.symm
  · cases hx

section

variable {α : Type} {P : Params} {J : Ctx → Prop} (hJ : KeptByWrites P J)
include hJ

/-- A write to the context of a state. -/
theorem KeptByWrites.modCtx {f : Ctx → Ctx} (hf : ∀ c, Write P c (f c)) {s : State} (hs : OnCtx J s) :
    OnCtx J (s.modCtx f) := hJ _ _ (hf s.ctx) hs

/-! ## Transport operations (41_transport.md): only the access counter moves -/

theorem KeptByWrites.bus {x : BusOp α} (hx : StopsAtFirstErr x) : BusKeeps (Carries (OnCtx J)) x := by
  intro s hs
  obtain ⟨T, -, ⟨v, hv, -⟩ | ⟨hnone, -⟩⟩ := hx s
  · rw [hv]
    exact hJ _ _ (.count _) hs
  · rw [hnone]
    exact hJ _ _ (.count _) hs

theorem KeptByWrites.wrList (l : WriteList) : BusKeeps (Carries (OnCtx J)) (wrList P l) := by
  induction l with
  | nil => exact busPure_carries ()
  | cons g l ih => exact busBind_carries (hJ.bus (.wrSeq P g.bank g.entries)) fun _ => ih

omit hJ in
theorem waitGap_carries (g : Gap) : BusKeeps (Carries (OnCtx J)) (waitGap g) := by
  cases g with
  | none => exact busPure_carries ()
  | pcrGap | txlockGap => exact fun _ => id

theorem KeptByWrites.pollLoop (sb : StatusBit) (g : Gap) (n : Nat) :
    BusKeeps (Carries (OnCtx J)) (pollLoop P sb g n) := by
  induction n with
  | zero => exact busPure_carries false
  | succ n ih =>
    refine busBind_carries (hJ.bus (.rd P _ _)) fun v => ?_
    split
    · exact busPure_carries true
    · exact busBind_carries (waitGap_carries g) fun _ => ih

theorem KeptByWrites.poll (i : StatusId) (n : Byte) (g : Gap) :
    BusKeeps (Carries (OnCtx J)) (poll P i n g) := hJ.pollLoop _ g _

/-! ## Steps of the operations -/

theorem KeptByWrites.opModCtx {f : Ctx → Ctx} (hf : ∀ c, Write P c (f c)) :
    OpKeeps (Carries (OnCtx J)) (Op.modCtx f) := fun _ => hJ.modCtx hf

theorem KeptByWrites.modDesc (f : RxVideoDescriptor → RxVideoDescriptor) :
    OpKeeps (Carries (OnCtx J)) (Op.modDesc f) := hJ.opModCtx fun _ => .desc _

theorem KeptByWrites.rdBulkOp (b a n : Byte) : OpKeeps (Carries (OnCtx J)) (rdBulkOp P b a n) := by
  unfold Machine.rdBulkOp
  split
  · exact fun _ => id
  · exact (hJ.bus (.rdBulk P b a n)).ofBus

/-! ## Taking a failure (R245, R250, R257) -/

theorem KeptByWrites.setErr (e : ErrCode) {s : State} (hs : OnCtx J s) : OnCtx J (setErr e s) :=
  hJ.modCtx (fun _ => .err e) hs

theorem KeptByWrites.setStage {st : Stage} (h : st ≠ .rxPllConfig) {s : State} (hs : OnCtx J s) :
    OnCtx J (setStage st s) := hJ.modCtx (fun _ => .stage h) hs

theorem KeptByWrites.schedule (d : DelayClass) {s : State} (hs : OnCtx J s) :
    OnCtx J (schedule P d s) := by
  rw [OnCtx, schedule_ctx]
  exact hJ _ _ (.pending true) hs

theorem KeptByWrites.fallback {s : State} (hs : OnCtx J s) (falls : Bool) :
    OnCtx J (if falls then Machine.setStage .prepare s else s) := by
  cases falls with
  | false => exact hs
  | true => exact hJ.setStage (by decide) hs

theorem KeptByWrites.retryUpdate (k : Bool) (e : ErrCode) {s : State} (hs : OnCtx J s) :
    OnCtx J (retryUpdate P k e s) := by
  refine hJ.schedule .short (hJ.setErr e (hJ.fallback (hJ.modCtx (fun _ => .retry fun hclear => ?_) hs) _))
  rw [hclear, Bool.and_true]
  exact clearedCount_le _

theorem KeptByWrites.deferTransportError {s : State} (hs : OnCtx J s) :
    OnCtx J (deferTransportError P s) := hJ.schedule .defer (hJ.setErr .transportError hs)

theorem KeptByWrites.backToRxTiming (e : ErrCode) :
    OpKeeps (Carries (OnCtx J)) (backToRxTiming P e) :=
  andThen_carries (fun _ => hJ.setErr e) <| andThen_carries (fun _ => hJ.setStage (by decide)) <|
  andThen_carries (fun _ => hJ.schedule .retry) fun _ => id

theorem KeptByWrites.continueTo {st : Stage} (h : st ≠ .rxPllConfig) :
    OpKeeps (Carries (OnCtx J)) (continueTo st) :=
  andThen_carries (fun _ => hJ.setStage h) fun _ => id

/-! ## DETECT (R204) -/

theorem KeptByWrites.readSot (is : List (Fin 4)) : OpKeeps (Carries (OnCtx J)) (readSot P is) := by
  induction is with
  | nil => exact fun _ => id
  | cons i is ih => exact andThen_carries (hJ.rdBulkOp _ _ 2) ih

theorem KeptByWrites.readLanepack : OpKeeps (Carries (OnCtx J)) (readLanepack P) := by
  unfold Machine.readLanepack
  split
  · exact fun _ => id
  · exact bind_carries (hJ.bus (.rd P _ _)).ofBus fun v => hJ.modDesc _

theorem KeptByWrites.detect : OpKeeps (Carries (OnCtx J)) (detect P) :=
  andThen_carries (hJ.modDesc _) <| andThen_carries (hJ.readSot _) <|
  andThen_carries (hJ.bus (.wr P _ _ _)).ofBus <| bind_carries (hJ.rdBulkOp _ _ 5) fun _ =>
  andThen_carries (hJ.modDesc _) <| bind_carries (hJ.bus (.rd P _ _)).ofBus fun _ =>
  andThen_carries (hJ.modDesc _) <| andThen_carries hJ.readLanepack <|
  bind_carries (fun _ => id) fun _ => andThen_carries (hJ.modDesc _) <|
  andThen_carries (fun _ => id) <| bind_carries (fun _ => id) fun _ _ => id

/-! ## The stages (R243, R244, R246 to R248) -/

theorem KeptByWrites.stagePrepare : OpKeeps (Carries (OnCtx J)) (stagePrepare P) := by
  refine andThen_carries (fun _ => id) <| bind_carries (hJ.rdBulkOp _ _ _) fun id' =>
    andThen_carries ?_ <| andThen_carries (hJ.wrList _).ofBus <|
    andThen_carries (hJ.wrList _).ofBus (hJ.continueTo (by decide))
  split <;> exact fun _ => id

theorem KeptByWrites.rxTimingFailed (e : ErrCode) :
    OpKeeps (Carries (OnCtx J)) (rxTimingFailed P e) := fun _ => hJ.retryUpdate _ e

/-- RxTimingConfig selects the timing of the entry the lookup found, if its clock is admitted (R207, R244). -/
theorem KeptByWrites.rxTimingSelect (d : RxVideoDescriptor) :
    OpKeeps (Carries (OnCtx J)) (rxTimingSelect P d) := by
  unfold Machine.rxTimingSelect
  split
  · rename_i x hx
    cases hfits : pclkFits x.2 with
    | true =>
      rw [timingOf_ok hfits]
      exact fun s => hJ _ _ (.select (mem_of_modeLookup hx) hfits)
    | false =>
      rw [timingOf_refused hfits]
      exact fun _ => id
  · exact andThen_carries (fun _ => id) (hJ.rxTimingFailed _)
  all_goals exact fun _ => id

theorem KeptByWrites.stageRxTiming : OpKeeps (Carries (OnCtx J)) (stageRxTiming P) := by
  intro s hs
  have hd := hJ.detect s hs
  unfold Machine.stageRxTiming
  split <;> rename_i heq <;> rw [heq] at hd
  · exact hJ.rxTimingSelect _ _ hd
  · exact hJ.rxTimingFailed _ _ hd
  all_goals exact hd

theorem KeptByWrites.rxPllDone : OpKeeps (Carries (OnCtx J)) (rxPllDone P) :=
  andThen_carries (hJ.wrList _).ofBus (hJ.continueTo (by decide))

theorem KeptByWrites.rxPllVideoCheck (stable : Bool) :
    OpKeeps (Carries (OnCtx J)) (rxPllVideoCheck P stable) := by
  unfold Machine.rxPllVideoCheck
  split
  · exact hJ.rxPllDone
  · split
    · exact hJ.backToRxTiming _
    · exact andThen_carries (fun _ => id) hJ.rxPllDone

omit hJ in
theorem computePcr_carries (p : U32) : OpKeeps (Carries (OnCtx J)) (computePcr P p) := by
  refine bind_carries (fun _ => id) fun t => bind_carries ?_ fun lo _ => id
  unfold pcrMLo
  split <;> exact fun _ => id

theorem KeptByWrites.stageRxPll : OpKeeps (Carries (OnCtx J)) (stageRxPll P) := by
  refine bind_carries (fun _ => id) fun c => ?_
  split
  · refine bind_carries (computePcr_carries _) fun r =>
      andThen_carries (hJ.opModCtx fun _ => .pll _ _) <| andThen_carries (hJ.wrList _).ofBus <|
      andThen_carries (hJ.wrList _).ofBus <| bind_carries (hJ.poll _ _ _).ofBus fun ok1 => ?_
    split
    · exact bind_carries (hJ.poll _ _ _).ofBus fun ok2 => hJ.rxPllVideoCheck ok2
    · exact hJ.backToRxTiming _
  · exact fun _ => id

theorem KeptByWrites.txUnlocked : OpKeeps (Carries (OnCtx J)) (txUnlocked P) :=
  andThen_carries (fun _ => id) <| andThen_carries (fun _ => hJ.setErr _) <|
  andThen_carries (fun _ => hJ.schedule .retry) fun _ => id

theorem KeptByWrites.stageTxVidCfg : OpKeeps (Carries (OnCtx J)) (stageTxVidCfg P) := by
  refine bind_carries (hJ.rdBulkOp _ _ _) fun bytes =>
    andThen_carries (hJ.opModCtx fun _ => .pclkRb _) <| bind_carries (fun _ => id) fun t =>
    andThen_carries (hJ.opModCtx fun _ => .txpll _) <| andThen_carries (hJ.wrList _).ofBus <|
    andThen_carries (hJ.wrList _).ofBus <| andThen_carries (hJ.wrList _).ofBus <|
    bind_carries (hJ.poll _ _ _).ofBus fun ok => ?_
  split
  · exact hJ.continueTo (by decide)
  · exact hJ.txUnlocked

theorem KeptByWrites.stageTxVidOut : OpKeeps (Carries (OnCtx J)) (stageTxVidOut P) :=
  bind_carries (hJ.rdBulkOp _ _ _) fun _ => andThen_carries (hJ.opModCtx fun _ => .live _) <|
  andThen_carries (hJ.wrList _).ofBus <| andThen_carries (hJ.wrList _).ofBus <|
  andThen_carries (fun _ hs => hJ _ _ (.err .none) (hJ _ _ (.steady true) hs)) fun _ => id

/-! ## INVOKE (R251) -/

theorem KeptByWrites.runStage : OpKeeps (Carries (OnCtx J)) (runStage P) := by
  intro s
  unfold Machine.runStage
  split
  · exact hJ.stagePrepare s
  · exact hJ.stageRxTiming s
  · exact hJ.stageRxPll s
  · exact hJ.stageTxVidCfg s
  · exact hJ.stageTxVidOut s
  · exact id

theorem KeptByWrites.invokeLoop (n : Nat) : OpKeeps (Carries (OnCtx J)) (invokeLoop P n) := by
  induction n with
  | zero => exact fun _ => id
  | succ n ih =>
    intro s hs
    have hr := hJ.runStage s hs
    unfold Machine.invokeLoop
    split <;> rename_i heq <;> rw [heq] at hr
    · exact ih _ hr
    · exact hr
    · exact hJ.deferTransportError hr
    all_goals exact hr

theorem KeptByWrites.invoke : OpKeeps (Carries (OnCtx J)) (invoke P) := hJ.invokeLoop 5

/-! ## The operations -/

variable {s t : State}

theorem KeptByWrites.enableEffect (hs : OnCtx J s) : OnCtx J (enableEffect P s) :=
  hJ.schedule .now (hJ _ _ (.steady false) (hJ.setStage (st := .prepare) (by decide) hs))

theorem KeptByWrites.detachEffect (hs : OnCtx J s) : OnCtx J (detachEffect s) :=
  hJ _ _ (.detached true) (hJ _ _ (.pending false) hs)

theorem KeptByWrites.execAttach {c : BitVec 3} (he : execAttach c s = .next t) :
    EndsIn (Carries (OnCtx J)) s t := by
  obtain ⟨-, ⟨e, rfl⟩ | rfl⟩ := execAttach_next he
  · exact ⟨s, _, id, rfl⟩
  · exact ⟨construct s, _, hJ _ _ .construct, rfl⟩

theorem KeptByWrites.runTick (he : runTick P s = .next t) : EndsIn (Carries (OnCtx J)) s t := by
  unfold Machine.runTick at he
  split at he
  · cases he
  · split at he
    · exact endsIn_record id he
    · split at he
      · exact endsIn_record id he
      · exact endsIn_finish (fun hs => hJ.invoke _ (hJ.modCtx (fun _ => .pending false) hs)) he

theorem KeptByWrites.runRdbulk {b a n : Byte} (he : runRdbulk P b a n s = .next t) :
    EndsIn (Carries (OnCtx J)) s t := by
  have hk := (onContext_next he).2
  split at hk
  · cases hk
  · exact endsIn_record (hJ.bus (.rdBulk P b a n) s) hk

theorem KeptByWrites.endsIn_execWith {i : Instr} (he : execWith P i s = .next t) :
    EndsIn (Carries (OnCtx J)) s t := by
  cases i with
  | attach c => exact hJ.execAttach he
  | enable => exact endsIn_onContext_record hJ.enableEffect he
  | disable => exact endsIn_onContext_record id he
  | detach => exact endsIn_onContext_record hJ.detachEffect he
  | tick => exact hJ.runTick he
  | banksel b => exact endsIn_onContext_bus (hJ.bus (.bankSel P b)) he
  | wr b a v => exact endsIn_onContext_bus (hJ.bus (.wr P b a v)) he
  | wrseq b ps => exact endsIn_onContext_bus (hJ.bus (.wrSeq P b ps)) he
  | rd b a => exact endsIn_onContext_bus (hJ.bus (.rd P b a)) he
  | rdbulk b a n => exact hJ.runRdbulk he
  | computePcr p => exact endsIn_unlessDetached_op (computePcr_carries p) he
  | pcrBand | txPrediv | txPhyclk | txSerdiv | txPixmux | txDivreg | computeTxPll | pclkOfTiming
  | bppLookup | activeWidth | videoCheck | modeLookup =>
    exact endsIn_finish id (unlessDetached_next he)
  | detect => exact endsIn_onContext_op hJ.detect he
  | stagePrepare => exact endsIn_onContext_op hJ.stagePrepare he
  | stageRxtiming => exact endsIn_onContext_op hJ.stageRxTiming he
  | stageRxpll => exact endsIn_onContext_op hJ.stageRxPll he
  | stageTxvidcfg => exact endsIn_onContext_op hJ.stageTxVidCfg he
  | stageTxvidout => exact endsIn_onContext_op hJ.stageTxVidOut he
  | poll j n g => exact endsIn_onContext_bus (hJ.poll j n g) he
  | schedule d => exact endsIn_onContext_record (hJ.schedule d) he
  | retryUpdate k e => exact endsIn_onContext_record (hJ.retryUpdate k e) he
  | invoke => exact endsIn_onContext_op hJ.invoke he

/-- A property of the context that every write keeps, every operation keeps. -/
theorem KeptByWrites.execWith {i : Instr} (he : execWith P i s = .next t) (hs : J s.ctx) : J t.ctx := by
  obtain ⟨u, r, hu, rfl⟩ := hJ.endsIn_execWith he
  exact hu hs

end

/-- A property of the context that every write keeps, every step of the machine keeps. -/
theorem KeptByWrites.step {J : Ctx → Prop} (hJ : KeptByWrites Config.P J) {s t : State}
    (he : step s = .next t) (hs : J s.ctx) : J t.ctx := by
  obtain rfl | ⟨i, rest, hx⟩ := step_next he
  · exact hs
  · rw [exec_eq_execWith] at hx
    exact hJ.execWith (s := s.advance rest) hx hs

end Sys2Proof.Proofs
end

