-- ==== Sys2Proof/Proofs/SelectedTiming.lean ====
section
/-! The selected timing (R207, R173): what the writes of `Proofs/Writes` do to it. -/

namespace Sys2Proof.Proofs

open Sys2Proof Sys2Proof.Machine Sys2Proof.Safety

/-- The selected timing of a context, once there is one, is that of a table entry. -/
def SelectsFromTable (P : Params) (c : Ctx) : Prop :=
  c.selValid = true → ∃ e : TimingEntry, e ∈ P.timingTable ∧ pclkFits e = true ∧ c.sel = timingFrom e

/-- Construction clears the selection, a selection is of a table entry, and no other write touches it. -/
theorem keptByWrites_selectsFromTable (P : Params) : KeptByWrites P (SelectsFromTable P) := by
  intro c c' hw hc
  cases hw with
  | construct => exact nofun
  | select hmem hfits => exact fun _ => ⟨_, hmem, hfits, rfl⟩
  | _ => exact hc

/-- Settles O55: the selected timing changes by construction and by RxTimingConfig alone, which takes it from the entry
it looked up. -/
theorem selectedTimingIsATableEntry : Obligations.SelectedTimingIsATableEntry :=
  fun _ _ hs he => (keptByWrites_selectsFromTable Config.P).step he hs

end Sys2Proof.Proofs
end

