-- ==== Sys2Proof/Proofs/StageEnds.lean ====
section
/-! How the stage operations end, and what they do to the control point and the retry counter (R240 to R248). -/

namespace Sys2Proof.Proofs

open Sys2Proof Sys2Proof.Machine Sys2Proof.Safety

/-! ## Outcomes of a computation (R160, R309) -/

/-- A computation that does not fail and whose only fault is DivZero. -/
def Calculates {α : Type} : Out α → Prop
  | .ok _ => True
  | .fail _ => False
  | .fault f => f = .divZero
  | .refuse _ => True

theorem Calculates.bind {α β : Type} {o : Out α} {f : α → Out β} (ho : Calculates o)
    (hf : ∀ v, Calculates (f v)) : Calculates (o.bind f) := by
  cases o with
  | ok v => exact hf v
  | fail e => exact ho
  | fault x => exact ho
  | refuse q => exact ho

theorem calculates_mul32 (a b : Nat) : Calculates (mul32 a b) := by
  unfold mul32
  split <;> trivial

theorem calculates_txPhyclk (p : U32) : Calculates (txPhyclk p) :=
  (calculates_mul32 _ _).bind fun _ => trivial

theorem calculates_txPixmux (p : U32) (sd : Byte) : Calculates (txPixmux p sd) := by
  unfold txPixmux
  split
  · trivial
  · exact (calculates_txPhyclk p).bind fun _ => (calculates_mul32 _ _).bind fun _ =>
      (calculates_mul32 _ _).bind fun _ => trivial

theorem calculates_txDivreg (p : U32) (q sd : Byte) : Calculates (txDivreg p q sd) := by
  refine (calculates_txPhyclk p).bind fun phy => ?_
  split
  · exact rfl
  · split
    · exact rfl
    · exact (calculates_mul32 _ _).bind fun _ => trivial

theorem calculates_computeTxPll (P : Params) (p : U32) : Calculates (computeTxPll P p) :=
  (calculates_txPhyclk p).bind fun _ => (calculates_txPixmux p _).bind fun _ =>
    (calculates_txDivreg p _ _).bind fun _ => trivial

theorem calculates_activeWidth (P : Params) (wc : U16) (f : BitVec 4) : Calculates (activeWidth P wc f) := by
  refine (calculates_mul32 _ _).bind fun t => ?_
  dsimp only
  split <;> trivial

theorem calculates_timingOf (e : TimingEntry) : Calculates (timingOf e) :=
  Calculates.bind ((calculates_mul32 _ _).bind fun _ => (calculates_mul32 _ _).bind fun _ => trivial)
    fun _ => trivial

/-! ## Outcomes of an operation -/

/-- An operation ended with a value and a context in `Q`, or failed with a code in `E` and a context in `J`, or was
refused, or faulted DivZero. -/
def EndsAs {α : Type} (J : Ctx → Prop) (E : ErrCode → Prop) (Q : α → Ctx → Prop) : Out α × State → Prop
  | (.ok v, t) => Q v t.ctx
  | (.fail e, t) => E e ∧ J t.ctx
  | (.fault f, _) => f = .divZero
  | (.refuse _, _) => True

/-- From a context in `J` the operation ends so. -/
def Meets {α : Type} (J : Ctx → Prop) (E : ErrCode → Prop) (Q : α → Ctx → Prop) (x : Op α) : Prop :=
  ∀ s : State, J s.ctx → EndsAs J E Q (x s)

/-- A property of the context that does not read the access counter, which is all a transaction moves (R140). -/
def IgnoresCount (J : Ctx → Prop) : Prop := ∀ (c : Ctx) (n : Nat), J c → J { c with accessCount := n }

section

variable {α β : Type} {P : Params} {J : Ctx → Prop} {E : ErrCode → Prop} {Q : β → Ctx → Prop}

theorem IgnoresCount.bus (hJ : IgnoresCount J) {x : BusOp α} (hx : StopsAtFirstErr x) :
    BusKeeps (Carries (OnCtx J)) x := by
  intro s hs
  obtain ⟨T, -, ⟨v, hv, -⟩ | ⟨hnone, -⟩⟩ := hx s
  · rw [hv]
    exact hJ _ _ hs
  · rw [hnone]
    exact hJ _ _ hs

theorem StopsAtFirstErr.wrList (P : Params) (l : WriteList) : StopsAtFirstErr (wrList P l) := by
  induction l with
  | nil => exact .pure ()
  | cons g l ih => exact .andThen (.wrSeq P g.bank g.entries) ih

theorem IgnoresCount.pollLoop (hJ : IgnoresCount J) (sb : StatusBit) (g : Gap) (n : Nat) :
    BusKeeps (Carries (OnCtx J)) (pollLoop P sb g n) := by
  induction n with
  | zero => exact busPure_carries false
  | succ n ih =>
    refine busBind_carries (hJ.bus (.rd P _ _)) fun v => ?_
    split
    · exact busPure_carries true
    · exact busBind_carries (waitGap_carries g) fun _ => ih

theorem Meets.bind {x : Op α} {f : α → Op β} (hx : Meets J E (fun _ => J) x) (hf : ∀ v, Meets J E Q (f v)) :
    Meets J E Q (x.bind f) := by
  intro s hs
  have h := hx s hs
  unfold Op.bind
  split <;> rename_i heq <;> rw [heq] at h
  · exact hf _ _ h
  all_goals exact h

theorem Meets.andThen {x : Op α} {y : Op β} (hx : Meets J E (fun _ => J) x) (hy : Meets J E Q y) :
    Meets J E Q (x.andThen y) := hx.bind fun _ => hy

theorem Meets.calculates {o : Out α} (ho : Calculates o) : Meets J E (fun _ => J) (Op.lift o) := by
  intro s hs
  cases o with
  | ok v => exact hs
  | fail e => exact ho.elim
  | fault f => exact ho
  | refuse q => trivial

theorem Meets.ofBus {x : BusOp α} (hE : E .transportError) (hx : BusKeeps (Carries (OnCtx J)) x) :
    Meets J E (fun _ => J) (Op.ofBus x) := by
  intro s hs
  have h := hx s hs
  unfold Op.ofBus
  split <;> rename_i heq <;> rw [heq] at h
  · exact h
  · exact ⟨hE, h⟩

theorem IgnoresCount.opWrList (hJ : IgnoresCount J) (hE : E .transportError) (l : WriteList) :
    Meets J E (fun _ => J) (Op.ofBus (wrList P l)) := Meets.ofBus hE (hJ.bus (.wrList P l))

theorem IgnoresCount.opPoll (hJ : IgnoresCount J) (hE : E .transportError) (i : StatusId) (n : Byte) (g : Gap) :
    Meets J E (fun _ => J) (Op.ofBus (poll P i n g)) := Meets.ofBus hE (hJ.pollLoop _ _ _)

theorem IgnoresCount.rdBulkOp (hJ : IgnoresCount J) (hE : E .transportError) (b a n : Byte) :
    Meets J E (fun _ => J) (rdBulkOp P b a n) := by
  unfold Machine.rdBulkOp
  split
  · exact fun _ _ => trivial
  · exact Meets.ofBus hE (hJ.bus (.rdBulk P b a n))

/-- What an operation run by itself leaves in the context when it answers a next state. -/
theorem EndsAs.of_next {Q : α → Ctx → Prop} {r : Out α × State} {val : α → Value} {t : State}
    (h : EndsAs J E Q r) (he : finish val r = .next t) : (∃ v, Q v t.ctx) ∨ J t.ctx := by
  obtain ⟨o, u⟩ := r
  cases o with
  | ok v => cases he; exact .inl ⟨v, h⟩
  | fail e => cases he; exact .inr h.2
  | fault f => cases he
  | refuse q => cases he

end

/-! ## The control point and the retry counter -/

/-- The control point is at the code `st` and the retry counter at `r`. -/
def ControlAt (st : BitVec 3) (r : U32) (c : Ctx) : Prop := c.stage = st ∧ c.retry = r

/-- The context is `c0` but for the access counter. -/
def OnlyCounts (c0 c : Ctx) : Prop := c = { c0 with accessCount := c.accessCount }

/-- The retry overflow brought the control point to Prepare, from the counter `r` (R245). -/
structure FellBack (r : U32) (c : Ctx) : Prop where
  stage : c.stage = 0
  atLimit : 30 ≤ r.toNat
  noWrap : r.toNat < 4294967295
  pending : c.pending = true
  err : c.err = 2 ∨ c.err = 3

theorem ignoresCount_controlAt (st : BitVec 3) (r : U32) : IgnoresCount (ControlAt st r) :=
  fun _ _ h => h

theorem ignoresCount_onlyCounts (c0 : Ctx) : IgnoresCount (OnlyCounts c0) := by
  intro c n h
  unfold OnlyCounts at h
  rw [h]
  rfl

theorem OnlyCounts.controlAt {c0 c : Ctx} (h : OnlyCounts c0 c) : ControlAt c0.stage c0.retry c := by
  unfold OnlyCounts at h
  rw [h]
  exact ⟨rfl, rfl⟩

/-- The failure that leaves a stage (R141, R257). -/
def IsTransport (e : ErrCode) : Prop := e = .transportError

theorem isTransport : IsTransport .transportError := rfl

section

variable {P : Params} {st : BitVec 3} {r : U32}

/-- A fallback needs an unhinted failure with the counter at the limit or above (R245). -/
theorem retryFalls_iff {k : Bool} {s : State} : retryFalls k s = true
    ↔ k = false ∧ 30 ≤ s.ctx.retry.toNat ∧ s.ctx.retry.toNat < 4294967295 := by
  have := s.ctx.retry.isLt
  cases k <;> simp [retryFalls, retryCounted]
  omega

/-! ## Prepare (R243) -/

theorem stagePrepare_meets (c0 : Ctx) : Meets (OnlyCounts c0) IsTransport
    (fun v c => v = .next ∧ ControlAt 1 c0.retry c) (stagePrepare P) := by
  have hJ := ignoresCount_onlyCounts c0
  refine Meets.andThen (fun _ hs => hs) <| Meets.bind (hJ.rdBulkOp isTransport _ _ _) fun id =>
    Meets.andThen ?_ <| Meets.andThen (hJ.opWrList isTransport _) <| Meets.andThen (hJ.opWrList isTransport _)
    fun _ hs => ⟨rfl, rfl, hs.controlAt.2⟩
  split <;> exact fun _ hs => hs

/-! ## RxTimingConfig (R244, R245) -/

/-- The failures that leave DETECT (R202, R204). -/
def IsDetectFailure (e : ErrCode) : Prop := e = .transportError ∨ e = .noVideo

theorem isDetectFailure_transport : IsDetectFailure .transportError := .inl rfl

theorem readSot_meets (is : List (Fin 4)) :
    Meets (ControlAt st r) IsDetectFailure (fun _ => ControlAt st r) (readSot P is) := by
  induction is with
  | nil => exact fun _ hs => hs
  | cons i is ih =>
    exact Meets.andThen ((ignoresCount_controlAt st r).rdBulkOp isDetectFailure_transport _ _ 2) ih

theorem readLanepack_meets :
    Meets (ControlAt st r) IsDetectFailure (fun _ => ControlAt st r) (readLanepack P) := by
  unfold readLanepack
  split
  · exact fun _ hs => hs
  · exact Meets.bind (Meets.ofBus isDetectFailure_transport
      ((ignoresCount_controlAt st r).bus (.rd P _ _))) fun _ _ hs => hs

theorem detect_meets : Meets (ControlAt st r) IsDetectFailure (fun _ => ControlAt st r) (detect P) := by
  have hJ := ignoresCount_controlAt st r
  have hE := isDetectFailure_transport
  refine Meets.andThen (fun _ hs => hs) <| Meets.andThen (readSot_meets _) <|
    Meets.andThen (Meets.ofBus hE (hJ.bus (.wr P _ _ _))) <| Meets.bind (hJ.rdBulkOp hE _ _ 5) fun blk =>
    Meets.andThen (fun _ hs => hs) <| Meets.bind (Meets.ofBus hE (hJ.bus (.rd P _ _))) fun fr =>
    Meets.andThen (fun _ hs => hs) <| Meets.andThen readLanepack_meets <|
    Meets.bind (Meets.calculates (calculates_activeWidth P _ _)) fun w =>
    Meets.andThen (fun _ hs => hs) <| Meets.andThen ?_ fun _ hs => hs
  unfold videoCheck
  split
  · exact fun _ hs => ⟨.inr rfl, hs⟩
  · exact fun _ hs => hs

/-- How RxTimingConfig ends: forward, or after the retry step where it was or at Prepare (R244, R245). -/
def RxTimingEnds (st : BitVec 3) (r : U32) (v : StageEnd) (c : Ctx) : Prop :=
  (v = .next ∧ ControlAt 2 r c) ∨ (v = .yield ∧ (c.stage = st ∨ FellBack r c))

theorem rxTimingFailed_meets {e : ErrCode} (he : e.code = 2 ∨ e.code = 3) :
    Meets (ControlAt st r) IsTransport (RxTimingEnds st r) (rxTimingFailed P e) := by
  rintro s ⟨hst, rfl⟩
  refine .inr ⟨rfl, ?_⟩
  rw [retryUpdate_eq]
  by_cases hf : retryFalls (steadyFormat s.ctx.desc) s = true
  · obtain ⟨-, hlow, hhigh⟩ := retryFalls_iff.1 hf
    exact .inr ⟨if_pos hf, hlow, hhigh, rfl, he⟩
  · exact .inl ((if_neg hf).trans hst)

theorem rxTimingSelect_meets (d : RxVideoDescriptor) :
    Meets (ControlAt st r) IsTransport (RxTimingEnds st r) (rxTimingSelect P d) := by
  unfold rxTimingSelect modeLookup
  cases findMode d.hact d.vact d.fr 0 P.timingTable with
  | none => exact Meets.andThen (fun _ hs => hs) (rxTimingFailed_meets (.inr rfl))
  | some x => exact Meets.bind (Meets.calculates (calculates_timingOf x.2)) fun t =>
      Meets.andThen (fun _ hs => hs) fun _ hs => .inl ⟨rfl, rfl, hs.2⟩

theorem stageRxTiming_meets :
    Meets (ControlAt st r) IsTransport (RxTimingEnds st r) (stageRxTiming P) := by
  intro s hs
  have hd := detect_meets (P := P) s hs
  unfold stageRxTiming
  split <;> rename_i heq <;> rw [heq] at hd
  · exact rxTimingSelect_meets _ _ hd
  · exact rxTimingFailed_meets (.inl rfl) _ hd.2
  · next hne => exact ⟨hd.1.resolve_right hne, hd.2⟩
  · exact hd
  · exact hd

/-! ## RxPllConfig (R246) -/

/-- How RxPllConfig ends: forward, or back at RxTimingConfig (R246). -/
def RxPllEnds (r : U32) (v : StageEnd) (c : Ctx) : Prop :=
  (v = .next ∧ ControlAt 3 r c) ∨ (v = .yield ∧ c.stage = 1)

theorem backToRxTiming_meets (e : ErrCode) :
    Meets (ControlAt st r) IsTransport (RxPllEnds r) (backToRxTiming P e) := by
  intro s _
  rw [backToRxTiming_eq]
  exact .inr ⟨rfl, rfl⟩

theorem rxPllDone_meets : Meets (ControlAt st r) IsTransport (RxPllEnds r) (rxPllDone P) :=
  Meets.andThen ((ignoresCount_controlAt st r).opWrList isTransport _) fun _ hs => .inl ⟨rfl, rfl, hs.2⟩

theorem rxPllVideoCheck_meets (stable : Bool) :
    Meets (ControlAt st r) IsTransport (RxPllEnds r) (rxPllVideoCheck P stable) := by
  unfold rxPllVideoCheck
  split
  · exact rxPllDone_meets
  · split
    · exact backToRxTiming_meets _
    · exact Meets.andThen (fun _ hs => hs) rxPllDone_meets

theorem stageRxPll_meets {s : State} (hsel : s.ctx.selValid = true) (hs : ControlAt st r s.ctx) :
    EndsAs (ControlAt st r) IsTransport (RxPllEnds r) (stageRxPll P s) := by
  have hJ := ignoresCount_controlAt st r
  cases hp : pcrFits P s.ctx.sel.pclk.toNat with
  | false =>
    rw [stageRxPll_refused hsel hp]
    trivial
  | true =>
    rw [stageRxPll_eq hsel hp]
    refine (Meets.andThen (fun _ hs => hs) <| Meets.andThen (hJ.opWrList isTransport _) <|
      Meets.andThen (hJ.opWrList isTransport _) <| Meets.bind (hJ.opPoll isTransport _ _ _) fun ok1 => ?_) _ hs
    split
    · exact Meets.bind (hJ.opPoll isTransport _ _ _) fun ok2 => rxPllVideoCheck_meets ok2
    · exact backToRxTiming_meets _

/-! ## TxVideoConfig and TxVideoOut (R247, R248) -/

theorem stageTxVidCfg_meets : Meets (ControlAt st r) IsTransport
    (fun v c => (v = .next ∧ ControlAt 4 r c) ∨ (v = .yield ∧ c.stage = st)) (stageTxVidCfg P) := by
  have hJ := ignoresCount_controlAt st r
  refine Meets.bind (hJ.rdBulkOp isTransport _ _ _) fun bytes => Meets.andThen (fun _ hs => hs) <|
    Meets.bind (Meets.calculates (calculates_computeTxPll P _)) fun t => Meets.andThen (fun _ hs => hs) <|
    Meets.andThen (hJ.opWrList isTransport _) <| Meets.andThen (hJ.opWrList isTransport _) <|
    Meets.andThen (hJ.opWrList isTransport _) <| Meets.bind (hJ.opPoll isTransport _ _ _) fun ok => ?_
  split
  · exact fun _ hs => .inl ⟨rfl, rfl, hs.2⟩
  · intro s hs
    rw [txUnlocked_eq]
    exact .inr ⟨rfl, hs.1⟩

theorem stageTxVidOut_meets : Meets (ControlAt st r) IsTransport
    (fun v c => v = .yield ∧ c.stage = st) (stageTxVidOut P) := by
  have hJ := ignoresCount_controlAt st r
  exact Meets.bind (hJ.rdBulkOp isTransport _ _ _) fun bytes => Meets.andThen (fun _ hs => hs) <|
    Meets.andThen (hJ.opWrList isTransport _) <| Meets.andThen (hJ.opWrList isTransport _) <|
    Meets.andThen (fun _ hs => hs) fun _ hs => ⟨rfl, hs.1⟩

end

/-! ## The stage of the control point (R251) -/

/-- How the stage of the control point of the context `c` ends, and the context it leaves (R240 to R248). -/
inductive Round (c : Ctx) : Out StageEnd → Ctx → Prop
  | next {c' : Ctx} (hlt : c.stage.toNat < 4) (h : ControlAt (c.stage + 1) c.retry c') : Round c (.ok .next) c'
  | stays {c' : Ctx} (hne : c.stage ≠ 0) (h : c'.stage = c.stage) : Round c (.ok .yield) c'
  | back {c' : Ctx} (hat : c.stage = 2) (h : c'.stage = 1) : Round c (.ok .yield) c'
  | fellBack {c' : Ctx} (hat : c.stage = 1) (h : FellBack c.retry c') : Round c (.ok .yield) c'
  | err {c' : Ctx} (hlegal : c.stage.toNat ≤ 4) (h : ControlAt c.stage c.retry c')
      (hprep : c.stage = 0 → OnlyCounts c c') : Round c (.fail .transportError) c'
  | badStage {c' : Ctx} (h : 4 < c.stage.toNat) : Round c (.fault .badStage) c'
  | noTiming {c' : Ctx} (hat : c.stage = 2) (h : c.selValid = false) : Round c (.fault .noTiming) c'
  | divZero {c' : Ctx} : Round c (.fault .divZero) c'
  | refused {c' : Ctx} (q : Refusal) : Round c (.refuse q) c'

/-- A stage operation that ends with a value or a transport error as a round may, is a round. -/
theorem EndsAs.round {c : Ctx} {J : Ctx → Prop} {Q : StageEnd → Ctx → Prop} {x : Out StageEnd × State}
    (h : EndsAs J IsTransport Q x) (hQ : ∀ v c', Q v c' → Round c (.ok v) c')
    (hJ : ∀ c', J c' → Round c (.fail .transportError) c') : Round c x.1 x.2.ctx := by
  obtain ⟨o, t⟩ := x
  cases o with
  | ok v => exact hQ v _ h
  | fail e => obtain ⟨rfl, hj⟩ := h; exact hJ _ hj
  | fault f => cases (h : f = _); exact .divZero
  | refuse q => exact .refused q

/-- Outside Prepare a transport error leaves the control point and the counter. -/
theorem Round.err_of_ne {c c' : Ctx} (hlegal : c.stage.toNat ≤ 4) (hne : c.stage ≠ 0)
    (h : ControlAt c.stage c.retry c') : Round c (.fail .transportError) c' :=
  .err hlegal h fun h0 => absurd h0 hne

theorem stage_cases (st : BitVec 3) :
    st = 0 ∨ st = 1 ∨ st = 2 ∨ st = 3 ∨ st = 4 ∨ 4 < st.toNat := by
  revert st; decide

/-- What one round of INVOKE can do, for every parameter set and every answer of the chip. -/
theorem runStage_round (P : Params) (s : State) :
    Round s.ctx (runStage P s).1 (runStage P s).2.ctx := by
  have hat : ControlAt s.ctx.stage s.ctx.retry s.ctx := ⟨rfl, rfl⟩
  obtain h | h | h | h | h | h := stage_cases s.ctx.stage
  · rw [runStage_prepare h]
    refine (stagePrepare_meets s.ctx s rfl).round (fun v c' hv => ?_) fun c' hc =>
      .err (by simp [h]) hc.controlAt fun _ => hc
    obtain ⟨rfl, hc⟩ := hv
    exact .next (by simp [h]) (by rw [h]; exact hc)
  · rw [runStage_rxTiming h]
    refine (stageRxTiming_meets s hat).round (fun v c' hv => ?_) fun c' =>
      .err_of_ne (by simp [h]) (by simp [h])
    obtain ⟨rfl, hc⟩ | ⟨rfl, hst | hfell⟩ := hv
    · exact .next (by simp [h]) (by rw [h]; exact hc)
    · exact .stays (by simp [h]) hst
    · exact .fellBack h hfell
  · rw [runStage_rxPll h]
    cases hsel : s.ctx.selValid with
    | false =>
      rw [stageRxPll_noTiming hsel]
      exact .noTiming h hsel
    | true =>
      refine (stageRxPll_meets hsel hat).round (fun v c' hv => ?_) fun c' =>
        .err_of_ne (by simp [h]) (by simp [h])
      obtain ⟨rfl, hc⟩ | ⟨rfl, hst⟩ := hv
      · exact .next (by simp [h]) (by rw [h]; exact hc)
      · exact .back h hst
  · rw [runStage_txVidCfg h]
    refine (stageTxVidCfg_meets s hat).round (fun v c' hv => ?_) fun c' =>
      .err_of_ne (by simp [h]) (by simp [h])
    obtain ⟨rfl, hc⟩ | ⟨rfl, hst⟩ := hv
    · exact .next (by simp [h]) (by rw [h]; exact hc)
    · exact .stays (by simp [h]) hst
  · rw [runStage_txVidOut h]
    refine (stageTxVidOut_meets s hat).round (fun v c' hv => ?_) fun c' =>
      .err_of_ne (by simp [h]) (by simp [h])
    obtain ⟨rfl, hst⟩ := hv
    exact .stays (by simp [h]) hst
  · rw [runStage_bad h]
    exact .badStage h

end Sys2Proof.Proofs
end

