-- ==== Sys2Proof/Proofs/Invocation.lean ====
section
/-! One invocation, from the rounds it is made of to what the host sees of INVOKE and TICK (R251, R252, R257). -/

namespace Sys2Proof.Proofs

open Sys2Proof Sys2Proof.Machine Sys2Proof.Safety

section

variable {P : Params} {n : Nat} {s t : State} {c c' : Ctx}

/-! ## TICK (R252) -/

theorem exec_tick_idle (hl : s.live = true) (hp : s.ctx.pending = false) :
    exec .tick s = .next (s.record (.ok .unit)) := by
  simp [exec, execTick, runTick, State.live_constructed hl, State.live_detached hl, hp]

/-- The state in which TICK runs its invocation. -/
def taken (s : State) : State := s.modCtx fun c => { c with pending := false }

theorem live_taken : (taken s).live = s.live := rfl

/-- With an invocation pending on a live context, TICK is INVOKE with the flag cleared. -/
theorem execWith_tick_pending (hl : s.live = true) (hp : s.ctx.pending = true) :
    execWith P .tick s = execWith P .invoke (taken s) := by
  have hinvoke : execWith P .invoke (taken s) = finish (fun _ => .unit) (invoke P (taken s)) :=
    onContext_live (live_taken.trans hl) _
  rw [hinvoke]
  simp [execWith, runTick, State.live_constructed hl, State.live_detached hl, hp, taken]

/-- TICK is refused, or only records its result, or is INVOKE with the flag cleared. -/
theorem execWith_tick_cases (P : Params) (s : State) :
    execWith P .tick s = .refused .notConstructed ∨ execWith P .tick s = .next (s.record (.ok .unit))
      ∨ execWith P .tick s = execWith P .invoke (taken s) := by
  cases hc : s.constructed with
  | false => exact .inl (by simp [execWith, runTick, hc])
  | true =>
    cases hd : s.ctx.detached with
    | true => exact .inr (.inl (by simp [execWith, runTick, hc, hd]))
    | false =>
      cases hp : s.ctx.pending with
      | false => exact .inr (.inl (by simp [execWith, runTick, hc, hd, hp]))
      | true => exact .inr (.inr (execWith_tick_pending (by simp [State.live, hc, hd]) hp))

/-! ## The loop (R251) -/

/-- The steps of an operation leave the results of the run alone, and whether the context is live. -/
structure SameRun (s t : State) : Prop where
  constructed : t.constructed = s.constructed
  detached : t.ctx.detached = s.ctx.detached
  results : t.results = s.results

theorem stepRule_sameRun : StepRule SameRun where
  refl _ := ⟨rfl, rfl, rfl⟩
  trans h g := ⟨g.constructed.trans h.constructed, g.detached.trans h.detached, g.results.trans h.results⟩
  transact _ _ _ := ⟨rfl, rfl, rfl⟩
  emit _ _ _ _ _ := ⟨rfl, rfl, rfl⟩
  modCtx s _ hf := ⟨rfl, (hf s.ctx).2, rfl⟩
  draw _ := ⟨rfl, rfl, rfl⟩

theorem SameRun.live (h : SameRun s t) : t.live = s.live := by
  simp only [State.live, h.constructed, h.detached]

theorem stage_succ_toNat : ∀ st : BitVec 3, st.toNat < 4 → (st + 1).toNat = st.toNat + 1 := by decide

/-- From a context that holds a stage's code the loop has enough rounds left: one for each stage from there on. -/
def EnoughRounds (n : Nat) (c : Ctx) : Prop := 0 < n ∧ 5 ≤ c.stage.toNat + n

theorem enoughRounds_five (c : Ctx) : EnoughRounds 5 c := ⟨by decide, by omega⟩

theorem EnoughRounds.next (h : EnoughRounds (n + 1) c) (hlt : c.stage.toNat < 4)
    (hc : ControlAt (c.stage + 1) c.retry c') : EnoughRounds n c' := by
  obtain ⟨-, h5⟩ := h
  have hst := stage_succ_toNat c.stage hlt
  rw [← hc.1] at hst
  exact ⟨by omega, by omega⟩

/-- How an invocation goes from a context to the one it leaves: rounds that go on, then one that yields or takes a
transport error (R251, R257). -/
inductive Invoked : Ctx → Ctx → Prop
  | next {c c1 c' : Ctx} (h : Round c (.ok .next) c1) (hrest : Invoked c1 c') : Invoked c c'
  | yield {c c' : Ctx} (h : Round c (.ok .yield) c') : Invoked c c'
  | err {c c1 : Ctx} (h : Round c (.fail .transportError) c1) : Invoked c { c1 with err := 1, pending := true }

/-- A loop with enough rounds that answers a next state is a whole invocation. -/
theorem invokeLoop_invoked {val : Unit → Value} (hn : EnoughRounds n s.ctx)
    (he : finish val (invokeLoop P n s) = .next t) : Invoked s.ctx t.ctx := by
  induction n generalizing s with
  | zero => exact absurd hn.1 (by decide)
  | succ n ih =>
    rcases hr : runStage P s with ⟨o, s1⟩
    have hround := runStage_round P s
    rw [hr] at hround
    have hcopy := hround
    cases hround with
    | next hlt h =>
      rw [invokeLoop_next hr] at he
      exact .next hcopy (ih (hn.next hlt h) he)
    | stays | back | fellBack =>
      rw [invokeLoop_yield hr] at he
      cases he
      exact .yield hcopy
    | err =>
      rw [invokeLoop_err hr] at he
      cases he
      exact .err (c1 := s1.ctx) hcopy
    | badStage | noTiming | divZero =>
      rw [invokeLoop_fault hr] at he
      cases he
    | refused =>
      rw [invokeLoop_refuse hr] at he
      cases he

/-- One more round allowed changes nothing where there are enough (log 13). -/
theorem invokeLoop_succ (hn : EnoughRounds n s.ctx) : invokeLoop P n s = invokeLoop P (n + 1) s := by
  induction n generalizing s with
  | zero => exact absurd hn.1 (by decide)
  | succ n ih =>
    rcases hr : runStage P s with ⟨o, s1⟩
    have hround := runStage_round P s
    rw [hr] at hround
    cases hround with
    | next hlt h => rw [invokeLoop_next hr, invokeLoop_next hr, ih (hn.next hlt h)]
    | stays | back | fellBack => rw [invokeLoop_yield hr, invokeLoop_yield hr]
    | err => rw [invokeLoop_err hr, invokeLoop_err hr]
    | badStage | noTiming | divZero => rw [invokeLoop_fault hr, invokeLoop_fault hr]
    | refused => rw [invokeLoop_refuse hr, invokeLoop_refuse hr]

theorem execWith_invoke_live (hl : s.live = true) :
    execWith P .invoke s = finish (fun _ => .unit) (invokeLoop P 5 s) := onContext_live hl _

theorem execWith_invoke_next (he : execWith P .invoke s = .next t) : Invoked s.ctx t.ctx :=
  invokeLoop_invoked (enoughRounds_five _) (onContext_next he).2

/-- An INVOKE or TICK that answers a next state is an invocation, or a TICK that only records its result. -/
theorem execWith_invokes {i : Instr} (hi : i = .invoke ∨ i = .tick) (he : execWith P i s = .next t) :
    (i = .tick ∧ t = s.record (.ok .unit)) ∨ Invoked s.ctx t.ctx
      ∨ Invoked { s.ctx with pending := false } t.ctx := by
  obtain rfl | rfl := hi
  · exact .inr (.inl (execWith_invoke_next he))
  · obtain h | h | h := execWith_tick_cases P s
    · rw [h] at he
      cases he
    · rw [h] at he
      cases he
      exact .inl ⟨rfl, rfl⟩
    · rw [h] at he
      exact .inr (.inr (execWith_invoke_next he))

/-! ## What an invocation does to the control point (R240) -/

theorem edgeReach_refl : ∀ a : BitVec 3, a.toNat ≤ 4 → edgeReach a a = true := by decide

theorem edgeReach_back : edgeReach 2 1 = true ∧ edgeReach 1 0 = true := by decide

/-- What can be reached from the stage after this one can be reached from this one. -/
theorem edgeReach_succ : ∀ a b : BitVec 3, a.toNat < 4 → edgeReach (a + 1) b = true → edgeReach a b = true := by
  decide

/-- An invocation leaves the control point along the edges of the stage graph. -/
theorem Invoked.edgeReach (h : Invoked c c') (hlegal : c.stage.toNat ≤ 4) :
    edgeReach c.stage c'.stage = true := by
  induction h with
  | next hround _ ih =>
    cases hround with
    | next hlt hc =>
      rw [hc.1] at ih
      exact edgeReach_succ _ _ hlt (ih (by rw [stage_succ_toNat _ hlt]; exact hlt))
  | yield hround =>
    cases hround with
    | stays _ hst => rw [hst]; exact edgeReach_refl _ hlegal
    | back hat hst => rw [hat, hst]; exact edgeReach_back.1
    | fellBack hat hfell => rw [hat, hfell.stage]; exact edgeReach_back.2
  | err hround =>
    cases hround with
    | err _ hc _ => exact (congrArg _ hc.1).trans (edgeReach_refl _ hlegal)

/-- From another stage an invocation ends at Prepare by the retry overflow of RxTimingConfig alone. -/
theorem Invoked.fellBack (h : Invoked c c') (hne : c.stage ≠ 0) (hprep : c'.stage = 0) :
    c.stage = 1 ∧ FellBack c.retry c' := by
  induction h with
  | @next c c1 c' hround _ ih =>
    cases hround with
    | next hlt hc =>
      have hst := stage_succ_toNat _ hlt
      have h1 := (ih (by rw [hc.1]; intro h0; rw [h0] at hst; cases hst) hprep).1
      rw [hc.1] at h1
      rw [h1] at hst
      exact absurd (BitVec.eq_of_toNat_eq (Nat.succ.inj hst).symm) hne
  | yield hround =>
    cases hround with
    | stays _ hst => exact absurd (hst.symm.trans hprep) hne
    | back _ hst => rw [hst] at hprep; cases hprep
    | fellBack hat hfell => exact ⟨hat, hfell⟩
  | err hround =>
    cases hround with
    | err _ hc _ => exact absurd (hc.1.symm.trans hprep) hne

/-- From Prepare an invocation ends at Prepare by an `Err` in it, or by the retry overflow. -/
theorem Invoked.fromPrepare (h : Invoked c c') (hat : c.stage = 0) (hprep : c'.stage = 0) :
    c' = { c with err := 1, pending := true, accessCount := c'.accessCount } ∨ FellBack c.retry c' := by
  cases h with
  | next hround hrest =>
    cases hround with
    | next _ hc =>
      rw [hat] at hc
      exact .inr (hc.2 ▸ (hrest.fellBack (by rw [hc.1]; decide) hprep).2)
  | yield hround =>
    cases hround with
    | stays hne _ => exact absurd hat hne
    | back h2 _ => rw [hat] at h2; cases h2
    | fellBack h1 _ => rw [hat] at h1; cases h1
  | err hround =>
    cases hround with
    | err _ _ hsame =>
      have hc := hsame hat
      unfold OnlyCounts at hc
      refine .inl ?_
      rw [hc]

/-! ## Operations that leave the control point alone (R242) -/

/-- No operation but ATTACH, ENABLE, a stage, RETRY_UPDATE, INVOKE and TICK moves the control point or the counter. -/
theorem execWith_keeps_controlAt {i : Instr} (hstage : isStage i = false) (hinvoke : i ≠ .invoke)
    (htick : i ≠ .tick) (henable : i ≠ .enable) (hattach : ∀ k : BitVec 3, i ≠ .attach k)
    (hretry : ∀ (k : Bool) (e : ErrCode), i ≠ .retryUpdate k e) (he : execWith P i s = .next t) :
    ControlAt s.ctx.stage s.ctx.retry t.ctx := by
  have hJ := ignoresCount_controlAt s.ctx.stage s.ctx.retry
  have hs : OnCtx (ControlAt s.ctx.stage s.ctx.retry) s := ⟨rfl, rfl⟩
  suffices hends : EndsIn (Carries (OnCtx (ControlAt s.ctx.stage s.ctx.retry))) s t by
    obtain ⟨u, r, hu, rfl⟩ := hends
    exact hu hs
  cases i with
  | attach k => exact absurd rfl (hattach k)
  | enable => exact absurd rfl henable
  | disable => exact endsIn_onContext_record id he
  | detach => exact endsIn_onContext_record (u := detachEffect s) id he
  | tick => exact absurd rfl htick
  | banksel b => exact endsIn_onContext_bus (hJ.bus (.bankSel P b)) he
  | wr b a v => exact endsIn_onContext_bus (hJ.bus (.wr P b a v)) he
  | wrseq b ps => exact endsIn_onContext_bus (hJ.bus (.wrSeq P b ps)) he
  | rd b a => exact endsIn_onContext_bus (hJ.bus (.rd P b a)) he
  | rdbulk b a n =>
    have hk := (onContext_next he).2
    split at hk
    · cases hk
    · exact endsIn_record (hJ.bus (.rdBulk P b a n) s) hk
  | computePcr p => exact endsIn_unlessDetached_op (computePcr_carries p) he
  | pcrBand | txPrediv | txPhyclk | txSerdiv | txPixmux | txDivreg | computeTxPll | pclkOfTiming
  | bppLookup | activeWidth | videoCheck | modeLookup =>
    exact endsIn_finish id (unlessDetached_next he)
  | detect =>
    have hend := (detect_meets s hs).of_next (onContext_next he).2
    obtain ⟨q, rfl⟩ := finish_next (onContext_next he).2
    exact ⟨(detect P s).2, q, fun _ => hend.elim (fun ⟨_, h⟩ => h) id, rfl⟩
  | stagePrepare | stageRxtiming | stageRxpll | stageTxvidcfg | stageTxvidout => cases hstage
  | poll j n g => exact endsIn_onContext_bus (hJ.pollLoop _ g _) he
  | schedule d =>
    refine endsIn_onContext_record (fun h => ?_) he
    rw [OnCtx, schedule_ctx]
    exact h
  | retryUpdate k e => exact absurd rfl (hretry k e)
  | invoke => exact absurd rfl hinvoke

end

end Sys2Proof.Proofs
end

