-- ==== Sys2Proof/Proofs/ControlPoint.lean ====
section
/-! The control point and the retry counter along every operation (R240, R242, R245, R261). -/

namespace Sys2Proof.Proofs

open Sys2Proof Sys2Proof.Machine Sys2Proof.Safety

section

variable {P : Params} {n : Nat} {s t : State}

/-! ## ENABLE and RETRY_UPDATE -/

theorem exec_enable_next (he : exec .enable s = .next t) :
    t = (enableEffect Config.P s).record (.ok .unit) :=
  (Host.Outcome.next.inj (onContext_next he).2).symm

theorem execWith_retryUpdate_next {k : Bool} {e : ErrCode} (he : execWith P (.retryUpdate k e) s = .next t) :
    t = (retried P k e s).record (.ok .unit) := by
  rw [← retryUpdate_eq]
  exact (Host.Outcome.next.inj (onContext_next he).2).symm

theorem retried_stage (k : Bool) (e : ErrCode) :
    (retried P k e s).ctx.stage = if retryFalls k s then 0 else s.ctx.stage := rfl

@[simp] theorem retried_live (k : Bool) (e : ErrCode) : (retried P k e s).live = s.live := rfl
@[simp] theorem retried_pending (k : Bool) (e : ErrCode) : (retried P k e s).ctx.pending = true := rfl
@[simp] theorem retried_err (k : Bool) (e : ErrCode) : (retried P k e s).ctx.err = e.code := rfl
@[simp] theorem retried_desc (k : Bool) (e : ErrCode) : (retried P k e s).ctx.desc = s.ctx.desc := rfl

/-! ## Coming back to Prepare (R261 (a)) -/

/-- A stage operation run by itself that brings the control point to Prepare from elsewhere is RxTimingConfig falling
back. -/
theorem exec_stage_to_prepare {i : Instr} (hi : isStage i = true) (he : exec i s = .next t)
    (hne : s.ctx.stage ≠ 0) (hprep : t.ctx.stage = 0) : i = .stageRxtiming ∧ FellBack s.ctx.retry t.ctx := by
  have hat : ControlAt s.ctx.stage s.ctx.retry s.ctx := ⟨rfl, rfl⟩
  have hstay : ¬ ControlAt s.ctx.stage s.ctx.retry t.ctx := fun h => hne (h.1.symm.trans hprep)
  have hst : ∀ st : BitVec 3, t.ctx.stage = st → st = 0 := fun _ h => h.symm.trans hprep
  cases i with
  | stagePrepare =>
    obtain ⟨v, -, hc⟩ | hc := (stagePrepare_meets s.ctx s rfl).of_next (onContext_next he).2
    · exact absurd (hst _ hc.1) (by decide)
    · exact absurd hc.controlAt hstay
  | stageRxtiming =>
    obtain ⟨v, ⟨-, hc⟩ | ⟨-, hsame | hfell⟩⟩ | hc := (stageRxTiming_meets s hat).of_next (onContext_next he).2
    · exact absurd (hst _ hc.1) (by decide)
    · exact absurd (hst _ hsame) hne
    · exact ⟨rfl, hfell⟩
    · exact absurd hc hstay
  | stageRxpll =>
    have hk := (onContext_next he).2
    cases hsel : s.ctx.selValid with
    | false =>
      rw [stageRxPll_noTiming hsel] at hk
      cases hk
    | true =>
      obtain ⟨v, ⟨-, hc⟩ | ⟨-, hback⟩⟩ | hc := (stageRxPll_meets hsel hat).of_next hk
      · exact absurd (hst _ hc.1) (by decide)
      · exact absurd (hst _ hback) (by decide)
      · exact absurd hc hstay
  | stageTxvidcfg =>
    obtain ⟨v, ⟨-, hc⟩ | ⟨-, hsame⟩⟩ | hc := (stageTxVidCfg_meets s hat).of_next (onContext_next he).2
    · exact absurd (hst _ hc.1) (by decide)
    · exact absurd (hst _ hsame) hne
    · exact absurd hc hstay
  | stageTxvidout =>
    obtain ⟨v, -, hsame⟩ | hc := (stageTxVidOut_meets s hat).of_next (onContext_next he).2
    · exact absurd (hst _ hsame) hne
    · exact absurd hc hstay
  | _ => cases hi

/-- An INVOKE or TICK that brings the control point to Prepare from elsewhere is an overflow in RxTimingConfig. -/
theorem execWith_invokes_to_prepare {i : Instr} (hi : i = .invoke ∨ i = .tick) (he : execWith P i s = .next t)
    (hne : s.ctx.stage ≠ 0) (hprep : t.ctx.stage = 0) : s.ctx.stage = 1 ∧ FellBack s.ctx.retry t.ctx := by
  obtain ⟨-, rfl⟩ | h | h := execWith_invokes hi he
  · exact absurd hprep hne
  · exact h.fellBack hne hprep
  · exact h.fellBack hne hprep

/-- An INVOKE or TICK from Prepare to Prepare. -/
theorem execWith_invokes_from_prepare {i : Instr} (hi : i = .invoke ∨ i = .tick) (he : execWith P i s = .next t)
    (hat : s.ctx.stage = 0) (hprep : t.ctx.stage = 0) :
    (i = .tick ∧ t = s.record (.ok .unit))
      ∨ t.ctx = { s.ctx with err := 1, pending := true, accessCount := t.ctx.accessCount }
      ∨ FellBack s.ctx.retry t.ctx := by
  obtain hidle | h | h := execWith_invokes hi he
  · exact .inl hidle
  · exact .inr (h.fromPrepare hat hprep)
  · exact .inr (h.fromPrepare hat hprep)

/-- Settles O53: an operation that is none of those named leaves the control point alone; a stage, an invocation and
RETRY_UPDATE each come to Prepare by the overflow only. -/
theorem prepareIsReenteredOnlyByOverflow : Obligations.PrepareIsReenteredOnlyByOverflow := by
  refine ⟨fun i s t he hne hprep => ?_, fun i s t he hi hat hprep => ?_⟩
  · rw [exec_eq_execWith] at he
    by_cases hattach : ∃ k : BitVec 3, i = .attach k
    · exact .inl hattach
    by_cases henable : i = .enable
    · exact .inr (.inl henable)
    refine .inr (.inr ?_)
    by_cases hinvoke : i = .invoke ∨ i = .tick
    · obtain ⟨hat, hfell⟩ := execWith_invokes_to_prepare hinvoke he hne hprep
      exact ⟨hfell.atLimit, hfell.noWrap, .inr (.inr ⟨hinvoke, hat⟩)⟩
    by_cases hretry : ∃ (k : Bool) (e : ErrCode), i = .retryUpdate k e
    · obtain ⟨k, e, rfl⟩ := hretry
      cases execWith_retryUpdate_next he
      rw [State.record_ctx, retried_stage] at hprep
      split at hprep
      · next hfalls =>
        obtain ⟨rfl, hlow, hhigh⟩ := retryFalls_iff.1 hfalls
        exact ⟨hlow, hhigh, .inl ⟨e, rfl⟩⟩
      · exact absurd hprep hne
    by_cases hstage : isStage i = true
    · rw [← exec_eq_execWith] at he
      obtain ⟨hrx, hfell⟩ := exec_stage_to_prepare hstage he hne hprep
      exact ⟨hfell.atLimit, hfell.noWrap, .inr (.inl hrx)⟩
    · have hkept := execWith_keeps_controlAt (by simpa using hstage) (fun h => hinvoke (.inl h))
        (fun h => hinvoke (.inr h)) henable (fun k h => hattach ⟨k, h⟩) (fun k e h => hretry ⟨k, e, h⟩) he
      exact absurd (hkept.1.symm.trans hprep) hne
  · rw [exec_eq_execWith] at he
    exact (execWith_invokes_from_prepare hi he hat hprep).imp_right fun h => h.imp_right fun hfell =>
      ⟨hfell.atLimit, hfell.noWrap, hfell.pending, hfell.err⟩

/-- Settles O52: an invocation is a chain of rounds, each of which follows an edge; ENABLE and ATTACH write the stage
they name; nothing else writes it. -/
theorem controlPointFollowsTheEdges : Obligations.ControlPointFollowsTheEdges := by
  intro i s t he hlegal
  refine ⟨fun hi => ?_, fun hi => ?_, fun k hi => ?_, fun hstage hinvoke htick henable hattach hretry => ?_⟩
  · rw [exec_eq_execWith] at he
    obtain ⟨-, rfl⟩ | h | h := execWith_invokes hi he
    · exact edgeReach_refl _ hlegal
    · exact h.edgeReach hlegal
    · exact h.edgeReach hlegal
  · subst hi
    rw [exec_enable_next he, State.record_ctx, enableEffect, schedule_ctx]
    rfl
  · subst hi
    obtain ⟨-, ⟨e, rfl⟩ | rfl⟩ := execAttach_next he
    · exact .inl rfl
    · exact .inr rfl
  · rw [exec_eq_execWith] at he
    exact (execWith_keeps_controlAt hstage hinvoke htick henable hattach hretry he).1

/-! ## Legal codes and the selected timing (R261 (d), (f)) -/

/-- The stage and error codes are codes, and RxPllConfig has a selected timing. -/
structure Legal (c : Ctx) : Prop where
  stage : c.stage.toNat ≤ 4
  err : c.err.toNat ≤ 9
  timing : c.stage = 2 → c.selValid = true

theorem legal_iff (s : State) : Legal s.ctx ↔ codesLegal s ∧ timingReady s :=
  ⟨fun h => ⟨⟨h.stage, h.err⟩, h.timing⟩, fun ⟨⟨hs, he⟩, ht⟩ => ⟨hs, he, ht⟩⟩

theorem stageCode_toNat_le (st : Stage) : (stageCode st).toNat ≤ 4 := by
  cases st <;> decide

theorem stageCode_ne_two {st : Stage} (h : st ≠ .rxPllConfig) : stageCode st ≠ 2 := by
  revert h
  cases st <;> decide

theorem errCode_toNat_le (e : ErrCode) : e.code.toNat ≤ 9 := by
  cases e <;> decide

/-- A stage is written by its code, RxPllConfig's only with a selection; an error by its code. -/
theorem keptByWrites_legal (P : Params) : KeptByWrites P Legal := by
  intro c c' hw hc
  obtain ⟨hstage, herr, htiming⟩ := hc
  cases hw with
  | construct => exact ⟨by decide, by decide, nofun⟩
  | err e => exact ⟨hstage, errCode_toNat_le e, htiming⟩
  | stage h => exact ⟨stageCode_toNat_le _, herr, fun h2 => absurd h2 (stageCode_ne_two h)⟩
  | select => exact ⟨stageCode_toNat_le _, herr, fun _ => rfl⟩
  | _ => exact ⟨hstage, herr, htiming⟩

/-- From a legal context the only fault of the loop is DivZero. -/
theorem invokeLoop_fault_of_legal {val : Unit → Value} {f : Fault} (hs : Legal s.ctx)
    (he : finish val (invokeLoop P n s) = .fault f) : f = .divZero := by
  induction n generalizing s with
  | zero => cases he
  | succ n ih =>
    have hlegal := (keptByWrites_legal P).runStage s hs
    have hround := runStage_round P s
    rcases hr : runStage P s with ⟨o, s1⟩
    rw [hr] at hround hlegal
    cases hround with
    | next =>
      rw [invokeLoop_next hr] at he
      exact ih hlegal he
    | stays | back | fellBack =>
      rw [invokeLoop_yield hr] at he
      cases he
    | err =>
      rw [invokeLoop_err hr] at he
      cases he
    | badStage hbad => exact absurd hs.stage (by omega)
    | noTiming hat hsel => rw [hs.timing hat] at hsel; cases hsel
    | divZero =>
      rw [invokeLoop_fault hr] at he
      cases he
      rfl
    | refused =>
      rw [invokeLoop_refuse hr] at he
      cases he

/-- An operation on the context faults as its work does. -/
theorem onContext_fault {k : Host.Outcome State Fault Refusal} {f : Fault} (h : onContext s k = .fault f) :
    k = .fault f := by
  unfold onContext at h
  split at h
  · cases h
  · split at h
    · cases h
    · exact h

theorem execWith_invoke_fault_of_legal {f : Fault} (hs : Legal s.ctx) (he : execWith P .invoke s = .fault f) :
    f = .divZero := invokeLoop_fault_of_legal hs (onContext_fault he)

/-- Settles O54: every write keeps the codes legal and the timing selected, and a round from such a context faults
DivZero or not at all. -/
theorem invocationsNeverLoseTheirStage : Obligations.InvocationsNeverLoseTheirStage := by
  refine ⟨fun s t hcodes htiming he => ?_, fun P s f hcodes htiming he => ?_⟩
  · exact (legal_iff t).1 ((keptByWrites_legal Config.P).step he ((legal_iff s).2 ⟨hcodes, htiming⟩))
  · have hs := (legal_iff s).2 ⟨hcodes, htiming⟩
    obtain he | he := he
    · exact execWith_invoke_fault_of_legal hs he
    · obtain h | h | h := execWith_tick_cases P s
      · rw [h] at he
        cases he
      · rw [h] at he
        cases he
      · rw [h] at he
        exact execWith_invoke_fault_of_legal (s := taken s) ⟨hs.stage, hs.err, hs.timing⟩ he

/-! ## The retry counter (R245, D25) -/

/-- Construction zeroes the counter, a clearing retry step leaves at most the limit in it, and no other write touches
it. -/
theorem keptByWrites_retry_le (hclear : P.retryClearOnFallback = true) :
    KeptByWrites P fun c => c.retry.toNat ≤ retryLimit := by
  intro c c' hw hc
  cases hw with
  | construct => exact Nat.zero_le _
  | retry h => exact h hclear
  | _ => exact hc

end

/-- Settles O56: the counter is written by construction and by the retry step alone. -/
theorem retryCounterStaysBounded : Obligations.RetryCounterStaysBounded :=
  fun _ _ _ _ hclear hs he => (keptByWrites_retry_le hclear).execWith he hs

/-! ## INVOKE runs the control point (R251, R257) -/

/-- The stage operation of the control point, run by itself, is the stage that INVOKE runs. -/
theorem exec_stageInstr {i : Instr} {s : State} (hl : s.live = true) (hi : stageInstr s.ctx.stage = some i) :
    exec i s = finish .stageEnd (runStage Config.P s) := by
  obtain h | h | h | h | h | h := stage_cases s.ctx.stage
  · have : i = .stagePrepare := by simpa [stageInstr, h] using hi.symm
    rw [this, runStage_prepare h]
    exact onContext_live hl _
  · have : i = .stageRxtiming := by simpa [stageInstr, h] using hi.symm
    rw [this, runStage_rxTiming h]
    exact onContext_live hl _
  · have : i = .stageRxpll := by simpa [stageInstr, h] using hi.symm
    rw [this, runStage_rxPll h]
    exact onContext_live hl _
  · have : i = .stageTxvidcfg := by simpa [stageInstr, h] using hi.symm
    rw [this, runStage_txVidCfg h]
    exact onContext_live hl _
  · have : i = .stageTxvidout := by simpa [stageInstr, h] using hi.symm
    rw [this, runStage_txVidOut h]
    exact onContext_live hl _
  · have hnone : stageInstr s.ctx.stage = none := by
      revert h
      generalize s.ctx.stage = st
      revert st
      decide
    rw [hnone] at hi
    cases hi

theorem exec_invoke_live {s : State} (hl : s.live = true) :
    exec .invoke s = finish (fun _ => .unit) (invokeLoop Config.P 5 s) := onContext_live hl _

/-- After a round that went on, INVOKE is INVOKE from the stage after it (log 13). -/
theorem exec_invoke_after_next {s s1 : State} (hl : s.live = true)
    (hr : runStage Config.P s = (.ok .next, s1)) : exec .invoke s = exec .invoke s1 := by
  have hround := runStage_round Config.P s
  have hsame := stepRule_sameRun.runStage Config.P s
  rw [hr] at hround hsame
  cases hround with
  | next hlt h =>
    rw [exec_invoke_live hl, exec_invoke_live (hsame.live.trans hl), invokeLoop_next hr,
      invokeLoop_succ ((enoughRounds_five s.ctx).next hlt h)]

/-- Settles O50: by the ways a round can end; the loop's bound of five is never met (log 13). -/
theorem invokeRunsTheControlPoint : Obligations.InvokeRunsTheControlPoint := by
  refine ⟨rfl, refusedDetached_of_ne nofun nofun, fun s hl => ⟨fun hbad => ?_, fun i hi => ?_⟩⟩
  · rw [exec_invoke_live hl, invokeLoop_fault (runStage_bad hbad)]
    rfl
  have hround := runStage_round Config.P s
  have hsame := stepRule_sameRun.runStage Config.P s
  rcases hr : runStage Config.P s with ⟨o, u⟩
  have hstage := exec_stageInstr hl hi
  rw [hr] at hround hsame hstage
  rw [hstage]
  cases hround with
  | next hlt h =>
    refine ⟨nofun, nofun, fun t ht => ⟨u, hsame.results, .inl ?_⟩⟩
    cases ht
    exact ⟨rfl, h.1, exec_invoke_after_next hl hr⟩
  | stays | back | fellBack =>
    refine ⟨nofun, nofun, fun t ht => ⟨u, hsame.results, .inr (.inl ?_)⟩⟩
    cases ht
    exact ⟨rfl, by rw [exec_invoke_live hl, invokeLoop_yield hr]; rfl⟩
  | err _ h =>
    refine ⟨nofun, nofun, fun t ht => ⟨u, hsame.results, .inr (.inr ?_)⟩⟩
    cases ht
    exact ⟨rfl, h.1, h.2, by rw [exec_invoke_live hl, invokeLoop_err hr]; rfl⟩
  | badStage | noTiming | divZero =>
    refine ⟨fun f hf => ?_, nofun, fun _ ht => nomatch ht⟩
    rw [exec_invoke_live hl, invokeLoop_fault hr]
    exact hf
  | refused =>
    refine ⟨nofun, fun q hq => ?_, fun _ ht => nomatch ht⟩
    rw [exec_invoke_live hl, invokeLoop_refuse hr]
    exact hq

end Sys2Proof.Proofs
end

