-- ==== Sys2Proof/Proofs/HostCommands.lean ====
section
/-! The host lifecycle commands (R252 to R256, R260), and SCHEDULE, RETRY_UPDATE and POLL run by themselves (R245, R249,
R250). -/

namespace Sys2Proof.Proofs

open Sys2Proof Sys2Proof.Machine Sys2Proof.Safety

variable {s t : State}

/-! ## ATTACH, ENABLE, DISABLE, DETACH, TICK -/

/-- Without a live context ATTACH checks the three conditions in turn (R253). -/
theorem exec_attach_free (hl : s.live = false) (c : BitVec 3) :
    exec (.attach c) s = if c.getLsbD 0 = false then .next (s.record (.fail .missingGpio))
      else if c.getLsbD 1 = false then .next (s.record (.fail .missingClock))
      else if c.getLsbD 2 = false then .next (s.record (.fail .dsiAttachDefer))
      else .next ((construct s).record (.ok .unit)) := if_neg (by simp [hl])

/-- Settles O9: the four checks of ATTACH, in their order, decide what it does. -/
theorem attachFollowsItsChecks : Obligations.AttachFollowsItsChecks := by
  intro c s
  refine ⟨rfl, fun hl => if_pos hl, fun hl h0 => ?_, fun hl h0 h1 => ?_, fun hl h0 h1 h2 => ?_,
    fun hl h0 h1 h2 => ?_⟩
  · rw [exec_attach_free hl, if_pos h0]
  · rw [exec_attach_free hl, if_neg (by simp [h0]), if_pos h1]
  · rw [exec_attach_free hl, if_neg (by simp [h0]), if_neg (by simp [h1]), if_pos h2]
  · rw [exec_attach_free hl, if_neg (by simp [h0]), if_neg (by simp [h1]), if_neg (by simp [h2])]
    rfl

theorem exec_enable_live (hl : s.live = true) :
    exec .enable s = .next ((enableEffect Config.P s).record (.ok .unit)) := onContext_live hl _

/-- Settles O10: ENABLE writes two fields and schedules, which sets the third (R250). -/
theorem enableRestartsBringUp : Obligations.EnableRestartsBringUp := by
  refine ⟨rfl, fun s hl => ?_, refusedDetached_of_ne nofun nofun, fun s hc => onContext_unconstructed hc _⟩
  rw [exec_enable_live hl, enableEffect, schedule_eq]
  rfl

theorem exec_disable_live (hl : s.live = true) : exec .disable s = .next (s.record (.ok .unit)) :=
  onContext_live hl _

/-- Settles O11: DISABLE only records its result. -/
theorem disableChangesNothing : Obligations.DisableChangesNothing :=
  ⟨rfl, fun _ hl => exec_disable_live hl, refusedDetached_of_ne nofun nofun,
    fun _ hc => onContext_unconstructed hc _⟩

theorem exec_detach_live (hl : s.live = true) :
    exec .detach s = .next ((detachEffect s).record (.ok .unit)) := onContext_live hl _

/-- Settles O12: the effect of DETACH is the two flags and the release event. -/
theorem detachCancelsAndReleases : Obligations.DetachCancelsAndReleases :=
  ⟨rfl, fun _ hl => exec_detach_live hl, refusedDetached_of_ne nofun nofun,
    fun _ hc => onContext_unconstructed hc _⟩

theorem exec_tick_pending (hl : s.live = true) (hp : s.ctx.pending = true) :
    exec .tick s = exec .invoke (taken s) := by
  rw [exec_eq_execWith, exec_eq_execWith, execWith_tick_pending hl hp]

/-- Settles O13: TICK by whether there is a context, a live one, an invocation pending. -/
theorem tickRunsThePendingInvocation : Obligations.TickRunsThePendingInvocation :=
  ⟨rfl, fun _ => ⟨exec_tick_unconstructed, exec_tick_detached, exec_tick_idle, exec_tick_pending⟩⟩

/-- A TICK that finds nothing to run records its result (R252). -/
theorem exec_tick_quiescent (hq : quiescent s) (he : exec .tick s = .next t) : t = s.record (.ok .unit) := by
  cases hc : s.constructed with
  | false =>
    rw [exec_tick_unconstructed hc] at he
    cases he
  | true =>
    cases hd : s.ctx.detached with
    | true =>
      rw [exec_tick_detached hc hd] at he
      exact (Host.Outcome.next.inj he).symm
    | false =>
      have hp : s.ctx.pending = false := hq.resolve_right (by simp [hd])
      rw [exec_tick_idle (by simp [State.live, hc, hd]) hp] at he
      exact (Host.Outcome.next.inj he).symm

/-- Settles O58: DISABLE, DETACH and a TICK with nothing to run issue no transaction; DETACH ends with nothing
pending. -/
theorem quiescentRunsStaySilent : Obligations.QuiescentRunsStaySilent := by
  intro i s t hq hhost henable hattach he
  cases i with
  | attach c => exact absurd rfl (hattach c)
  | enable => exact absurd rfl henable
  | disable =>
    obtain ⟨hl, -⟩ := onContext_next he
    rw [exec_disable_live hl] at he
    cases he
    exact ⟨hq, rfl, rfl⟩
  | detach =>
    rw [exec_detach_next he]
    exact ⟨.inl rfl, rfl, by simp [detachEffect, Event.isBus]⟩
  | tick =>
    rw [exec_tick_quiescent hq he]
    exact ⟨hq, rfl, rfl⟩
  | _ => cases hhost

/-! ## SCHEDULE (R250) -/

/-- With an invocation pending SCHEDULE changes nothing, its delay class included. -/
theorem schedule_of_pending {P : Params} {d : DelayClass} (hp : s.ctx.pending = true) : schedule P d s = s :=
  if_pos hp

/-- With none pending SCHEDULE makes one pending with one event. -/
theorem schedule_of_idle {P : Params} {d : DelayClass} (hp : s.ctx.pending = false) :
    schedule P d s = (s.modCtx fun c => { c with pending := true }).emit (.sched d (delayMs P d)) :=
  if_neg (by simp [hp])

theorem exec_schedule_live (hl : s.live = true) (d : DelayClass) :
    exec (.schedule d) s = .next ((schedule Config.P d s).record (.ok .unit)) := onContext_live hl _

/-- Settles O49: the two cases of SCHEDULE. -/
theorem scheduleIsIdempotent : Obligations.ScheduleIsIdempotent := by
  refine fun d => ⟨rfl, refusedDetached_of_ne nofun nofun, fun s hl => ⟨fun hp => ?_, fun hp => ?_⟩⟩
  · rw [exec_schedule_live hl, schedule_of_pending hp]
  · rw [exec_schedule_live hl, schedule_of_idle hp]
    rfl

/-! ## RETRY_UPDATE (R245) -/

theorem exec_retryUpdate_live (hl : s.live = true) (k : Bool) (e : ErrCode) :
    exec (.retryUpdate k e) s = .next ((retryUpdate Config.P k e s).record (.ok .unit)) := onContext_live hl _

/-- A failure that does not fall back keeps the stage and counts. -/
theorem retried_of_stays {P : Params} {k : Bool} {e : ErrCode} (hf : retryFalls k s = false) :
    (retried P k e s).ctx.retry = BitVec.ofNat 32 (retryCounted k s)
      ∧ (retried P k e s).ctx.stage = s.ctx.stage := by
  simp [retried, scheduled, hf]

/-- A failure that falls back goes to Prepare and clears the counter as the parameter says. -/
theorem retried_of_falls {P : Params} {k : Bool} {e : ErrCode} (hf : retryFalls k s = true) :
    (retried P k e s).ctx.stage = 0 ∧ (retried P k e s).ctx.retry
      = if P.retryClearOnFallback then 0 else BitVec.ofNat 32 (retryCounted k s) := by
  simp [retried, scheduled, hf]

/-- Below the wrap an unhinted failure counts one up. -/
theorem retryCounted_unhinted (h : s.ctx.retry.toNat < 4294967295) :
    (BitVec.ofNat 32 (retryCounted false s)).toNat = s.ctx.retry.toNat + 1 := by
  simp only [retryCounted, BitVec.toNat_ofNat, Bool.false_eq_true, if_false]
  omega

/-- Settles O44: the retry step as R245 writes it, and its cases by the hint and the counter against the limit. -/
theorem retryUpdateCountsAndFallsBack : Obligations.RetryUpdateCountsAndFallsBack := by
  refine fun k e => ⟨rfl, refusedDetached_of_ne nofun nofun, fun s hl => ?_, fun P s t he => ?_⟩
  · rw [exec_retryUpdate_live hl, retryUpdate_eq]
  rw [execWith_retryUpdate_next he, State.record_ctx]
  refine ⟨retried_err k e, retried_pending k e, ?_, ?_, ?_⟩
  · rintro rfl
    exact retried_of_stays rfl
  · rintro rfl hlow
    have hf : retryFalls false s = false := by
      simpa [hlow] using mt retryFalls_iff.1 (fun h => absurd h.2.1 (by omega))
    obtain ⟨hretry, hstage⟩ := retried_of_stays (P := P) (e := e) hf
    exact ⟨by rw [hretry, retryCounted_unhinted (by omega)], hstage⟩
  · rintro rfl hlow hhigh
    obtain ⟨hstage, hretry⟩ := retried_of_falls (P := P) (e := e) (retryFalls_iff.2 ⟨rfl, hlow, hhigh⟩)
    refine ⟨hstage, ?_⟩
    rw [hretry, apply_ite BitVec.toNat, retryCounted_unhinted hhigh]
    rfl

/-! ## POLL (R249) -/

theorem runsBus_poll (i : StatusId) (n : Byte) (g : Gap) :
    RunsBus (.poll i n g) (poll Config.P i n g) .bool := fun _ hl => onContext_live hl _

/-- Settles O48: a poll is a chain of reads, each unset one followed by its wait, that the first set read ends (the
500 ms is log 34's). -/
theorem pollReadsUntilSet : Obligations.PollReadsUntilSet := fun i n g =>
  have hrun := runsBus_poll i n g
  ⟨rfl, refusedDetached_of_ne nofun nofun, fun _ _ hl =>
    ⟨fun _ hset => ⟨hrun.completes hl (issues_pollSet hset), hrun.failsAtCut hl (stops_pollSet hset)⟩,
      fun hlen hunset => hrun.completes hl (issues_pollUnset hlen hunset)⟩⟩

end Sys2Proof.Proofs
end

