-- ==== Sys2Proof/Proofs/StageRuns.lean ====
section
/-! The stage operations run by themselves: each issues its trace, leaves its context and records how it ended (R243,
R244, R246 to R248). -/

namespace Sys2Proof.Proofs

open Sys2Proof Sys2Proof.Machine Sys2Proof.Safety

section

variable {α : Type} {P : Params} {i : Instr} {x : Op α} {val : α → Value} {s s' : State} {T : List Event}

/-! ## An operation that is one `Op` -/

/-- On a live context the operation `i`, with the parameters `P`, is `x` and the record of its result. -/
def RunsOp (P : Params) (i : Instr) (x : Op α) (val : α → Value) : Prop :=
  ∀ s : State, s.live = true → execWith P i s = finish val (x s)

theorem RunsOp.ok (h : RunsOp P i x val) (hl : s.live = true) {v : α} (hx : x s = (.ok v, s')) :
    execWith P i s = .next (s'.record (.ok (val v))) := by
  rw [h s hl, hx]; rfl

theorem RunsOp.refused (h : RunsOp P i x val) (hl : s.live = true) {q : Refusal} (hx : x s = (.refuse q, s')) :
    execWith P i s = .refused q := by
  rw [h s hl, hx]; rfl

theorem RunsOp.fault (h : RunsOp P i x val) (hl : s.live = true) {f : Fault} (hx : x s = (.fault f, s')) :
    execWith P i s = .fault f := by
  rw [h s hl, hx]; rfl

theorem RunsOp.fails (h : RunsOp P i x val) (hl : s.live = true) {e : ErrCode} (hx : x s = (.fail e, s')) :
    execWith P i s = .next (s'.record (.fail e)) := by
  rw [h s hl, hx]; rfl

/-- At an `Err` the operation stops and records a TransportError; what the trace did before stands. -/
theorem RunsOp.failsAtCut (h : RunsOp Config.P i x val) (hl : s.live = true) {F : Nat → Ctx → Ctx}
    (hx : FailsAtCuts x T F) : failsAtCut i s s T F := by
  intro k hk hg
  rw [exec_eq_execWith]
  exact h.fails hl ((hx k hk).at hg)

theorem runsOp_stagePrepare (P : Params) : RunsOp P .stagePrepare (stagePrepare P) .stageEnd :=
  fun _ hl => onContext_live hl _

theorem runsOp_stageRxTiming (P : Params) : RunsOp P .stageRxtiming (stageRxTiming P) .stageEnd :=
  fun _ hl => onContext_live hl _

theorem runsOp_stageRxPll (P : Params) : RunsOp P .stageRxpll (stageRxPll P) .stageEnd :=
  fun _ hl => onContext_live hl _

theorem runsOp_stageTxVidCfg (P : Params) : RunsOp P .stageTxvidcfg (stageTxVidCfg P) .stageEnd :=
  fun _ hl => onContext_live hl _

theorem runsOp_stageTxVidOut (P : Params) : RunsOp P .stageTxvidout (stageTxVidOut P) .stageEnd :=
  fun _ hl => onContext_live hl _

end

/-! ## Prepare and TxVideoOut (R243, R248) -/

/-- Settles O42: Prepare issues its trace whatever the identity read (log 8 is the statement's hypothesis). -/
theorem prepareAlwaysAdvances : Obligations.PrepareAlwaysAdvances := by
  refine ⟨rfl, fun _ => refusedDetached_of_ne nofun nofun, fun P s hl hwrap => ?_, fun s id hl hfit hlen => ?_⟩
  · obtain ⟨s', h⟩ := stagePrepare_wraps hwrap s
    exact (runsOp_stagePrepare P).refused hl h
  · have hrun := runsOp_stagePrepare Config.P
    exact ⟨fun hg => hrun.ok hl ((leaves_stagePrepare hfit hlen).at hg),
      hrun.failsAtCut hl (fails_stagePrepare hfit hlen)⟩

/-- Settles O47: TxVideoOut issues its trace; before the measurement is read nothing is written, after it the measured
timing is (log 8 is the statement's hypothesis). -/
theorem txVideoOutDeclaresSteady : Obligations.TxVideoOutDeclaresSteady := by
  refine ⟨rfl, fun _ => refusedDetached_of_ne nofun nofun, fun P s hl hwrap => ?_, fun s bytes hl hfit hlen => ?_⟩
  · exact (runsOp_stageTxVidOut P).refused hl (stageTxVidOut_wraps hwrap s)
  · have hrun := runsOp_stageTxVidOut Config.P
    exact ⟨fun hg => hrun.ok hl ((leaves_stageTxVidOut hfit hlen).at hg),
      hrun.failsAtCut hl (fails_stageTxVidOut hfit hlen)⟩

/-! ## RxTimingConfig (R244) -/

section

variable {P : Params} (hP : detectFits P) (sot : Fin 4 → Byte × Byte) {blk : List Byte} (hb : blk.length = 5)
  (fr lp : Byte)
include hP hb

/-- A transaction of DETECT that returns `Err` ends RxTimingConfig as it ends DETECT (R257). -/
theorem fails_stageRxTiming : FailsAtCuts (stageRxTiming P) (detectEv P sot blk fr lp)
    (fun k c => { c with desc := descCut P blk fr k }) := fun k hk =>
  ⟨fun _ _ => rfl, fun _ hg =>
    stageRxTiming_of_fail ((fails_detect hP sot hb fr lp k hk).at hg) nofun⟩

/-- RxTimingConfig with a matching entry selects its timing and goes on. -/
theorem leaves_stageRxTiming_selects {e : TimingEntry}
    (hw : widthFits P (parseRxBlock P blk).1 (parseRxBlock P blk).2.2 = true)
    (hact : 400 ≤ (descOf P blk fr lp).hact.toNat) (vact : 400 ≤ (descOf P blk fr lp).vact.toNat)
    (hfind : P.timingTable.find? (entryMatches (descOf P blk fr lp).hact (descOf P blk fr lp).vact
      (descOf P blk fr lp).fr) = some e) (hclk : pclkFits e = true) :
    Leaves (stageRxTiming P) (detectEv P sot blk fr lp) (fun c =>
      { c with desc := descOf P blk fr lp, sel := timingFrom e, selValid := true, stage := 2 }) (.ok .next) := by
  refine ⟨fun _ _ => rfl, fun s hg => ?_⟩
  rw [stageRxTiming_of_ok ((leaves_detect_ok hP sot hb fr lp hw hact vact).at hg),
    (rxTimingSelect_ok hfind hclk).at rfl, play_nil]
  rfl

/-- RxTimingConfig without video takes the retry step (R202, R244). -/
theorem stageRxTiming_noVideo {s : State}
    (hw : widthFits P (parseRxBlock P blk).1 (parseRxBlock P blk).2.2 = true)
    (hlow : (descOf P blk fr lp).hact.toNat < 400 ∨ (descOf P blk fr lp).vact.toNat < 400)
    (hg : gives s (detectEv P sot blk fr lp) = true) :
    stageRxTiming P s = (.ok .yield, retried P ((descOf P blk fr lp).fmt == 0x0a) .noVideo
      ((play (detectEv P sot blk fr lp) s).modCtx fun c => { c with desc := descOf P blk fr lp })) :=
  stageRxTiming_of_noVideo ((leaves_detect_noVideo hP sot hb fr lp hw hlow).at hg)

end

/-- Settles O43: by the outcome of DETECT and of the lookup; that an entry's clock may be refused is log 26, and log 8
is the statement's hypothesis. -/
theorem rxTimingSelectsOrRetries : Obligations.RxTimingSelectsOrRetries := by
  refine ⟨rfl, fun _ => refusedDetached_of_ne nofun nofun, fun P s sot hl hwrap => ?_,
    fun s sot blk fr lp hl hP hb => ?_, fun P s sot blk fr lp hl hP hb => ?_⟩
  · obtain ⟨s', h⟩ := stageRxTiming_wraps hwrap
    exact (runsOp_stageRxTiming P).refused hl h
  · have hrun := runsOp_stageRxTiming Config.P
    refine ⟨fun e hg hw hact vact hfind hclk => ?_, fun hg hw hlow => ?_, ?_⟩
    · exact hrun.ok hl ((leaves_stageRxTiming_selects hP sot hb fr lp hw hact vact hfind hclk).at hg)
    · exact hrun.ok hl (stageRxTiming_noVideo hP sot hb fr lp hw hlow hg)
    · exact hrun.failsAtCut hl (fails_stageRxTiming hP sot hb fr lp)
  · have hrun := runsOp_stageRxTiming P
    intro T x d s1 hg
    refine ⟨fun hw hact vact hnone => ?_, fun e hw hact vact hfind hclk => ?_, fun hw => ?_⟩
    · have hd := (leaves_detect_ok hP sot hb fr lp hw hact vact).at hg
      exact hrun.ok hl ((stageRxTiming_of_ok hd).trans (rxTimingSelect_fail hnone s1))
    · have hd := (leaves_detect_ok hP sot hb fr lp hw hact vact).at hg
      exact hrun.refused hl ((stageRxTiming_of_ok hd).trans ((rxTimingSelect_refused hfind hclk).at rfl))
    · exact hrun.refused hl (stageRxTiming_of_refuse ((leaves_detect_refused hP sot hb fr lp hw).at hg))

/-! ## RxPllConfig (R246) -/

section

variable {P : Params} {s : State} {vs us : List Byte} {v u : Byte}

/-- The state in which RxPllConfig issues its transactions: the draws of its setting are made. -/
def drawn (P : Params) (s : State) : State :=
  { s with draws := s.draws + pcrDraws P s.ctx.sel.pclk.toNat }

/-- The second poll and the end of RxPllConfig, the video check read set. -/
theorem leaves_rxPllTail_set (hus : pollSets P .vidchkStable 50 us u = true) :
    Leaves (rxPllTail P true) (pollSetEv P .vidchkStable .none us u ++ listEv P P.seqTxSrcOn)
      (fun c => { c with stage := 3 }) (.ok .next) :=
  (Leaves.bind (Leaves.ofBus (issues_pollSet (n := vidchkPolls) (g := .none) hus))
    (k := rxPllVideoCheck P) leaves_rxPllDone).congr rfl

theorem fails_rxPllTail_set (hus : pollSets P .vidchkStable 50 us u = true) :
    FailsAtCuts (rxPllTail P true) (pollSetEv P .vidchkStable .none us u ++ listEv P P.seqTxSrcOn)
      (fun _ => id) :=
  (FailsAtCuts.bind (Leaves.ofBus (issues_pollSet (n := vidchkPolls) (g := .none) hus))
    (FailsAtCuts.ofBus (stops_pollSet hus)) (k := rxPllVideoCheck P) fails_rxPllDone).congr
    fun k _ => by split <;> rfl

/-- The end of RxPllConfig after a video check that ran out, where that advances (D27). -/
theorem rxPllVideoCheck_advances (hx : P.vidchkExhaust = .advance) :
    rxPllVideoCheck P false = (Op.emit (.log .vidChkTimeout)).andThen (rxPllDone P) := by
  simp [rxPllVideoCheck, hx]

/-- Where that fails, RxPllConfig goes back. -/
theorem rxPllVideoCheck_fails (hx : P.vidchkExhaust = .fail) :
    rxPllVideoCheck P false = backToRxTiming P .vidChkUnstable := by
  simp [rxPllVideoCheck, hx]

theorem leaves_rxPllTail_timeout (hx : P.vidchkExhaust = .advance) (hlen : us.length = 50)
    (hus : allUnset (P.statusBits .vidchkStable) us = true) :
    Leaves (rxPllTail P true) (unsetEv P (P.statusBits .vidchkStable) .none us
      ++ ([.log .vidChkTimeout] ++ listEv P P.seqTxSrcOn)) (fun c => { c with stage := 3 }) (.ok .next) :=
  (Leaves.bind (Leaves.ofBus (issues_pollUnset (n := vidchkPolls) (g := .none) hlen hus))
    (k := rxPllVideoCheck P) (by
      rw [rxPllVideoCheck_advances hx]
      exact Leaves.andThen (Leaves.emit rfl) leaves_rxPllDone)).congr rfl

theorem fails_rxPllTail_timeout (hx : P.vidchkExhaust = .advance) (hlen : us.length = 50)
    (hus : allUnset (P.statusBits .vidchkStable) us = true) :
    FailsAtCuts (rxPllTail P true) (unsetEv P (P.statusBits .vidchkStable) .none us
      ++ ([.log .vidChkTimeout] ++ listEv P P.seqTxSrcOn)) (fun _ => id) :=
  (FailsAtCuts.bind (Leaves.ofBus (issues_pollUnset (n := vidchkPolls) (g := .none) hlen hus))
    (FailsAtCuts.ofBus (stops_pollUnset hlen hus)) (k := rxPllVideoCheck P) (G := fun _ => id) (by
      rw [rxPllVideoCheck_advances hx]
      exact FailsAtCuts.andThen_id (Leaves.emit rfl) (FailsAtCuts.emit rfl _ _) fails_rxPllDone)).congr
    fun k _ => by split <;> rfl

variable (hsel : s.ctx.selValid = true) (hp : pcrFits P s.ctx.sel.pclk.toNat = true)
  (hvs : pollSets P .pcrStable 50 vs v = true)
include hsel hp hvs

/-- RxPllConfig, its PCR read stable, issues its writes, its first poll and what comes after it. -/
theorem stageRxPll_at {U : List Event} {f : Ctx → Ctx} {r : Out StageEnd} (hU : Leaves (rxPllTail P true) U f r)
    (hg : gives s (pllWritesEv P s ++ pollSetEv P .pcrStable .pcrGap vs v ++ U) = true) :
    stageRxPll P s = (r, (play (pllWritesEv P s ++ pollSetEv P .pcrStable .pcrGap vs v ++ U) (drawn P s)).modCtx
      fun c => f (withPll P s c)) := by
  rw [stageRxPll_eq hsel hp]
  exact (leaves_rxPllAfter (issues_pollSet (n := pcrPolls) (g := .pcrGap) hvs) hU).at
    ((gives_setDraws _ s _).trans hg)

/-- RxPllConfig stops at an `Err`, its settings stored (R257). -/
theorem stageRxPll_cut {U : List Event} (hU : FailsAtCuts (rxPllTail P true) U (fun _ => id)) {k : Nat}
    (hk : busAt (pllWritesEv P s ++ pollSetEv P .pcrStable .pcrGap vs v ++ U) k = true)
    (hg : gives s (cutAt (pllWritesEv P s ++ pollSetEv P .pcrStable .pcrGap vs v ++ U) k) = true) :
    stageRxPll P s = (.fail .transportError,
      (play (cutAt (pllWritesEv P s ++ pollSetEv P .pcrStable .pcrGap vs v ++ U) k) (drawn P s)).modCtx
        (withPll P s)) := by
  rw [stageRxPll_eq hsel hp]
  exact (fails_rxPllAfter (issues_pollSet (n := pcrPolls) (g := .pcrGap) hvs)
    (stops_pollSet (n := pcrPolls) (g := .pcrGap) hvs) hU k hk).at ((gives_setDraws _ s _).trans hg)

end

theorem rxPllEv_eq (P : Params) (s : State) (vs : List Byte) (v : Byte) (us : List Byte) (u : Byte) :
    rxPllEv P s vs v us u = pllWritesEv P s ++ pollSetEv P .pcrStable .pcrGap vs v
      ++ (pollSetEv P .vidchkStable .none us u ++ listEv P P.seqTxSrcOn) := List.append_assoc _ _ _

theorem rxPllTimeoutEv_eq (P : Params) (s : State) (vs : List Byte) (v : Byte) (us : List Byte) :
    rxPllTimeoutEv P s vs v us = pllWritesEv P s ++ pollSetEv P .pcrStable .pcrGap vs v
      ++ (unsetEv P (P.statusBits .vidchkStable) .none us
        ++ ([.log .vidChkTimeout] ++ listEv P P.seqTxSrcOn)) := by
  simp only [rxPllTimeoutEv, List.append_assoc]

/-- Settles O45: by the two polls; the refusals come before any transaction (log 33), the 500 ms is log 34's. -/
theorem rxPllLocksOrGoesBack : Obligations.RxPllLocksOrGoesBack := by
  refine ⟨rfl, fun s hc hd _ _ => refusedDetached_of_ne (i := .stageRxpll) nofun nofun s hc hd, fun s hl hsel => ?_,
    fun s hl hsel hp => ?_, fun s vs us v u hl hsel hp => ⟨fun hvs hus => ⟨fun hg => ?_, fun k hk hg => ?_⟩,
      fun hlen hvs hg => ?_⟩,
    fun P s vs us v hl hsel hp hvs hlen hus => ⟨fun hx hg => ?_, fun k hx hk hg => ?_, fun hx hg => ?_⟩⟩
  · exact (runsOp_stageRxPll Config.P).fault hl (stageRxPll_noTiming hsel)
  · exact (runsOp_stageRxPll Config.P).refused hl (stageRxPll_refused hsel hp)
  · rw [rxPllEv_eq] at hg ⊢
    exact (runsOp_stageRxPll Config.P).ok hl (stageRxPll_at hsel hp hvs (leaves_rxPllTail_set hus) hg)
  · rw [rxPllEv_eq] at hk hg ⊢
    exact (runsOp_stageRxPll Config.P).fails hl (stageRxPll_cut hsel hp hvs (fails_rxPllTail_set hus) hk hg)
  · refine (runsOp_stageRxPll Config.P).ok hl ((stageRxPll_unstable hsel hp hlen hvs hg).trans ?_)
    exact backToRxTiming_eq _ _
  · rw [rxPllTimeoutEv_eq] at hg ⊢
    exact (runsOp_stageRxPll P).ok hl (stageRxPll_at hsel hp hvs (leaves_rxPllTail_timeout hx hlen hus) hg)
  · rw [rxPllTimeoutEv_eq] at hk hg ⊢
    exact (runsOp_stageRxPll P).fails hl
      (stageRxPll_cut hsel hp hvs (fails_rxPllTail_timeout hx hlen hus) hk hg)
  · refine (runsOp_stageRxPll P).ok hl ((stageRxPll_timeout hsel hp hvs hlen hus hg).trans ?_)
    rw [rxPllVideoCheck_fails hx]
    exact backToRxTiming_eq _ _

/-! ## TxVideoConfig (R247) -/

/-- The warning is the last event of TxVideoConfig without lock, and no transaction. -/
theorem emit_warn_play (T : List Event) (f : Ctx → Ctx) (s : State) :
    ((play T s).modCtx f).emit (.warn .pllUnlocked) = (play (T ++ [.warn .pllUnlocked]) s).modCtx f := by
  rw [play_append, play_emit rfl]
  rfl

/-- Settles O46: by the readback and the poll of the lock bit (log 8 is the statement's hypothesis). -/
theorem txVideoConfigLocksOrRetries : Obligations.TxVideoConfigLocksOrRetries := by
  have hw := Config.P_wellFormed
  have hrun := runsOp_stageTxVidCfg Config.P
  refine ⟨rfl, fun _ => refusedDetached_of_ne nofun nofun, fun P s hl hwrap => ?_,
    fun s bytes vs v hl hfit hlen h1 hclk => ⟨fun hvs => ⟨fun hg => ?_, ?_⟩, fun hn hvs hg => ?_⟩,
    fun P s bytes hl hP hfit hlen hg => ⟨fun h0 => ?_, fun h1 hclk => ?_⟩⟩
  · exact (runsOp_stageTxVidCfg P).refused hl (stageTxVidCfg_wraps hwrap s)
  · exact hrun.ok hl ((leaves_stageTxVidCfg_locked hfit hw hlen h1 hclk hvs).at hg)
  · exact hrun.failsAtCut hl (fails_stageTxVidCfg hfit hw hlen h1 hclk hvs)
  · rw [gives_append, Bool.and_eq_true] at hg
    refine hrun.ok hl ((stageTxVidCfg_unlocked hfit hw hlen h1 hclk hn hvs hg.1).trans ?_)
    rw [txUnlocked_eq, emit_warn_play]
    rfl
  · exact (runsOp_stageTxVidCfg P).fault hl ((stageTxVidCfg_zero hfit hlen h0).at hg)
  · exact (runsOp_stageTxVidCfg P).refused hl ((stageTxVidCfg_refused hfit hP hlen h1 hclk).at hg)

end Sys2Proof.Proofs
end

