-- ==== Sys2Proof/Proofs/BringUp.lean ====
section
/-! Whole invocations: the one that brings the output up, and the one that finds no video (R240, R241, R251, R252,
R261 (e)). -/

namespace Sys2Proof.Proofs

open Sys2Proof Sys2Proof.Machine Sys2Proof.Safety

/-- The state after a trace, `n` draws and a change of the context: how far an invocation has come. -/
def reached (T : List Event) (n : Nat) (f : Ctx → Ctx) (s : State) : State :=
  (play T { s with draws := s.draws + n }).modCtx f

/-- The oracle's answers depend on the trace so far, not on the context or the draws (R78). -/
theorem gives_reached (T U : List Event) (n : Nat) (f : Ctx → Ctx) (s : State) :
    gives (reached T n f s) U = gives (play T s) U :=
  gives_congr (s := reached T n f s) (t := play T s) rfl rfl rfl U

theorem play_reached {f : Ctx → Ctx} (hf : CountFree f) (T U : List Event) (n : Nat) (s : State) :
    play U (reached T n f s) = reached (T ++ U) n f s := by
  rw [reached, play_modCtx U f _ hf, ← play_append]
  rfl

/-- A stage that issues a trace takes an invocation so much further. -/
theorem round_reached {P : Params} {x : Op StageEnd} {T U : List Event} {f g : Ctx → Ctx} {r : Out StageEnd}
    {n : Nat} {s : State} (hrun : runStage P (reached T n f s) = x (reached T n f s)) (hx : Leaves x U g r)
    (hf : CountFree f) (hg : gives (play T s) U = true) :
    runStage P (reached T n f s) = (r, reached (T ++ U) n (fun c => g (f c)) s) := by
  rw [hrun, hx.at ((gives_reached T U n f s).trans hg), play_reached hf]
  rfl

section

variable {P : Params} {s : State}

/-! ## An absent source (R244, R245, R261 (e)) -/

/-- The loop from a control point at RxTimingConfig, the chip reporting no video: one round, taken by the retry
step. -/
theorem invokeLoop_noVideo (hP : detectFits P) (sot : Fin 4 → Byte × Byte) {blk : List Byte} (hb : blk.length = 5)
    (fr lp : Byte) (hw : widthFits P (parseRxBlock P blk).1 (parseRxBlock P blk).2.2 = true)
    (hlow : (descOf P blk fr lp).hact.toNat < 400 ∨ (descOf P blk fr lp).vact.toNat < 400)
    (hat : s.ctx.stage = 1) (hg : gives s (detectEv P sot blk fr lp) = true) (n : Nat) :
    ∃ t : State, invokeLoop P (n + 1) s = (.ok (), t) ∧ t.live = s.live ∧ t.ctx.pending = true ∧ t.ctx.err = 2
      ∧ (t.ctx.stage = 1 ∨ t.ctx.stage = 0) ∧ t.ctx.desc = descOf P blk fr lp := by
  have hround := (runStage_rxTiming hat).trans (stageRxTiming_noVideo hP sot hb fr lp hw hlow hg)
  refine ⟨_, invokeLoop_yield hround, (retried_live _ _).trans (State.modCtx_live rfl), retried_pending _ _,
    retried_err _ _, ?_, retried_desc _ _⟩
  rw [retried_stage]
  split
  · exact .inr rfl
  · exact .inl hat

end

/-- Settles O57: from Prepare one round comes before the one that finds no video; the retry step schedules the next
invocation (log 8 is the statement's hypothesis). -/
theorem absentSourceIsRetried : Obligations.AbsentSourceIsRetried := by
  intro s sot blk id fr lp hl hp hP hfit hb hlen T x d hw hlow hcase
  have hlt : (taken s).live = true := hl
  have hloop : ∃ t : State, invokeLoop Config.P 5 (taken s) = (.ok (), t) ∧ t.live = s.live
      ∧ t.ctx.pending = true ∧ t.ctx.err = 2 ∧ (t.ctx.stage = 1 ∨ t.ctx.stage = 0) ∧ t.ctx.desc = d := by
    obtain ⟨hat, hg⟩ | ⟨hat, hg⟩ := hcase
    · exact invokeLoop_noVideo (s := taken s) hP sot hb fr lp hw hlow hat ((gives_modCtx _ s T).trans hg) 4
    · have hgt : gives (taken s) (prepareEv Config.P id ++ T) = true := (gives_modCtx _ s _).trans hg
      rw [gives_append, Bool.and_eq_true] at hgt
      have hround := (runStage_prepare (P := Config.P) (s := taken s) hat).trans
        ((leaves_stagePrepare hfit hlen).at hgt.1)
      rw [invokeLoop_next hround]
      exact invokeLoop_noVideo hP sot hb fr lp hw hlow rfl ((gives_modCtx _ _ T).trans hgt.2) 3
  obtain ⟨t, ht, hlive, hrest⟩ := hloop
  refine ⟨t.record (.ok .unit), ?_, hlive.trans hl, hrest⟩
  rw [exec_tick_pending hl hp, exec_invoke_live hlt, ht]
  rfl

/-! ## The full bring-up (R240 to R248) -/

/-- The clock of an admitted entry is the quotient of R173. -/
theorem timingFrom_pclk_toNat {e : TimingEntry} (h : pclkFits e = true) :
    (timingFrom e).pclk.toNat = e.htotal.toNat * e.vtotal.toNat * e.fr.toNat / 1000 := by
  simp only [pclkFits, decide_eq_true_eq] at h
  simp only [timingFrom, BitVec.toNat_ofNat]
  omega

section

variable (P : Params) (b : BringUp) (s : State)

/-- The state after a full bring-up. -/
def broughtUp : State :=
  { s with
    ctx := b.ctxAfter P s, history := s.history ++ b.trace P s,
    script := s.script.drop ((b.trace P s).countP Event.isBus),
    draws := s.draws + pcrDraws P (timingFrom b.entry).pclk.toNat }

/-- What TxVideoConfig issues in it: its writes, and its poll set at the first read. -/
def lockEv : List Event :=
  txCfgWritesEv P b.readback (txPllOf P (b.clock P)) ++ pollSetEv P .txpllLock .txlockGap [] b.lockByte

theorem bringUp_trace_eq : b.trace P s = prepareEv P b.id ++ detectEv P b.sot b.blk b.fr b.lp
    ++ rxPllEv P (b.selected s) [] b.pcrByte [] b.vidByte ++ lockEv P b ++ txOutEv P b.measured := by
  simp only [BringUp.trace, lockEv, List.append_assoc]

/-- What the first two stages write. -/
def selects (c : Ctx) : Ctx :=
  { c with desc := descOf P b.blk b.fr b.lp, sel := timingFrom b.entry, selValid := true, stage := 2 }

/-- The state in which RxPllConfig begins. -/
def atRxPll : State := reached (prepareEv P b.id ++ detectEv P b.sot b.blk b.fr b.lp) 0 (selects P b) s

/-- What the first three stages write. -/
def locksPcr (c : Ctx) : Ctx := { withPll P (atRxPll P b s) (selects P b c) with stage := 3 }

/-- What the first four stages write. -/
def locksTx (c : Ctx) : Ctx :=
  { configured (pclkOf P b.readback) (txPllOf P (b.clock P)) (locksPcr P b s c) with stage := 4 }

variable {P b s}

/-- RxPllConfig in a bring-up, both status bits set at their first read. -/
theorem stageRxPll_bringUp (hclk : pclkFits b.entry = true)
    (hpcr : pcrFits P (b.entry.htotal.toNat * b.entry.vtotal.toNat * b.entry.fr.toNat / 1000) = true)
    (hset1 : pollSets P .pcrStable 50 [] b.pcrByte = true) (hset2 : pollSets P .vidchkStable 50 [] b.vidByte = true)
    (hg : gives (play (prepareEv P b.id ++ detectEv P b.sot b.blk b.fr b.lp) s)
      (rxPllEv P (b.selected s) [] b.pcrByte [] b.vidByte) = true) :
    stageRxPll P (atRxPll P b s) = (.ok .next, reached (prepareEv P b.id ++ detectEv P b.sot b.blk b.fr b.lp
      ++ rxPllEv P (b.selected s) [] b.pcrByte [] b.vidByte) (pcrDraws P (timingFrom b.entry).pclk.toNat)
      (locksPcr P b s) s) := by
  have hfits : pcrFits P (atRxPll P b s).ctx.sel.pclk.toNat = true :=
    (congrArg (pcrFits P) (timingFrom_pclk_toNat hclk)).trans hpcr
  have hev : rxPllEv P (b.selected s) [] b.pcrByte [] b.vidByte
      = pllWritesEv P (atRxPll P b s) ++ pollSetEv P .pcrStable .pcrGap [] b.pcrByte
        ++ (pollSetEv P .vidchkStable .none [] b.vidByte ++ listEv P P.seqTxSrcOn) := rxPllEv_eq _ _ _ _ _ _
  have hdrawn : drawn P (atRxPll P b s) = reached (prepareEv P b.id ++ detectEv P b.sot b.blk b.fr b.lp)
      (pcrDraws P (timingFrom b.entry).pclk.toNat) (selects P b) s := rfl
  rw [hev] at hg ⊢
  rw [stageRxPll_at rfl hfits hset1 (leaves_rxPllTail_set hset2) ((gives_reached _ _ _ _ s).trans hg), hdrawn,
    play_reached fun _ _ => rfl]
  rfl

/-- When the reports succeed, the loop runs the five stages, each status bit set when first read, and yields at the last. -/
theorem invokeLoop_bringUp (hb : b.Succeeds P) (hw : P.wellFormed = true) (hat : s.ctx.stage = 0)
    (hg : gives s (b.trace P s) = true) : invokeLoop P 5 s = (.ok (), broughtUp P b s) := by
  obtain ⟨⟨hdetect, hid, hrb, hmeas⟩, hidlen, hblk, hwidth, hact, vact, hfind, hclk, hpcr, hset1, hset2, hset3,
    hrblen, hmeaslen, hlow, hhigh⟩ := hb
  simp only [bringUp_trace_eq, gives_append, Bool.and_eq_true] at hg
  obtain ⟨⟨⟨⟨hg1, hg2⟩, hg3⟩, hg4⟩, hg5⟩ := hg
  have h1 : runStage P s = (.ok .next, reached (prepareEv P b.id) 0 (fun c => { c with stage := 1 }) s) :=
    (runStage_prepare hat).trans ((leaves_stagePrepare hid hidlen).at hg1)
  have h2 : runStage P (reached (prepareEv P b.id) 0 (fun c => { c with stage := 1 }) s)
      = (.ok .next, atRxPll P b s) :=
    round_reached (runStage_rxTiming rfl) (leaves_stageRxTiming_selects hdetect b.sot hblk b.fr b.lp hwidth hact
      vact hfind hclk) (fun _ _ => rfl) hg2
  have h3 := (runStage_rxPll (P := P) (s := atRxPll P b s) rfl).trans
    (stageRxPll_bringUp hclk hpcr hset1 hset2 hg3)
  have h4 := round_reached (n := pcrDraws P (timingFrom b.entry).pclk.toNat) (f := locksPcr P b s)
    (runStage_txVidCfg rfl) (leaves_stageTxVidCfg_locked hrb hw hrblen hlow (txPllFits_of_lt P hhigh) hset3)
    (fun _ _ => rfl) hg4
  have h5 := round_reached (n := pcrDraws P (timingFrom b.entry).pclk.toNat) (f := locksTx P b s)
    (runStage_txVidOut rfl) (leaves_stageTxVidOut hmeas hmeaslen) (fun _ _ => rfl) hg5
  rw [invokeLoop_next h1, invokeLoop_next h2, invokeLoop_next h3]
  refine (invokeLoop_next h4).trans ((invokeLoop_yield h5).trans ?_)
  rw [← bringUp_trace_eq]
  rfl

end

/-- Settles O51: TICK is the same invocation with the flag cleared (log 8 is part of `Succeeds`). -/
theorem oneInvocationBringsTheOutputUp : Obligations.OneInvocationBringsTheOutputUp := by
  intro b s hb hl hat hg
  refine ⟨?_, fun hp => ?_⟩
  · rw [exec_invoke_live hl, invokeLoop_bringUp hb Config.P_wellFormed hat hg]
    rfl
  · have hg' : gives (taken s) (b.trace Config.P (taken s)) = true := (gives_modCtx _ s _).trans hg
    rw [exec_tick_pending hl hp, exec_invoke_live (live_taken.trans hl),
      invokeLoop_bringUp (s := taken s) hb Config.P_wellFormed hat hg']
    rfl

end Sys2Proof.Proofs
end

