-- ==== Sys2Proof/Proofs/Parameters.lean ====
section
/-! The parameters of a run (R310, log 28): the well-formedness check against the conditions of R167, R169, R200 and
R205, and the step under a parameter set. -/

namespace Sys2Proof.Proofs

open Sys2Proof Sys2Proof.Machine Sys2Proof.Safety

/-! ## The check, record by record -/

/-- The check of R167. -/
theorem txPrediv_wellFormed_iff (t : TxPredivParam) : t.wellFormed = true ↔
    (20000 ≤ t.t2 ∧ t.t2 ≤ t.t3 ∧ t.t3 ≤ 320000) ∧ (t.v2 ≠ 0 ∧ t.v3 ≠ 0 ∧ t.v4 ≠ 0) := by
  simp [TxPredivParam.wellFormed, and_assoc]

/-- The check of R169. -/
theorem txSerdiv_wellFormed_iff (t : TxSerdivParam) : t.wellFormed = true ↔
    (t.s1 ≤ t.s2 ∧ t.s2 ≤ t.s3 ∧ t.s3 ≤ t.s4)
      ∧ (t.w1 ≠ 0 ∧ t.w2 ≠ 0 ∧ t.w3 ≠ 0 ∧ t.w4 ≠ 0 ∧ t.w5 ≠ 0) := by
  simp [TxSerdivParam.wellFormed, and_assoc]

/-- The check of R200. -/
theorem bppWellFormed_iff (P : Params) : P.bppWellFormed = true ↔
    P.bpp.length = 16 ∧ P.bpp.countP Option.isSome = 13 ∧ (∀ m d : Nat, some (m, d) ∈ P.bpp → 1 ≤ d)
      ∧ (P.fmtRaw10 ≠ P.fmtYuv422 ∧ P.fmtRaw10 ≠ 0x0a ∧ P.fmtYuv422 ≠ 0x0a)
      ∧ P.bppEntry 0x0a = some (1, 3) ∧ P.bppEntry P.fmtRaw10 = some (5, 4)
      ∧ P.bppEntry P.fmtYuv422 = some (5, 2) := by
  simp only [Params.bppWellFormed, Bool.and_eq_true, decide_eq_true_eq, bne_iff_ne, beq_iff_eq, List.all_eq_true,
    Option.forall, Prod.forall, List.countP_eq_length_filter, implies_true, true_and, and_assoc]
  rfl

/-- The check is the conjunction of the conditions of R167, R169, R200 and R205. -/
theorem wellFormed_iff_paramsLegal (P : Params) : P.wellFormed = true ↔ ParamsLegal P := by
  simp only [Params.wellFormed, Bool.and_eq_true, decide_eq_true_eq, txPrediv_wellFormed_iff,
    txSerdiv_wellFormed_iff, bppWellFormed_iff, ParamsLegal, and_assoc]
  rfl

/-! ## The step under a parameter set -/

/-- An ill-formed parameter set refuses the run before the program is read (log 28). -/
theorem stepWith_of_not_paramsLegal {P : Params} (hP : ¬ ParamsLegal P) (s : State) :
    stepWith P s = .refused .badParameter := by
  rw [← wellFormed_iff_paramsLegal, Bool.not_eq_true] at hP
  simp only [stepWith, hP, if_true]

/-- Under a legal parameter set a step runs the operation the program decodes to, with these parameters. -/
theorem stepWith_of_decode_ok {P : Params} (hP : ParamsLegal P) {s : State} {i : Instr} {rest : List Byte}
    (h : decode s.program = .ok i rest) : stepWith P s = execWith P i (s.advance rest) := by
  rw [← wellFormed_iff_paramsLegal] at hP
  cases hp : s.program with
  | nil => rw [hp] at h; cases h
  | cons op tl =>
    rw [hp] at h
    simp [stepWith, hP, hp, h]

theorem config_paramsLegal : ParamsLegal Config.P := (wellFormed_iff_paramsLegal _).1 Config.P_wellFormed

/-- The machine's step is the parametric one at the machine's own parameters. -/
theorem step_eq_stepWith (s : State) : step s = stepWith Config.P s := by
  cases hp : s.program with
  | nil => simp [step_of_program_nil hp, stepWith, Config.P_wellFormed, hp]
  | cons op tl =>
    cases hd : decode (op :: tl) with
    | ok i rest =>
      rw [← hp] at hd
      rw [step_of_decode_ok hd, exec_eq_execWith, stepWith_of_decode_ok config_paramsLegal hd]
    | bad e => simp [step, stepWith, Config.P_wellFormed, hp, hd]

/-- Settles O6: the check decides the conditions, and it stands before the decoder in the parametric step (log 28),
which the machine's own, legal parameters pass. -/
theorem parametersAreCheckedBeforeTheRun : Obligations.ParametersAreCheckedBeforeTheRun :=
  ⟨fun _ s hP => stepWith_of_not_paramsLegal hP s, fun _ _ _ _ hP h => stepWith_of_decode_ok hP h,
    config_paramsLegal, step_eq_stepWith, exec_eq_execWith⟩

end Sys2Proof.Proofs
end

