-- ==== Sys2Proof/Proofs/Fleet.lean ====
section
/-! Several block instances (R31, R322, log 19): a step of one instance, seen in the list of states. -/

namespace Sys2Proof.Proofs

open Sys2Proof Sys2Proof.Machine Sys2Proof.Safety

variable {j k : Nat} {f g f1 f2 : Fleet} {s t : State}

/-- A step leaves the chip the instance drives. -/
theorem step_keeps_chip (he : step s = .next t) : t.chip = s.chip := by
  obtain rfl | ⟨i, rest, hx⟩ := step_next he
  · rfl
  · obtain ⟨-, -, -, -, -, -, hchip, -⟩ := everyOperationAppendsItsRecord i _ t hx
    exact hchip

/-- An index no instance has does nothing. -/
theorem fleetStep_of_absent (hk : f[k]? = none) : fleetStep k f = .next f := by
  simp only [fleetStep, hk]

/-- Instance `k` steps in its place in the list. -/
theorem fleetStep_of_step (hk : f[k]? = some s) (he : step s = .next t) :
    fleetStep k f = .next (f.set k t) := by
  simp only [fleetStep, hk, he]

/-- What a fleet's step can do: nothing where there is no instance, else one step of the instance there. -/
theorem fleetStep_next (he : fleetStep k f = .next g) :
    (f[k]? = none ∧ g = f) ∨ ∃ s t : State, f[k]? = some s ∧ step s = .next t ∧ g = f.set k t := by
  unfold fleetStep at he
  split at he
  · exact .inl ⟨‹_›, (Host.Outcome.next.inj he).symm⟩
  · split at he
    · exact .inr ⟨_, _, ‹_›, ‹_›, (Host.Outcome.next.inj he).symm⟩
    · cases he
    · cases he

/-- A step leaves the other instances as they were. -/
theorem fleetStep_other (hne : j ≠ k) (he : fleetStep j f = .next g) : g[k]? = f[k]? := by
  obtain ⟨-, rfl⟩ | ⟨s, t, -, -, rfl⟩ := fleetStep_next he
  · rfl
  · exact List.getElem?_set_ne hne

/-- A step does not look at the other instances: with another state in the place of one of them it does the same. -/
theorem fleetStep_set_other (hne : j ≠ k) (he : fleetStep j f = .next g) (t : State) :
    fleetStep j (f.set k t) = .next (g.set k t) := by
  have hj : (f.set k t)[j]? = f[j]? := List.getElem?_set_ne hne.symm
  obtain ⟨hnone, rfl⟩ | ⟨s, s', hs, hstep, rfl⟩ := fleetStep_next he
  · exact fleetStep_of_absent (hj.trans hnone)
  · rw [fleetStep_of_step (hj.trans hs) hstep, List.set_comm _ _ hne]

/-- Steps of different instances can be exchanged. -/
theorem fleetStep_comm (hne : j ≠ k) (h1 : fleetStep j f = .next f1) (h2 : fleetStep k f1 = .next f2) :
    ∃ g : Fleet, fleetStep k f = .next g ∧ fleetStep j g = .next f2 := by
  have hk := fleetStep_other hne h1
  obtain ⟨hnone, rfl⟩ | ⟨s, t, hs, hstep, rfl⟩ := fleetStep_next h2
  · exact ⟨f, fleetStep_of_absent (hk ▸ hnone), h1⟩
  · exact ⟨f.set k t, fleetStep_of_step (hk ▸ hs) hstep, fleetStep_set_other hne h1 t⟩

/-- Every instance keeps its chip. -/
theorem fleetStep_keeps_chips (he : fleetStep k f = .next g) : g.map State.chip = f.map State.chip := by
  obtain ⟨-, rfl⟩ | ⟨s, t, hs, hstep, rfl⟩ := fleetStep_next he
  · rfl
  · obtain ⟨hk, rfl⟩ := List.getElem?_eq_some_iff.1 hs
    rw [List.map_set, step_keeps_chip hstep, ← List.map_set, List.set_getElem_self]

/-- Settles O59: a step of an instance reads and writes its own place in the list alone, and an operation leaves the
chip number of the state it runs in. The list and the number are the model's (log 19). -/
theorem instancesAreIndependent : Obligations.InstancesAreIndependent := by
  intro j k f f1 f2 hne h1 h2
  have hchips := fleetStep_keeps_chips h1
  refine ⟨fleetStep_other hne h1, hchips, fun hwf => ?_, fleetStep_comm hne h1 h2⟩
  rwa [Fleet.wf, hchips]

end Sys2Proof.Proofs
end

