-- ==== Sys2Proof/Proofs/Reset.lean ====
section
/-! Reset (R340): construction with all three conditions of R253 met, and the invariants in the state it leaves. -/

namespace Sys2Proof.Proofs

open Sys2Proof Sys2Proof.Machine Sys2Proof.Safety

/-- Without a live context ATTACH with its three conditions met constructs (R253). -/
theorem exec_attach_constructs {s : State} (hl : s.live = false) :
    exec (.attach 7) s = .next ((construct s).record (.ok .unit)) := exec_attach_free hl 7

/-- Settles O7: ATTACH constructs, and construction writes the reset record with its event. -/
theorem attachBuildsTheResetRecord : Obligations.AttachBuildsTheResetRecord :=
  fun _ hl => exec_attach_constructs hl

/-- The reset state is the state construction leaves (the model's choice, log 2). -/
theorem reset_eq_construct : State.reset = (construct State.unconstructed).record (.ok .unit) := rfl

/-- The reset record holds stage Prepare, for which no timing need be selected, and no error. -/
theorem legal_reset : Legal Ctx.reset := ⟨Nat.zero_le 4, Nat.zero_le 9, nofun⟩

/-- The history before construction is empty, so it has no access without a bank. -/
theorem located_unconstructed (P : Params) : located P State.unconstructed := rfl

/-- Settles O8: the invariants on the history hold wherever a construction ends, those on the context hold of the
reset record. -/
theorem resetMeetsTheInvariants : Obligations.ResetMeetsTheInvariants := by
  have hattach : exec (.attach 7) State.unconstructed = .next State.reset :=
    (exec_attach_constructs rfl).trans (congrArg _ reset_eq_construct.symm)
  obtain ⟨hcodes, htiming⟩ := (legal_iff State.reset).1 legal_reset
  have hselected : selectedFromTable Config.P State.reset := nofun
  have hretry : retryBounded State.reset := Nat.zero_le 30
  have hquiescent : quiescent State.reset := .inl rfl
  exact ⟨hattach, hcodes, htiming, countAgrees_construct State.unconstructed,
    construct_located (located_unconstructed Config.P), hselected, hretry,
    attachedAgrees_construct State.unconstructed, hquiescent⟩

end Sys2Proof.Proofs
end
